-- ==== Sys2Proof/Word.lean ====
section
/-! DEFINITION. The words a command transaction moves (30_encoding.md R100): a 32-bit command word and
64-bit operand and result words; the transaction itself; and the Sample (20_memory.md R71). Bits are
numbered from 0 at the least significant bit (R11). -/

namespace Sys2Proof

/-- An operand or result word (OPA, OPB, RES0, RES1), 64 bits (R100). A floating-point value of either
precision also travels and rests in such a word (R102, R103). -/
abbrev Word := BitVec 64

/-- The command word CMD, 32 bits (R100). -/
abbrev CmdWord := BitVec 32

/-- The input words of one command transaction (R100). -/
structure Txn where
  /-- CMD -/
  cmd : CmdWord
  /-- OPA -/
  opa : Word
  /-- OPB -/
  opb : Word
  deriving DecidableEq, Repr

/-- A Sample: the ordered pair (re, im) of T values, the real part first (R71). -/
structure Sample where
  /-- real part -/
  re : Word
  /-- imaginary part -/
  im : Word
  deriving DecidableEq, Repr

end Sys2Proof
end

