-- ==== Sys2Proof/Syntax.lean ====
section
/-! DEFINITION. The command set, one constructor per row of spec/opcode_table.json (30_encoding.md R104).
A constructor carries exactly the fields its row uses: an index is the natural number IDX holds (R101,
R70), an operand the raw 64-bit word (R102); a field the row ignores (R106) is not part of the
instruction. -/

namespace Sys2Proof

/-- The 17 commands of R104, in the table's order. -/
inductive Instr where
  /-- NOP (R130). -/
  | nop
  /-- STAT_RD (R131). -/
  | statRd
  /-- ERR_CLR (R132). -/
  | errClr
  /-- BUF_WR i, re, im (R133): the index and the two operand words. -/
  | bufWr (i : Nat) (opa opb : Word)
  /-- BUF_RD i (R134). -/
  | bufRd (i : Nat)
  /-- FWD_NEW (R250). -/
  | fwdNew
  /-- INV_NEW (R280). -/
  | invNew
  /-- STEP (R310). -/
  | step
  /-- RUN (R311). -/
  | run
  /-- IS_DONE (R312). -/
  | isDone
  /-- CANCEL (R313). -/
  | cancel
  /-- CUR_RD sel (R314). -/
  | curRd (sel : Nat)
  /-- SIN angle (R165): the operand word. -/
  | sin (opa : Word)
  /-- REVBITS x (R212). -/
  | revbits (x : Nat)
  /-- TW_RD i (R196). -/
  | twRd (i : Nat)
  /-- ATAN_RD i (R166). -/
  | atanRd (i : Nat)
  /-- GAIN_RD i (R167). -/
  | gainRd (i : Nat)
  deriving DecidableEq, Repr

/-- The pseudo-instructions of 30_encoding.md R109 that are a fixed sequence of commands. (WAITDONE is a
loop of the host; `Sys2Proof.Machine.waitDone` runs it.) -/
inductive Pseudo where
  /-- FFT. -/
  | fft
  /-- IFFT. -/
  | ifft
  /-- STEPN k. -/
  | stepn (k : Nat)
  /-- LOADV i, re, im. -/
  | loadv (i : Nat) (re im : Word)
  deriving DecidableEq, Repr

end Sys2Proof
end

