-- ==== Sys2Proof/WellFormed.lean ====
section
/-! DEFINITION. Well-formed instructions: an index fits the 24-bit IDX field (30_encoding.md R101). Nothing
else is checked: an index outside its space and a selector above 4 are legal encodings, which the command
itself answers with INDEX_RANGE (60_exceptions.md R340). -/

namespace Sys2Proof

/-- IDX is CMD[23:0] (R101), so an index the encoding can carry is below 2^24. -/
def idxFits (i : Nat) : Bool := i < 2 ^ 24

/-- The instruction can be written as a transaction. -/
def Instr.wf : Instr → Bool
  | .nop => true
  | .statRd => true
  | .errClr => true
  | .bufWr i _ _ => idxFits i
  | .bufRd i => idxFits i
  | .fwdNew => true
  | .invNew => true
  | .step => true
  | .run => true
  | .isDone => true
  | .cancel => true
  | .curRd sel => idxFits sel
  | .sin _ => true
  | .revbits x => idxFits x
  | .twRd i => idxFits i
  | .atanRd i => idxFits i
  | .gainRd i => idxFits i

end Sys2Proof
end

