-- ==== Sys2Proof/Decode.lean ====
section
/-! DEFINITION. The decoder, total on every transaction, and after it the encoder, both from the opcode map
and the field layout of 30_encoding.md R100 to R105. -/

namespace Sys2Proof

/-- Why a transaction has no instruction. -/
inductive DecodeError where
  /-- OPC is none of the 17 opcodes of R104 (R105). -/
  | illegalOpc (opc : Nat)
  deriving DecidableEq, Repr

/-- OPC = CMD[31:24] (R101). -/
def opcOf (cmd : CmdWord) : Nat := cmd.toNat / 2 ^ 24

/-- IDX = CMD[23:0], zero-extended (R101). -/
def idxOf (cmd : CmdWord) : Nat := cmd.toNat % 2 ^ 24

/-- The instruction a transaction stands for. The decoder examines OPC alone (R101); a field the command
does not use is dropped (R106). -/
def decode (t : Txn) : Except DecodeError Instr :=
  match opcOf t.cmd with
  | 0x00 => .ok .nop
  | 0x01 => .ok .statRd
  | 0x02 => .ok .errClr
  | 0x08 => .ok (.bufWr (idxOf t.cmd) t.opa t.opb)
  | 0x09 => .ok (.bufRd (idxOf t.cmd))
  | 0x10 => .ok .fwdNew
  | 0x11 => .ok .invNew
  | 0x12 => .ok .step
  | 0x13 => .ok .run
  | 0x14 => .ok .isDone
  | 0x15 => .ok .cancel
  | 0x16 => .ok (.curRd (idxOf t.cmd))
  | 0x20 => .ok (.sin t.opa)
  | 0x21 => .ok (.revbits (idxOf t.cmd))
  | 0x22 => .ok (.twRd (idxOf t.cmd))
  | 0x23 => .ok (.atanRd (idxOf t.cmd))
  | 0x24 => .ok (.gainRd (idxOf t.cmd))
  | opc => .error (.illegalOpc opc)

/-- The transaction whose 160 bits are `w`: CMD in the low 32, then OPA, then OPB. -/
def txnOfBits (w : Nat) : Txn :=
  { cmd := BitVec.ofNat 32 w
    opa := BitVec.ofNat 64 (w / 2 ^ 32)
    opb := BitVec.ofNat 64 (w / 2 ^ 96) }

/-- The transaction of an opcode-table word of `nbits` bits, every bit above them 0. -/
def txnOfTableWord (nbits w : Nat) : Txn := txnOfBits (w % 2 ^ nbits)

/-- The instruction the decoder reads from an opcode-table word. -/
def decodeTableWord (nbits w : Nat) : Option Instr := (decode (txnOfTableWord nbits w)).toOption

/-- OPC of each command (R104). -/
def opcode : Instr → Nat
  | .nop => 0x00
  | .statRd => 0x01
  | .errClr => 0x02
  | .bufWr _ _ _ => 0x08
  | .bufRd _ => 0x09
  | .fwdNew => 0x10
  | .invNew => 0x11
  | .step => 0x12
  | .run => 0x13
  | .isDone => 0x14
  | .cancel => 0x15
  | .curRd _ => 0x16
  | .sin _ => 0x20
  | .revbits _ => 0x21
  | .twRd _ => 0x22
  | .atanRd _ => 0x23
  | .gainRd _ => 0x24

/-- The index a command carries in IDX, 0 where it uses none (R104, R108). -/
def idxField : Instr → Nat
  | .bufWr i _ _ => i
  | .bufRd i => i
  | .curRd sel => sel
  | .revbits x => x
  | .twRd i => i
  | .atanRd i => i
  | .gainRd i => i
  | .nop | .statRd | .errClr | .fwdNew | .invNew | .step | .run | .isDone | .cancel | .sin _ => 0

/-- The OPA word of a command, 0 where it uses none (R104, R108). -/
def opaField : Instr → Word
  | .bufWr _ opa _ => opa
  | .sin opa => opa
  | .nop | .statRd | .errClr | .bufRd _ | .fwdNew | .invNew | .step | .run | .isDone | .cancel | .curRd _
  | .revbits _ | .twRd _ | .atanRd _ | .gainRd _ => 0

/-- The OPB word of a command, 0 where it uses none (R104, R108). -/
def opbField : Instr → Word
  | .bufWr _ _ opb => opb
  | .nop | .statRd | .errClr | .bufRd _ | .fwdNew | .invNew | .step | .run | .isDone | .cancel | .curRd _
  | .sin _ | .revbits _ | .twRd _ | .atanRd _ | .gainRd _ => 0

/-- The transaction of a well-formed instruction: CMD = OPC << 24 | idx, 0 in each unused word (R108). -/
def encode (i : Instr) : Txn :=
  { cmd := BitVec.ofNat 32 (opcode i * 2 ^ 24 + idxField i)
    opa := opaField i
    opb := opbField i }

/-- The command sequence a pseudo-instruction stands for (R109). -/
def expand : Pseudo → List Instr
  | .fft => [.fwdNew, .run]
  | .ifft => [.invNew, .run]
  | .stepn k => List.replicate k .step
  | .loadv i re im => [.bufWr i re im]

end Sys2Proof
end

