-- ==== Sys2Proof/Config.lean ====
section
/-! DEFINITION. What an RBU instance fixes at elaboration (00_scope.md R7 to R10), the default contents of
the two CORDIC ROMs (41_cordic.md R160, R161), and the one free value of the model, NAN_POLICY
(44_butterfly.md R222). -/

namespace Sys2Proof

/-- `PREC`: the working floating-point type T (R9). -/
inductive Prec where
  /-- binary32 -/
  | b32
  /-- binary64 -/
  | b64
  deriving DecidableEq, Repr

/-- The elaboration parameters LOG2N and PREC (R8). The other two value parameters, CORDIC_ATAN and
CORDIC_GAIN, are the ROM fields of State. -/
structure Config where
  /-- log2 of the buffer size (R7) -/
  log2n : Nat
  /-- the working precision (R9) -/
  prec : Prec
  deriving DecidableEq, Repr

/-- N = 2^LOG2N, the number of buffer entries (R10). -/
def Config.n (c : Config) : Nat := 2 ^ c.log2n

/-- Q = N/4, the twiddle-table length (R10). -/
def Config.q (c : Config) : Nat := c.n / 4

/-- The instances that exist: 2 ≤ LOG2N ≤ 24 (R7, 60_exceptions.md R343). PREC is B32 or B64 by type. -/
def Config.legal (c : Config) : Bool := 2 ≤ c.log2n && c.log2n ≤ 24

/-- The instance `State.reset` is built for. DESIGN CHOICE (assumption 2): the spec leaves the parameters
to elaboration and names no default; every statement is about every legal instance. -/
def Config.default : Config := { log2n := 3, prec := .b64 }

/-- The arithmetic operations whose result can be a NaN (R221, R222). -/
inductive FpOp where
  /-- addT, add64 -/
  | add
  /-- subT, sub64 -/
  | sub
  /-- mulT, mul64 -/
  | mul
  /-- toT -/
  | toT
  deriving DecidableEq, Repr

/-- FREE VALUE (assumption 1): NAN_POLICY(op, operands) of R222, as raw bits the machine reads a sign and a
payload from (`Machine.nanResult`). It has no body: nothing can be proved of the bits. A one-operand
operation passes its operand twice. -/
opaque Config.nanPolicy : Prec → FpOp → Word → Word → Word

/-- ATAN[i] = RN64(atan(2^−i)), the default CORDIC_ATAN of R160, entries 0 to 15 (table after R161). -/
def defaultAtan0 : List Word :=
  [0x3FE921FB54442D18, 0x3FDDAC670561BB4F, 0x3FCF5B75F92C80DD, 0x3FBFD5BA9AAC2F6E,
   0x3FAFF55BB72CFDEA, 0x3F9FFD55BBA97625, 0x3F8FFF555BBB729B, 0x3F7FFFD555BBBA97,
   0x3F6FFFF5555BBBB7, 0x3F5FFFFD5555BBBC, 0x3F4FFFFF55555BBC, 0x3F3FFFFFD55555BC,
   0x3F2FFFFFF555555C, 0x3F1FFFFFFD555556, 0x3F0FFFFFFF555555, 0x3EFFFFFFFFD55555]

/-- ATAN[i] = RN64(atan(2^−i)), the default CORDIC_ATAN of R160, entries 16 to 31 (table after R161). -/
def defaultAtan1 : List Word :=
  [0x3EEFFFFFFFF55555, 0x3EDFFFFFFFFD5555, 0x3ECFFFFFFFFF5555, 0x3EBFFFFFFFFFD555,
   0x3EAFFFFFFFFFF555, 0x3E9FFFFFFFFFFD55, 0x3E8FFFFFFFFFFF55, 0x3E7FFFFFFFFFFFD5,
   0x3E6FFFFFFFFFFFF5, 0x3E5FFFFFFFFFFFFD, 0x3E4FFFFFFFFFFFFF, 0x3E40000000000000,
   0x3E30000000000000, 0x3E20000000000000, 0x3E10000000000000, 0x3E00000000000000]

/-- ATAN[i] = RN64(atan(2^−i)), the default CORDIC_ATAN of R160, entries 32 to 47 (table after R161). -/
def defaultAtan2 : List Word :=
  [0x3DF0000000000000, 0x3DE0000000000000, 0x3DD0000000000000, 0x3DC0000000000000,
   0x3DB0000000000000, 0x3DA0000000000000, 0x3D90000000000000, 0x3D80000000000000,
   0x3D70000000000000, 0x3D60000000000000, 0x3D50000000000000, 0x3D40000000000000,
   0x3D30000000000000, 0x3D20000000000000, 0x3D10000000000000, 0x3D00000000000000]

/-- ATAN[i] = RN64(atan(2^−i)), the default CORDIC_ATAN of R160, entries 48 to 63 (table after R161). -/
def defaultAtan3 : List Word :=
  [0x3CF0000000000000, 0x3CE0000000000000, 0x3CD0000000000000, 0x3CC0000000000000,
   0x3CB0000000000000, 0x3CA0000000000000, 0x3C90000000000000, 0x3C80000000000000,
   0x3C70000000000000, 0x3C60000000000000, 0x3C50000000000000, 0x3C40000000000000,
   0x3C30000000000000, 0x3C20000000000000, 0x3C10000000000000, 0x3C00000000000000]

/-- ATAN[i] = RN64(atan(2^−i)), the default CORDIC_ATAN of R160: all 64 entries. -/
def defaultAtan : Vector Word 64 :=
  ⟨((defaultAtan0 ++ defaultAtan1) ++ (defaultAtan2 ++ defaultAtan3)).toArray, rfl⟩

/-- GAIN[i] = RN64(K_i), the default CORDIC_GAIN of R161, entries 0 to 15 (table after R161). -/
def defaultGain0 : List Word :=
  [0x3FE6A09E667F3BCD, 0x3FE43D136248490F, 0x3FE3A261BA6D7A37, 0x3FE37B9141DEB3FE,
   0x3FE371DAC182EEF6, 0x3FE36F6CFABD961F, 0x3FE36ED1869F27E9, 0x3FE36EAAA970B20F,
   0x3FE36EA0F222A6D1, 0x3FE36E9E844EFD24, 0x3FE36E9DE8DA104B, 0x3FE36E9DC1FCD4EE,
   0x3FE36E9DB8458614, 0x3FE36E9DB5D7B25E, 0x3FE36E9DB53C3D70, 0x3FE36E9DB5156034]

/-- GAIN[i] = RN64(K_i), the default CORDIC_GAIN of R161, entries 16 to 31 (table after R161). -/
def defaultGain1 : List Word :=
  [0x3FE36E9DB50BA8E6, 0x3FE36E9DB5093B12, 0x3FE36E9DB5089F9D, 0x3FE36E9DB50878C0,
   0x3FE36E9DB5086F08, 0x3FE36E9DB5086C9B, 0x3FE36E9DB5086BFF, 0x3FE36E9DB5086BD8,
   0x3FE36E9DB5086BCF, 0x3FE36E9DB5086BCC, 0x3FE36E9DB5086BCC, 0x3FE36E9DB5086BCB,
   0x3FE36E9DB5086BCB, 0x3FE36E9DB5086BCB, 0x3FE36E9DB5086BCB, 0x3FE36E9DB5086BCB]

/-- GAIN[i] = RN64(K_i), the default CORDIC_GAIN of R161, entries 32 to 47 (table after R161). -/
def defaultGain2 : List Word :=
  [0x3FE36E9DB5086BCB, 0x3FE36E9DB5086BCB, 0x3FE36E9DB5086BCB, 0x3FE36E9DB5086BCB,
   0x3FE36E9DB5086BCB, 0x3FE36E9DB5086BCB, 0x3FE36E9DB5086BCB, 0x3FE36E9DB5086BCB,
   0x3FE36E9DB5086BCB, 0x3FE36E9DB5086BCB, 0x3FE36E9DB5086BCB, 0x3FE36E9DB5086BCB,
   0x3FE36E9DB5086BCB, 0x3FE36E9DB5086BCB, 0x3FE36E9DB5086BCB, 0x3FE36E9DB5086BCB]

/-- GAIN[i] = RN64(K_i), the default CORDIC_GAIN of R161, entries 48 to 63 (table after R161). -/
def defaultGain3 : List Word :=
  [0x3FE36E9DB5086BCB, 0x3FE36E9DB5086BCB, 0x3FE36E9DB5086BCB, 0x3FE36E9DB5086BCB,
   0x3FE36E9DB5086BCB, 0x3FE36E9DB5086BCB, 0x3FE36E9DB5086BCB, 0x3FE36E9DB5086BCB,
   0x3FE36E9DB5086BCB, 0x3FE36E9DB5086BCB, 0x3FE36E9DB5086BCB, 0x3FE36E9DB5086BCB,
   0x3FE36E9DB5086BCB, 0x3FE36E9DB5086BCB, 0x3FE36E9DB5086BCB, 0x3FE36E9DB5086BCB]

/-- GAIN[i] = RN64(K_i), the default CORDIC_GAIN of R161: all 64 entries. -/
def defaultGain : Vector Word 64 :=
  ⟨((defaultGain0 ++ defaultGain1) ++ (defaultGain2 ++ defaultGain3)).toArray, rfl⟩

end Sys2Proof
end

