-- ==== Sys2Proof/Machine/BitRev.lean ====
section
/-! DEFINITION. The bit-reversal indexer (43_bitrev.md R210). -/

namespace Sys2Proof.Machine

/-- The low `k` bits of `x`, reversed (R210). -/
def revBits : Nat → Nat → Nat
  | 0, _ => 0
  | k + 1, x => x % 2 * 2 ^ k + revBits k (x / 2)

/-- rev(x): the low LOG2N bits of x reversed; the bits above them are ignored (R210, R212). -/
def rev (c : Config) (x : Nat) : Nat := revBits c.log2n x

end Sys2Proof.Machine
end

