-- ==== Sys2Proof/Machine/Float.lean ====
section
/-! DEFINITION. The floating-point arithmetic of the RBU (44_butterfly.md R220 to R223): IEEE 754 binary32
and binary64, every operation computed exactly and rounded once, ties to even.

A finite value is read as an exact integer, its magnitude counted in units of the least subnormal
(2^-149 or 2^-1074), so that each operation is exact integer arithmetic followed by `roundMag`. A value of
either precision rests in the low bits of a 64-bit word. -/

namespace Sys2Proof.Machine

/-- Fraction bits of the format (R220). -/
def fracBits : Prec → Nat
  | .b32 => 23
  | .b64 => 52

/-- Exponent bits of the format (R220). -/
def expBits : Prec → Nat
  | .b32 => 8
  | .b64 => 11

/-- The exponent bias (R220). -/
def expBias : Prec → Nat
  | .b32 => 127
  | .b64 => 1023

/-- The position of the sign bit: 31 or 63 (R220). -/
def signPos (p : Prec) : Nat := expBits p + fracBits p

/-- The least subnormal is 2^-(unitExp p): 2^-149 or 2^-1074. -/
def unitExp (p : Prec) : Nat := expBias p - 1 + fracBits p

/-- The exponent and fraction fields of +∞; a larger magnitude field is a NaN (R220). -/
def infMag (p : Prec) : Nat := (2 ^ expBits p - 1) * 2 ^ fracBits p

/-- The sign bit. -/
def signOf (p : Prec) (w : Word) : Bool := w.toNat.testBit (signPos p)

/-- The exponent and fraction fields together. -/
def magOf (p : Prec) (w : Word) : Nat := w.toNat % 2 ^ signPos p

/-- The value is a NaN. -/
def isNaN (p : Prec) (w : Word) : Bool := infMag p < magOf p w

/-- The value is +∞ or −∞. -/
def isInf (p : Prec) (w : Word) : Bool := magOf p w == infMag p

/-- The value is finite. -/
def isFin (p : Prec) (w : Word) : Bool := magOf p w < infMag p

/-- The bit pattern with this sign and these exponent and fraction fields. -/
def packMag (p : Prec) (neg : Bool) (mag : Nat) : Word :=
  BitVec.ofNat 64 ((if neg then 2 ^ signPos p else 0) + mag)

/-- The magnitude that exponent and fraction fields encode, in units of the least subnormal (R220). -/
def scaledMag (p : Prec) (mag : Nat) : Nat :=
  let e := mag / 2 ^ fracBits p
  let f := mag % 2 ^ fracBits p
  if e = 0 then f else (2 ^ fracBits p + f) * 2 ^ (e - 1)

/-- The exact value of a finite word, in units of the least subnormal. -/
def valueOf (p : Prec) (w : Word) : Int :=
  if signOf p w then -(scaledMag p (magOf p w) : Int) else (scaledMag p (magOf p w) : Int)

/-- n / 2^sh to the nearest integer, ties to even. -/
def rneShift (n sh : Nat) : Nat :=
  let r := n % 2 ^ sh
  let q := n / 2 ^ sh
  if 2 ^ sh < 2 * r ∨ (2 * r = 2 ^ sh ∧ q % 2 = 1) then q + 1 else q

/-- The position of the highest set bit of a number below 2^(2^j), by halving the range. -/
def topBit : Nat → Nat → Nat
  | 0, _ => 0
  | j + 1, n =>
    if n / 2 ^ 2 ^ j = 0 then topBit j n else 2 ^ j + topBit j (n / 2 ^ 2 ^ j)

/-- The position of the highest set bit, for every number the machine rounds (all are below 2^8192). -/
def ilog2 (n : Nat) : Nat := topBit 13 n

/-- The exponent and fraction fields nearest to the real n · 2^-k units of the least subnormal, ties to
even, subnormal results kept, overflow to ∞ (R221). -/
def roundMag (p : Prec) (k n : Nat) : Nat :=
  let sh := max (ilog2 n - fracBits p) k
  min ((sh - k) * 2 ^ fracBits p + rneShift n sh) (infMag p)

/-- NAN_POLICY(op, operands) as a NaN of the destination format (R222): sign and payload are the free
value's; a zero payload, which would not be a NaN, is read as the quiet bit alone, so that every NaN of the
format is a possible draw. -/
def nanResult (p : Prec) (op : FpOp) (a b : Word) : Word :=
  let d := (Config.nanPolicy p op a b).toNat
  let f := d % 2 ^ fracBits p
  packMag p (d.testBit (signPos p)) (infMag p + if f = 0 then 2 ^ (fracBits p - 1) else f)

/-- negT: the sign bit flipped, exact for every input (R221). -/
def negT (p : Prec) (a : Word) : Word := a ^^^ BitVec.ofNat 64 (2 ^ signPos p)

/-- The sum of two finite values rounded once; a zero sum is −0 only for (−0) + (−0) (R221). -/
def addFinite (p : Prec) (a b : Word) : Word :=
  let v := valueOf p a + valueOf p b
  if v = 0 then packMag p (signOf p a && signOf p b) 0
  else packMag p (decide (v < 0)) (roundMag p 0 v.natAbs)

/-- The sum a + b, with the operation and the operands NAN_POLICY sees given apart (R221, R222). -/
def sumWith (p : Prec) (op : FpOp) (b₀ a b : Word) : Word :=
  if isNaN p a || isNaN p b then nanResult p op a b₀
  else if isInf p a then
    if isInf p b && (signOf p a != signOf p b) then nanResult p op a b₀
    else packMag p (signOf p a) (infMag p)
  else if isInf p b then packMag p (signOf p b) (infMag p)
  else addFinite p a b

/-- addT (R221). -/
def addT (p : Prec) (a b : Word) : Word := sumWith p .add b a b

/-- subT (R221): IEEE 754 subtraction is the addition of the negated operand. -/
def subT (p : Prec) (a b : Word) : Word := sumWith p .sub b a (negT p b)

/-- mulT (R221). -/
def mulT (p : Prec) (a b : Word) : Word :=
  let neg := signOf p a != signOf p b
  if isNaN p a || isNaN p b then nanResult p .mul a b
  else if isInf p a || isInf p b then
    if magOf p a = 0 ∨ magOf p b = 0 then nanResult p .mul a b else packMag p neg (infMag p)
  else packMag p neg (roundMag p (unitExp p) (scaledMag p (magOf p a) * scaledMag p (magOf p b)))

/-- toT (R13, R221): a binary64 value in the working precision. -/
def toT (p : Prec) (v : Word) : Word :=
  match p with
  | .b64 => v
  | .b32 =>
    if isNaN .b64 v then nanResult .b32 .toT v v
    else if isInf .b64 v then packMag .b32 (signOf .b64 v) (infMag .b32)
    else packMag .b32 (signOf .b64 v)
      (roundMag .b32 (unitExp .b64 - unitExp .b32) (scaledMag .b64 (magOf .b64 v)))

/-- The order of non-NaN values, both zeros being one key. -/
def orderKey (p : Prec) (w : Word) : Int :=
  if signOf p w then -(magOf p w : Int) else (magOf p w : Int)

/-- lt64: the IEEE ordered comparison, false when an operand is a NaN (R221). -/
def lt64 (a b : Word) : Bool :=
  !isNaN .b64 a && !isNaN .b64 b && decide (orderKey .b64 a < orderKey .b64 b)

/-- gt64 (R221). -/
def gt64 (a b : Word) : Bool := lt64 b a

/-- add64 (R13). -/
def add64 (a b : Word) : Word := addT .b64 a b

/-- sub64 (R13). -/
def sub64 (a b : Word) : Word := subT .b64 a b

/-- mul64 (R13). -/
def mul64 (a b : Word) : Word := mulT .b64 a b

/-- The binary64 value nearest to a natural number. -/
def natTo64 (n : Nat) : Word := packMag .b64 false (roundMag .b64 0 (n * 2 ^ unitExp .b64))

/-- 2^-k, exact for 0 ≤ k < the bias. -/
def powNeg (p : Prec) (k : Nat) : Word := packMag p false ((expBias p - k) * 2 ^ fracBits p)

end Sys2Proof.Machine
end

