-- ==== Sys2Proof/Machine/Cordic.lean ====
section
/-! DEFINITION. The CORDIC sine evaluator (41_cordic.md R162 to R164). -/

namespace Sys2Proof.Machine

/-- FRAC_PI_2 (R162). -/
def fracPi2 : Word := 0x3FF921FB54442D18

/-- −FRAC_PI_2 (R162). -/
def negFracPi2 : Word := 0xBFF921FB54442D18

/-- The domain test of R162. -/
def inDomain (a : Word) : Bool := gt64 a negFracPi2 && lt64 a fracPi2

/-- The evaluator's four working values (R163). -/
structure Rotation where
  /-- accumulated angle -/
  theta : Word
  /-- vector, first component -/
  x : Word
  /-- vector, second component -/
  y : Word
  /-- 2^-i -/
  p2i : Word
  deriving DecidableEq, Repr

/-- θ = +0.0, (x, y) = (1.0, +0.0), p2i = 1.0 (R163). -/
def Rotation.start : Rotation :=
  { theta := 0, x := 0x3FF0000000000000, y := 0, p2i := 0x3FF0000000000000 }

/-- One iteration of R163 toward the angle `a` with the arctangent step `atanI`; x' and y' both use the old
x and y. -/
def rotate (a : Word) (r : Rotation) (atanI : Word) : Rotation :=
  let dx := mul64 r.y r.p2i
  let dy := mul64 r.x r.p2i
  let half := mul64 r.p2i 0x3FE0000000000000
  if lt64 r.theta a then
    { theta := add64 r.theta atanI, x := sub64 r.x dx, y := add64 r.y dy, p2i := half }
  else
    { theta := sub64 r.theta atanI, x := add64 r.x dx, y := sub64 r.y dy, p2i := half }

/-- The arctangent steps of the iterations i = 0 to 62 (R163, R164): the ROM less its entry 63. -/
def cordicSteps (atan : Vector Word 64) : List Word := atan.toList.take 63

/-- cordic_sin (R163). -/
def cordicSin (atan gain : Vector Word 64) (a : Word) : Word :=
  mul64 ((cordicSteps atan).foldl (rotate a) Rotation.start).y gain[62]

end Sys2Proof.Machine
end

