-- ==== Sys2Proof/Machine/Twiddle.lean ====
section
/-! DEFINITION. The twiddle table builder (42_twiddle.md R190 to R194): the contents the ROM TW holds from
elaboration onwards. -/

namespace Sys2Proof.Machine

/-- TAU64 = 2 · RN64(π) (R191). -/
def tau64 : Word := 0x401921FB54442D18

/-- angle_i = RN64(TAU64 · i) · 2^−LOG2N (R191). -/
def twAngle (log2n i : Nat) : Word := mul64 (mul64 tau64 (natTo64 i)) (powNeg .b64 log2n)

/-- TW[i]: +0.0 at index 0 (R190), toT(cordic_sin(angle_i)) elsewhere (R192). -/
def twEntry (c : Config) (atan gain : Vector Word 64) (i : Nat) : Word :=
  if i = 0 then 0 else toT c.prec (cordicSin atan gain (twAngle c.log2n i))

/-- The whole table, Q entries (R190). -/
def buildTw (c : Config) (atan gain : Vector Word 64) : List Word :=
  (List.range c.q).map (twEntry c atan gain)

end Sys2Proof.Machine
end

