-- ==== Sys2Proof/Machine/State.lean ====
section
/-! DEFINITION. The state of one RBU instance (10_state.md R30), as plain data; the reasons a step can stop;
and the state after reset (70_reset_and_hazards.md R370). -/

namespace Sys2Proof.Machine

/-- `kind`: which engine is bound to the buffer (R33). -/
inductive Kind where
  /-- no engine -/
  | none
  /-- the forward (decimation-in-frequency) engine -/
  | fwd
  /-- the inverse (decimation-in-time) engine -/
  | inv
  deriving DecidableEq, Repr

/-- `tag`: the engine's tagged state (R34). -/
inductive Tag where
  /-- no engine -/
  | none
  /-- STEP1 -/
  | step1
  /-- STEP2 -/
  | step2
  /-- STEP3 -/
  | step3
  /-- STEP4 -/
  | step4
  /-- STEP5 -/
  | step5
  /-- STEP6 -/
  | step6
  /-- REORDER -/
  | reorder
  /-- DONE -/
  | done
  deriving DecidableEq, Repr

/-- The response codes a command can end with (60_exceptions.md R340). Codes 6 and 7 are never produced. -/
inductive RespCode where
  /-- OK, code 0 -/
  | ok
  /-- ILLEGAL_CMD, code 1 -/
  | illegalCmd
  /-- INDEX_RANGE, code 2 -/
  | indexRange
  /-- OWNERSHIP, code 3 -/
  | ownership
  /-- NO_ENGINE, code 4 -/
  | noEngine
  /-- DOMAIN_ERROR, code 5 -/
  | domainError
  deriving DecidableEq, Repr

/-- The output words of one transaction (30_encoding.md R100). -/
structure Response where
  /-- RESP -/
  code : RespCode
  /-- RES0 -/
  res0 : Word
  /-- RES1 -/
  res1 : Word
  deriving DecidableEq, Repr

/-- What arrives at the RBU from outside, one at a time and in order (R6, R79): a command transaction, or
reset, which is an event and not a command and falls between two commands (R370). -/
inductive PortEvent where
  /-- a command transaction at the command port -/
  | cmd (t : Txn)
  /-- the reset event -/
  | reset
  deriving DecidableEq, Repr

/-- The reasons the model stops. -/
inductive Fault where
  /-- UNWRITTEN_READ(i) (R353): raised by BUF_RD, STEP and RUN when they read a buffer entry nothing has
  written since reset. Safe: the hardware goes on with unspecified bits. -/
  | unwrittenRead (i : Nat)
  /-- An engine cursor names an entry outside BUF or TW (R77 requires it inside), or TW is shorter than its
  Q entries: raised by STEP, RUN and TW_RD, in states no run reaches. Safe. -/
  | outsideSpace (i : Nat)
  /-- An engine exists with tag NONE, a pair R34 rules out and R310 gives no transition: raised by STEP and
  RUN, in states no run reaches. Safe. -/
  | noTransition
  /-- RUN has taken F(LOG2N) steps and the engine is not done, which R311 rules out: raised by RUN, in
  states no run reaches. Safe. -/
  | runOverrun
  deriving DecidableEq, Repr

/-- The reasons the model gives an instruction no meaning. -/
inductive Refusal where
  /-- The instruction has no meaning yet: raised by exec's arm of that instruction. Safe. No arm raises it:
  all 17 commands are modelled. -/
  | notModelled (mnemonic : String)
  deriving DecidableEq, Repr

/-- The state of an RBU instance. The first fields are the record of R30; `cfg` is the instance's own
elaboration parameters (R8), which no step changes; `port` and `resp` are the command port as the model
holds it (assumption 3). The cursors are 32-bit registers held as natural numbers, as R12 allows
(assumption 5). -/
structure State where
  /-- LOG2N and PREC (R8): configuration, not state. -/
  cfg : Config
  /-- R33 -/
  kind : Kind
  /-- R34 -/
  tag : Tag
  /-- cursor `length` (R35) -/
  length : Nat
  /-- cursor `step` (R35) -/
  step : Nat
  /-- cursor `step_size` (R35) -/
  stepSize : Nat
  /-- cursor `top_idx` (R35) -/
  topIdx : Nat
  /-- cursor `bottom_idx` (R35) -/
  bottomIdx : Nat
  /-- Buf and written (R37): the entries written since reset, by strictly rising index; written[i] holds
  exactly when i is listed. -/
  buf : List (Nat × Sample)
  /-- the five sticky error bits (R40) -/
  err : BitVec 5
  /-- ROM TW (R38) -/
  tw : List Word
  /-- ROM ATAN (R39) -/
  atan : Vector Word 64
  /-- ROM GAIN (R39) -/
  gain : Vector Word 64
  /-- the model's own: what has arrived at the port and not been taken, oldest first (assumption 3) -/
  port : List PortEvent
  /-- the model's own: the response of the last completed command (assumption 3) -/
  resp : Option Response
  deriving DecidableEq, Repr

/-- The state right after reset of the instance with these parameters (R370, R371): no engine, cursors 0, no
error, every buffer entry unwritten, the ROMs at their elaboration contents. -/
def State.resetOf (c : Config) (atan gain : Vector Word 64) : State :=
  { cfg := c
    kind := .none
    tag := .none
    length := 0
    step := 0
    stepSize := 0
    topIdx := 0
    bottomIdx := 0
    buf := []
    err := 0
    tw := buildTw c atan gain
    atan := atan
    gain := gain
    port := []
    resp := none }

/-- The machine right after reset, for the default instance (assumption 2). -/
def State.reset : State := State.resetOf Config.default defaultAtan defaultGain

end Sys2Proof.Machine
end

