-- ==== Sys2Proof/Machine/Flags.lean ====
section
/-! DEFINITION. The RBU's flags: the sticky error bits, the derived predicates ACTIVE and DONE, and the STATUS
word computed from them (10_state.md R40 to R43). It has no condition codes (R43). -/

namespace Sys2Proof.Machine

/-- The 3-bit code of a response (60_exceptions.md R340). -/
def respBits : RespCode → BitVec 3
  | .ok => 0
  | .illegalCmd => 1
  | .indexRange => 2
  | .ownership => 3
  | .noEngine => 4
  | .domainError => 5

/-- The bit of `err` a response sets: bit (c − 1) for an error code c, none for OK (R40, R342). -/
def errBit (c : RespCode) : BitVec 5 :=
  match c with
  | .ok => 0
  | .illegalCmd => 0b00001
  | .indexRange => 0b00010
  | .ownership => 0b00100
  | .noEngine => 0b01000
  | .domainError => 0b10000

/-- The KIND field's encoding (R33). -/
def kindBits : Kind → BitVec 2
  | .none => 0
  | .fwd => 1
  | .inv => 2

/-- The TAG field's encoding (R34). -/
def tagBits : Tag → BitVec 4
  | .none => 0
  | .step1 => 1
  | .step2 => 2
  | .step3 => 3
  | .step4 => 4
  | .step5 => 5
  | .step6 => 6
  | .reorder => 7
  | .done => 8

/-- The PREC field's encoding (R41). -/
def precBits : Prec → BitVec 1
  | .b32 => 0
  | .b64 => 1

/-- active ≡ kind ≠ NONE ∧ tag ≠ DONE (R42). -/
def active (s : State) : Bool := s.kind != .none && s.tag != .done

/-- done ≡ kind ≠ NONE ∧ tag = DONE (R42). -/
def isDone (s : State) : Bool := s.kind != .none && s.tag == .done

/-- The STATUS word of R41, highest field first: [31:22] reserved, PREC, LOG2N, [15:13] reserved, ERR, DONE,
ACTIVE, TAG, KIND. The DONE bit is R41's own "1 when tag = DONE". -/
def status (s : State) : BitVec 32 :=
  0#10 ++ precBits s.cfg.prec ++ BitVec.ofNat 5 s.cfg.log2n ++ 0#3 ++ s.err ++
    BitVec.ofBool (s.tag == .done) ++ BitVec.ofBool (active s) ++ tagBits s.tag ++ kindBits s.kind

end Sys2Proof.Machine
end

