-- ==== Sys2Proof/Machine/Kernels.lean ====
section
/-! DEFINITION. The butterfly kernels (44_butterfly.md R224 to R234). Each product, sum and
difference is rounded on its own; the ±j of a class is applied after its rotation. -/

namespace Sys2Proof.Machine

/-- cadd (R224). -/
def cadd (p : Prec) (a b : Sample) : Sample := ⟨addT p a.re b.re, addT p a.im b.im⟩

/-- csub (R224). -/
def csub (p : Prec) (a b : Sample) : Sample := ⟨subT p a.re b.re, subT p a.im b.im⟩

/-- rotm: d · (c − j·s) (R225). -/
def rotm (p : Prec) (d : Sample) (c s : Word) : Sample :=
  ⟨addT p (mulT p d.re c) (mulT p d.im s), subT p (mulT p d.im c) (mulT p d.re s)⟩

/-- rotp: b · (c + j·s) (R225). -/
def rotp (p : Prec) (b : Sample) (c s : Word) : Sample :=
  ⟨subT p (mulT p b.re c) (mulT p b.im s), addT p (mulT p b.im c) (mulT p b.re s)⟩

/-- z · (−j) = (im, −re), as R228 and R229 apply it. -/
def timesNegJ (p : Prec) (z : Sample) : Sample := ⟨z.im, negT p z.re⟩

/-- z · (+j) = (−im, re), as R232 and R233 apply it. -/
def timesPosJ (p : Prec) (z : Sample) : Sample := ⟨negT p z.im, z.re⟩

/-- dif_one: twiddle 1 (R226). -/
def difOne (p : Prec) (a b : Sample) : Sample × Sample := (cadd p a b, csub p a b)

/-- dif_rot: twiddle e^(−jθ) (R227). -/
def difRot (p : Prec) (c s : Word) (a b : Sample) : Sample × Sample :=
  (cadd p a b, rotm p (csub p a b) c s)

/-- dif_negj: twiddle −j (R228). -/
def difNegj (p : Prec) (a b : Sample) : Sample × Sample := (cadd p a b, timesNegJ p (csub p a b))

/-- dif_negjrot: twiddle −j·e^(−jθ) (R229). -/
def difNegjrot (p : Prec) (c s : Word) (a b : Sample) : Sample × Sample :=
  (cadd p a b, timesNegJ p (rotm p (csub p a b) c s))

/-- dit_one: twiddle 1 (R230). -/
def ditOne (p : Prec) (a b : Sample) : Sample × Sample := (cadd p a b, csub p a b)

/-- dit_rot: twiddle e^(+jθ) (R231). -/
def ditRot (p : Prec) (c s : Word) (a b : Sample) : Sample × Sample :=
  let u := rotp p b c s
  (cadd p a u, csub p a u)

/-- dit_posj: twiddle +j (R232). -/
def ditPosj (p : Prec) (a b : Sample) : Sample × Sample :=
  let u := timesPosJ p b
  (cadd p a u, csub p a u)

/-- dit_posjrot: twiddle +j·e^(+jθ) (R233). -/
def ditPosjrot (p : Prec) (c s : Word) (a b : Sample) : Sample × Sample :=
  let u := timesPosJ p (rotp p b c s)
  (cadd p a u, csub p a u)

/-- INV_N = 2^−LOG2N in T (R10). -/
def invN (c : Config) : Word := powNeg c.prec c.log2n

/-- scl: both components times INV_N (R234). -/
def scl (c : Config) (z : Sample) : Sample := ⟨mulT c.prec z.re (invN c), mulT c.prec z.im (invN c)⟩

/-- dit_scale: the sum and the difference rounded first, then scaled (R234). -/
def ditScale (c : Config) (a b : Sample) : Sample × Sample :=
  (scl c (cadd c.prec a b), scl c (csub c.prec a b))

end Sys2Proof.Machine
end

