-- ==== Sys2Proof/Machine/Operands.lean ====
section
/-! DEFINITION. How an operand word is read and a result word is made (30_encoding.md R102, R103). -/

namespace Sys2Proof.Machine

/-- opT(W): with B64 all 64 bits, with B32 bits [31:0], W[63:32] being ignored (R102). The bits are copied
unchanged. -/
def opT (p : Prec) (w : Word) : Word :=
  match p with
  | .b32 => (w.setWidth 32).setWidth 64
  | .b64 => w

/-- op64(W): all 64 bits whatever PREC is (R102). -/
def op64 (w : Word) : Word := w

/-- resT(v): bitsT(v), zero-extended with B32 (R103). -/
def resT (p : Prec) (v : Word) : Word :=
  match p with
  | .b32 => (v.setWidth 32).setWidth 64
  | .b64 => v

/-- bits64(v): a binary64 result (R103). -/
def res64 (v : Word) : Word := v

/-- zext_64 of an integer result (R103). -/
def resNat (n : Nat) : Word := BitVec.ofNat 64 n

end Sys2Proof.Machine
end

