-- ==== Sys2Proof/Machine/Ops.lean ====
section
/-! DEFINITION. The operations every command is built from: ending a command with a response or an error
code, the buffer and ROM accesses of 20_memory.md R77, applying a kernel in place (44_butterfly.md R235),
and reset (70_reset_and_hazards.md R370).

The RBU has no trap entry and no trap return (60_exceptions.md R347, R348): its one form of exception is
the error response, `raise`, after which the next command begins normally, so there is nothing to return
from. -/

namespace Sys2Proof.Machine

/-- respond(r0, r1): the command ends with code OK and these result words (00_scope.md R14). -/
def respond (r0 r1 : Word) (s : State) : Host.Outcome State Fault Refusal :=
  .next { s with resp := some { code := .ok, res0 := r0, res1 := r1 } }

/-- raise E: the command ends with error code `c`. It sets the code's sticky bit, returns RES0 = RES1 = 0 and
leaves all else unchanged (R341, R342). -/
def raise (c : RespCode) (s : State) : Host.Outcome State Fault Refusal :=
  .next { s with err := s.err ||| errBit c, resp := some { code := c, res0 := 0, res1 := 0 } }

/-- The answer to a command word whose OPC is in no row of the opcode map (R105). -/
def takeIllegal (s : State) : Host.Outcome State Fault Refusal := raise .illegalCmd s

/-- The sample listed at index `i`, if entry `i` has been written. -/
def bufGet : List (Nat × Sample) → Nat → Option Sample
  | [], _ => none
  | (j, z) :: rest, i => if j = i then some z else bufGet rest i

/-- The buffer with entry `i` holding `z`, indices kept strictly rising. -/
def bufSet : List (Nat × Sample) → Nat → Sample → List (Nat × Sample)
  | [], i, z => [(i, z)]
  | (j, w) :: rest, i, z =>
    if i < j then (i, z) :: (j, w) :: rest
    else if i = j then (i, z) :: rest
    else (j, w) :: bufSet rest i z

/-- Every index of the list lies above `i`. -/
def allAbove (i : Nat) (m : List (Nat × Sample)) : Bool := m.all fun e => decide (i < e.1)

/-- The indices rise strictly. -/
def rising : List (Nat × Sample) → Bool
  | [] => true
  | e :: rest => allAbove e.1 rest && rising rest

/-- Both components are T values: with B32, bits [63:32] of the word they rest in are 0. -/
def fitsT (p : Prec) (w : Word) : Bool := decide (w.toNat < 2 ^ (signPos p + 1))

/-- The buffer's canonical form: indices strictly rising and below N, components T values. -/
def Memory.wf (c : Config) (m : List (Nat × Sample)) : Bool :=
  rising m && m.all fun e => decide (e.1 < c.n) && fitsT c.prec e.2.re && fitsT c.prec e.2.im

/-- written[i] (R37). -/
def written (s : State) (i : Nat) : Bool := (bufGet s.buf i).isSome

/-- MemRead(BUF, i) (R77). -/
def memRead (s : State) (i : Nat) : Except Fault Sample :=
  if i < s.cfg.n then
    match bufGet s.buf i with
    | some z => .ok z
    | none => .error (.unwrittenRead i)
  else .error (.outsideSpace i)

/-- MemWrite(BUF, i, z): Buf[i] <- z, written[i] <- true (R77). Callers have i < N. -/
def memWrite (s : State) (i : Nat) (z : Sample) : State := { s with buf := bufSet s.buf i z }

/-- TW[i] (R77). -/
def twRead (s : State) (i : Nat) : Except Fault Word :=
  match s.tw[i]? with
  | some v => .ok v
  | none => .error (.outsideSpace i)

/-- tw_cs(k) = (TW[Q − k], TW[k]) (42_twiddle.md R195). -/
def twCs (s : State) (k : Nat) : Except Fault (Word × Word) :=
  match twRead s (s.cfg.q - k) with
  | .error f => .error f
  | .ok c =>
    match twRead s k with
    | .error f => .error f
    | .ok sn => .ok (c, sn)

/-- A kernel applied in place at `t` and `b`: both entries read, then both written (R235). -/
def applyKernel (s : State) (t b : Nat) (k : Sample → Sample → Sample × Sample) : Except Fault State :=
  match memRead s t with
  | .error f => .error f
  | .ok x =>
    match memRead s b with
    | .error f => .error f
    | .ok y => .ok (memWrite (memWrite s t (k x y).1) b (k x y).2)

/-- A kernel that takes the twiddle pair tw_cs(k), applied in place at `t` and `b`. -/
def applyTwiddled (s : State) (t b k : Nat)
    (kernel : Word → Word → Sample → Sample → Sample × Sample) : Except Fault State :=
  match twCs s k with
  | .error f => .error f
  | .ok cs => applyKernel s t b (kernel cs.1 cs.2)

/-- (Buf[t], Buf[r]) <- (Buf[r], Buf[t]), both entries read before either is written (R258, R282). DESIGN CHOICE
(assumption 24): entry `t` is read first, so where neither is written the fault names `t`. -/
def swapEntries (s : State) (t r : Nat) : Except Fault State := applyKernel s t r fun x y => (y, x)

/-- The reset event (R370): no engine, cursors and errors 0, no entry written; the ROMs and the parameters
stay (R371), and what waits at the port stays. No command has completed since. -/
def applyReset (s : State) : State :=
  { s with
    kind := .none
    tag := .none
    length := 0
    step := 0
    stepSize := 0
    topIdx := 0
    bottomIdx := 0
    buf := []
    err := 0
    resp := none }

/-- The elaboration check (60_exceptions.md R343): the machine right after reset with these parameters, and no
machine where LOG2N lies outside 2..24 or a CORDIC ROM does not have exactly 64 entries. -/
def elaborate (log2n : Nat) (prec : Prec) (atan gain : List Word) : Option State :=
  let c : Config := { log2n := log2n, prec := prec }
  if c.legal then
    if ha : atan.length = 64 then
      if hg : gain.length = 64 then
        some (State.resetOf c ⟨atan.toArray, by simpa using ha⟩ ⟨gain.toArray, by simpa using hg⟩)
      else none
    else none
  else none

end Sys2Proof.Machine
end

