-- ==== Sys2Proof/Machine/Forward.lean ====
section
/-! DEFINITION. The forward (decimation-in-frequency) engine's transitions (45_forward_engine.md R252 to
R259). Each reads its cursors from the state before it. -/

namespace Sys2Proof.Machine

/-- Forward STEP1: the butterfly k = 0 of the block, twiddle 1 (R252). -/
def fwdStep1 (s : State) : Except Fault State :=
  let t := s.topIdx
  let b := t + 2 * s.length
  (applyKernel s t b (difOne s.cfg.prec)).map fun s' =>
    if 1 < s.length then
      { s' with bottomIdx := b, topIdx := t + 1, step := s.stepSize, tag := .step2 }
    else { s' with bottomIdx := b, topIdx := t + 1, tag := .step3 }

/-- Forward STEP2: a butterfly 0 < k < L, twiddle e^(−jθ) (R253). -/
def fwdStep2 (s : State) : Except Fault State :=
  let t := s.topIdx
  let b := t + 2 * s.length
  let k := s.step
  (applyTwiddled s t b k (difRot s.cfg.prec)).map fun s' =>
    { s' with
      bottomIdx := b
      topIdx := t + 1
      step := k + s.stepSize
      tag := if k + s.stepSize = s.cfg.q then .step3 else .step2 }

/-- Forward STEP3: the butterfly k = L, twiddle −j (R254). -/
def fwdStep3 (s : State) : Except Fault State :=
  let t := s.topIdx
  let b := t + 2 * s.length
  (applyKernel s t b (difNegj s.cfg.prec)).map fun s' =>
    if 1 < s.length then
      { s' with bottomIdx := b, topIdx := t + 1, step := s.stepSize, tag := .step4 }
    else { s' with bottomIdx := b, topIdx := t + 1, tag := .step5 }

/-- Forward STEP4: a butterfly L < k < 2L, twiddle −j·e^(−jθ′) (R255). -/
def fwdStep4 (s : State) : Except Fault State :=
  let t := s.topIdx
  let b := t + 2 * s.length
  let k := s.step
  (applyTwiddled s t b k (difNegjrot s.cfg.prec)).map fun s' =>
    { s' with
      bottomIdx := b
      topIdx := t + 1
      step := k + s.stepSize
      tag := if k + s.stepSize = s.cfg.q then .step5 else .step4 }

/-- Forward STEP5: bookkeeping, to the next block, the next stage or STEP6 (R256). -/
def fwdStep5 (s : State) : Except Fault State :=
  let nb := s.topIdx + 2 * s.length
  if nb < s.cfg.n then .ok { s with topIdx := nb, tag := .step1 }
  else if 1 < s.length then
    .ok { s with length := s.length / 2, stepSize := 2 * s.stepSize, topIdx := 0, tag := .step1 }
  else .ok { s with topIdx := 0, tag := .step6 }

/-- Forward STEP6: the final radix-2 pass on adjacent pairs (R257). -/
def fwdStep6 (s : State) : Except Fault State :=
  let t := s.topIdx
  let b := t + 1
  (applyKernel s t b (difOne s.cfg.prec)).map fun s' =>
    if t + 2 = s.cfg.n then { s' with bottomIdx := b, topIdx := 0, tag := .reorder }
    else { s' with bottomIdx := b, topIdx := t + 2 }

/-- Forward REORDER: one index of the bit-reversal permutation (R258). -/
def fwdReorder (s : State) : Except Fault State :=
  let t := s.topIdx
  let r := rev s.cfg t
  (if t < r then swapEntries s t r else .ok s).map fun s' =>
    if t + 1 = s.cfg.n - 1 then { s' with bottomIdx := r, topIdx := t + 1, tag := .done }
    else { s' with bottomIdx := r, topIdx := t + 1 }

/-- Forward DONE: no change (R259). -/
def fwdDone (s : State) : Except Fault State := .ok s

end Sys2Proof.Machine
end

