-- ==== Sys2Proof/Machine/Inverse.lean ====
section
/-! DEFINITION. The inverse (decimation-in-time) engine's transitions (46_inverse_engine.md R282 to R289).
Each reads its cursors from the state before it. -/

namespace Sys2Proof.Machine

/-- Inverse REORDER: one index of the bit-reversal permutation, done first (R282). -/
def invReorder (s : State) : Except Fault State :=
  let t := s.topIdx
  let r := rev s.cfg t
  (if t < r then swapEntries s t r else .ok s).map fun s' =>
    if t + 1 = s.cfg.n - 1 then { s' with bottomIdx := r, topIdx := 0, tag := .step1 }
    else { s' with bottomIdx := r, topIdx := t + 1 }

/-- Inverse STEP1: the first radix-2 pass on adjacent pairs, with the 1/N scaling (R283). -/
def invStep1 (s : State) : Except Fault State :=
  let t := s.topIdx
  let b := t + 1
  (applyKernel s t b (ditScale s.cfg)).map fun s' =>
    if t + 2 = s.cfg.n then { s' with bottomIdx := b, topIdx := 0, tag := .step2 }
    else { s' with bottomIdx := b, topIdx := t + 2 }

/-- Inverse STEP2: the butterfly k = 0 of the block, twiddle 1 (R284). -/
def invStep2 (s : State) : Except Fault State :=
  let t := s.topIdx
  let b := t + 2 * s.length
  (applyKernel s t b (ditOne s.cfg.prec)).map fun s' =>
    if 1 < s.length then
      { s' with bottomIdx := b, topIdx := t + 1, step := s.stepSize, tag := .step3 }
    else { s' with bottomIdx := b, topIdx := t + 1, tag := .step4 }

/-- Inverse STEP3: a butterfly 0 < k < L, twiddle e^(+jθ) (R285). -/
def invStep3 (s : State) : Except Fault State :=
  let t := s.topIdx
  let b := t + 2 * s.length
  let k := s.step
  (applyTwiddled s t b k (ditRot s.cfg.prec)).map fun s' =>
    { s' with
      bottomIdx := b
      topIdx := t + 1
      step := k + s.stepSize
      tag := if k + s.stepSize = s.cfg.q then .step4 else .step3 }

/-- Inverse STEP4: the butterfly k = L, twiddle +j (R286). -/
def invStep4 (s : State) : Except Fault State :=
  let t := s.topIdx
  let b := t + 2 * s.length
  (applyKernel s t b (ditPosj s.cfg.prec)).map fun s' =>
    if 1 < s.length then
      { s' with bottomIdx := b, topIdx := t + 1, step := s.stepSize, tag := .step5 }
    else { s' with bottomIdx := b, topIdx := t + 1, tag := .step6 }

/-- Inverse STEP5: a butterfly L < k < 2L, twiddle +j·e^(+jθ′) (R287). -/
def invStep5 (s : State) : Except Fault State :=
  let t := s.topIdx
  let b := t + 2 * s.length
  let k := s.step
  (applyTwiddled s t b k (ditPosjrot s.cfg.prec)).map fun s' =>
    { s' with
      bottomIdx := b
      topIdx := t + 1
      step := k + s.stepSize
      tag := if k + s.stepSize = s.cfg.q then .step6 else .step5 }

/-- Inverse STEP6: bookkeeping, to the next block, the next stage or DONE (R288). -/
def invStep6 (s : State) : Except Fault State :=
  let nb := s.topIdx + 2 * s.length
  if nb < s.cfg.n then .ok { s with topIdx := nb, tag := .step2 }
  else if 1 < s.stepSize then
    .ok { s with length := 2 * s.length, stepSize := s.stepSize / 2, topIdx := 0, tag := .step2 }
  else .ok { s with tag := .done }

/-- Inverse DONE: no change (R289). -/
def invDone (s : State) : Except Fault State := .ok s

end Sys2Proof.Machine
end

