-- ==== Sys2Proof/Machine/EngineCmds.lean ====
section
/-! DEFINITION. The engine commands: FWD_NEW (45_forward_engine.md R250), INV_NEW (46_inverse_engine.md R280),
STEP, RUN, IS_DONE, CANCEL and CUR_RD (47_engine_commands.md R310 to R314). -/

namespace Sys2Proof.Machine

/-- FWD_NEW (R250). -/
def execFwdNew (s : State) : Host.Outcome State Fault Refusal :=
  respond 0 0
    { s with
      kind := .fwd
      tag := .step1
      length := s.cfg.q
      stepSize := 1
      step := 0
      topIdx := 0
      bottomIdx := 0 }

/-- INV_NEW (R280). -/
def execInvNew (s : State) : Host.Outcome State Fault Refusal :=
  respond 0 0
    { s with
      kind := .inv
      tag := .reorder
      length := 1
      stepSize := s.cfg.q
      step := 0
      topIdx := 0
      bottomIdx := 0 }

/-- engine_step() (R310). -/
def engineStep (s : State) : Except Fault State :=
  match s.kind, s.tag with
  | .fwd, .step1 => fwdStep1 s
  | .fwd, .step2 => fwdStep2 s
  | .fwd, .step3 => fwdStep3 s
  | .fwd, .step4 => fwdStep4 s
  | .fwd, .step5 => fwdStep5 s
  | .fwd, .step6 => fwdStep6 s
  | .fwd, .reorder => fwdReorder s
  | .fwd, .done => fwdDone s
  | .inv, .reorder => invReorder s
  | .inv, .step1 => invStep1 s
  | .inv, .step2 => invStep2 s
  | .inv, .step3 => invStep3 s
  | .inv, .step4 => invStep4 s
  | .inv, .step5 => invStep5 s
  | .inv, .step6 => invStep6 s
  | .inv, .done => invDone s
  | .fwd, .none => .error .noTransition
  | .inv, .none => .error .noTransition
  | .none, _ => .error .noTransition

/-- STEP (R310). -/
def execStep (s : State) : Host.Outcome State Fault Refusal :=
  if s.kind = .none then raise .noEngine s
  else
    match engineStep s with
    | .error f => .fault f
    | .ok s' => respond 0 0 s'

/-- F(LOG2N) = LOG2N·N/2 + 3N/2 − 2, the steps from a NEW to DONE (45_forward_engine.md R260,
46_inverse_engine.md R290). -/
def totalSteps (c : Config) : Nat := c.log2n * (c.n / 2) + 3 * (c.n / 2) - 2

/-- RUN's loop: steps until the tag is DONE, with the number of steps taken. R311 bounds the loop by
F(LOG2N), which is the fuel it is given. -/
def runLoop : Nat → State → Except Fault (State × Nat)
  | 0, s => if s.tag = .done then .ok (s, 0) else .error .runOverrun
  | fuel + 1, s =>
    if s.tag = .done then .ok (s, 0)
    else
      match engineStep s with
      | .error f => .error f
      | .ok s' => (runLoop fuel s').map fun r => (r.1, r.2 + 1)

/-- RUN (R311). -/
def execRun (s : State) : Host.Outcome State Fault Refusal :=
  if s.kind = .none then raise .noEngine s
  else
    match runLoop (totalSteps s.cfg) s with
    | .error f => .fault f
    | .ok r => respond (resNat r.2) 0 r.1

/-- IS_DONE (R312). -/
def execIsDone (s : State) : Host.Outcome State Fault Refusal :=
  if s.kind = .none then raise .noEngine s
  else respond (if s.tag = .done then 1 else 0) 0 s

/-- CANCEL (R313): the cursors and the buffer are left as they are. -/
def execCancel (s : State) : Host.Outcome State Fault Refusal :=
  respond 0 0 { s with kind := .none, tag := .none }

/-- CUR_RD (R314). -/
def execCurRd (sel : Nat) (s : State) : Host.Outcome State Fault Refusal :=
  match sel with
  | 0 => respond (resNat s.length) 0 s
  | 1 => respond (resNat s.step) 0 s
  | 2 => respond (resNat s.stepSize) 0 s
  | 3 => respond (resNat s.topIdx) 0 s
  | 4 => respond (resNat s.bottomIdx) 0 s
  | _ => raise .indexRange s

end Sys2Proof.Machine
end

