-- ==== Sys2Proof/Machine/HostCmds.lean ====
section
/-! DEFINITION. The host and buffer commands (40_host_commands.md R130 to R134). -/

namespace Sys2Proof.Machine

/-- NOP (R130). -/
def execNop (s : State) : Host.Outcome State Fault Refusal := respond 0 0 s

/-- STAT_RD (R131). -/
def execStatRd (s : State) : Host.Outcome State Fault Refusal := respond ((status s).setWidth 64) 0 s

/-- ERR_CLR (R132). -/
def execErrClr (s : State) : Host.Outcome State Fault Refusal := respond 0 0 { s with err := 0 }

/-- BUF_WR (R133): OWNERSHIP before INDEX_RANGE (R345). -/
def execBufWr (i : Nat) (opa opb : Word) (s : State) : Host.Outcome State Fault Refusal :=
  if active s then raise .ownership s
  else if s.cfg.n ≤ i then raise .indexRange s
  else respond 0 0 (memWrite s i { re := opT s.cfg.prec opa, im := opT s.cfg.prec opb })

/-- BUF_RD (R134). -/
def execBufRd (i : Nat) (s : State) : Host.Outcome State Fault Refusal :=
  if active s then raise .ownership s
  else if s.cfg.n ≤ i then raise .indexRange s
  else
    match memRead s i with
    | .error f => .fault f
    | .ok z => respond (resT s.cfg.prec z.re) (resT s.cfg.prec z.im) s

end Sys2Proof.Machine
end

