-- ==== Sys2Proof/Machine/Utility.lean ====
section
/-! DEFINITION. The utility and table commands: SIN, ATAN_RD, GAIN_RD (41_cordic.md R165 to R167), REVBITS
(43_bitrev.md R212), TW_RD (42_twiddle.md R196). -/

namespace Sys2Proof.Machine

/-- SIN (R165). The angle is binary64 whatever PREC is. -/
def execSin (opa : Word) (s : State) : Host.Outcome State Fault Refusal :=
  if inDomain (op64 opa) then respond (res64 (cordicSin s.atan s.gain (op64 opa))) 0 s
  else raise .domainError s

/-- REVBITS (R212): bits of x at and above LOG2N are ignored. -/
def execRevbits (x : Nat) (s : State) : Host.Outcome State Fault Refusal :=
  respond (resNat (rev s.cfg (x % s.cfg.n))) 0 s

/-- TW_RD (R196). -/
def execTwRd (i : Nat) (s : State) : Host.Outcome State Fault Refusal :=
  if s.cfg.q ≤ i then raise .indexRange s
  else
    match twRead s i with
    | .error f => .fault f
    | .ok v => respond (resT s.cfg.prec v) 0 s

/-- ATAN_RD (R166). -/
def execAtanRd (i : Nat) (s : State) : Host.Outcome State Fault Refusal :=
  if h : i < 64 then respond (res64 s.atan[i]) 0 s else raise .indexRange s

/-- GAIN_RD (R167). -/
def execGainRd (i : Nat) (s : State) : Host.Outcome State Fault Refusal :=
  if h : i < 64 then respond (res64 s.gain[i]) 0 s else raise .indexRange s

end Sys2Proof.Machine
end

