-- ==== Sys2Proof/Machine/Dispatch.lean ====
section
/-! DEFINITION. The meaning of each command, one arm per row of the opcode map (30_encoding.md R104). -/

namespace Sys2Proof.Machine

def exec (i : Instr) (s : State) : Host.Outcome State Fault Refusal :=
  match i with
  | .nop => Sys2Proof.Machine.execNop s
  | .statRd => Sys2Proof.Machine.execStatRd s
  | .errClr => Sys2Proof.Machine.execErrClr s
  | .bufWr idx opa opb => Sys2Proof.Machine.execBufWr idx opa opb s
  | .bufRd idx => Sys2Proof.Machine.execBufRd idx s
  | .fwdNew => Sys2Proof.Machine.execFwdNew s
  | .invNew => Sys2Proof.Machine.execInvNew s
  | .step => Sys2Proof.Machine.execStep s
  | .run => Sys2Proof.Machine.execRun s
  | .isDone => Sys2Proof.Machine.execIsDone s
  | .cancel => Sys2Proof.Machine.execCancel s
  | .curRd sel => Sys2Proof.Machine.execCurRd sel s
  | .sin opa => Sys2Proof.Machine.execSin opa s
  | .revbits x => Sys2Proof.Machine.execRevbits x s
  | .twRd idx => Sys2Proof.Machine.execTwRd idx s
  | .atanRd idx => Sys2Proof.Machine.execAtanRd idx s
  | .gainRd idx => Sys2Proof.Machine.execGainRd idx s

end Sys2Proof.Machine
end

