-- ==== Sys2Proof/Machine/Step.lean ====
section
/-! DEFINITION. One step of the machine: the oldest event at the port is taken and answered whole before the
next begins (00_scope.md R6, 20_memory.md R79). -/

namespace Sys2Proof.Machine

/-- One transaction at the port, answered whole: the decoded command's meaning, or ILLEGAL_CMD where the
opcode is in no row of the map (R105). -/
def transact (t : Txn) (s : State) : Host.Outcome State Fault Refusal :=
  match decode t with
  | .ok i => exec i s
  | .error _ => takeIllegal s

/-- One step. With nothing at the port the machine is idle, which changes no state (60_exceptions.md
R356). -/
def step (s : State) : Host.Outcome State Fault Refusal :=
  match s.port with
  | [] => .next s
  | .reset :: rest => .next (applyReset { s with port := rest })
  | .cmd t :: rest => transact t { s with port := rest }

/-- The state with this transaction next at the port. -/
def State.withTxn (s : State) (t : Txn) : State := { s with port := .cmd t :: s.port }

/-- The state whose next transaction is the opcode-table word's, its operand words being 0. -/
def State.withFetchWord (s : State) (nbits w : Nat) : State := s.withTxn (txnOfTableWord nbits w)

end Sys2Proof.Machine
end

