-- ==== Sys2Proof/Machine/Pseudo.lean ====
section
/-! DEFINITION. Host programs: command sequences at the port, and the WAITDONE loop (30_encoding.md R109). The
control flow is the host's; its only effect on the RBU is the commands it issues. -/

namespace Sys2Proof.Machine

/-- The state with the transactions of these commands waiting at the port, behind what waits already. -/
def State.withCommands (s : State) (is : List Instr) : State :=
  { s with port := s.port ++ is.map fun i => .cmd (encode i) }

/-- RES0 of the last response, 0 before the first. -/
def lastRes0 (s : State) : Word :=
  match s.resp with
  | some r => r.res0
  | none => 0

/-- WAITDONE (R109): L: STEP; IS_DONE; if RES0 = 0 goto L. The host gives up after `fuel` rounds. -/
def waitDone : Nat → State → Host.Outcome State Fault Refusal
  | 0, s => .next s
  | fuel + 1, s =>
    match execStep s with
    | .fault f => .fault f
    | .refused r => .refused r
    | .next s₁ =>
      match execIsDone s₁ with
      | .fault f => .fault f
      | .refused r => .refused r
      | .next s₂ => if lastRes0 s₂ = 0 then waitDone fuel s₂ else .next s₂

/-- `k` STEP commands in turn, stopping at a fault (R316). -/
def stepTimes : Nat → State → Host.Outcome State Fault Refusal
  | 0, s => .next s
  | k + 1, s =>
    match execStep s with
    | .next s' => stepTimes k s'
    | .fault f => .fault f
    | .refused r => .refused r

end Sys2Proof.Machine
end

