-- ==== Sys2Proof/Safety.lean ====
section
/-! DEFINITION. What claims call a good state: the invariants the spec states of its registers, buffer and
tables, the work an engine has left, and a buffer a transform can read. -/

namespace Sys2Proof.Machine

/-- `n` is a power of two. -/
def isPow2 (n : Nat) : Bool := n == 2 ^ Nat.log2 n

/-- tag = NONE exactly when kind = NONE (R34). -/
def kindTagAgree (s : State) : Bool := (s.kind == .none) == (s.tag == .none)

/-- Every cursor is in the range R36 gives it: `length` and `step_size` at most Q, (4) `step ≤ Q`,
(3) `top_idx < N`, (5) `bottom_idx < N`. They hold with no engine too, CANCEL and reset keeping them. -/
def cursorsInRange (s : State) : Bool :=
  decide (s.length ≤ s.cfg.q) && decide (s.stepSize ≤ s.cfg.q) && decide (s.step ≤ s.cfg.q) &&
    decide (s.topIdx < s.cfg.n) && decide (s.bottomIdx < s.cfg.n)

/-- length · step_size = Q, with both powers of two (R36 (2)). -/
def stageShape (s : State) : Bool :=
  s.length * s.stepSize == s.cfg.q && isPow2 s.length && isPow2 s.stepSize

/-- `top_idx` less the base of its block of 4·length entries: the butterfly number k of R251 and R281. -/
def blockPos (s : State) : Nat := s.topIdx % (4 * s.length)

/-- The engine stands before butterfly k = 0 of a block. -/
def atBlockStart (s : State) : Bool := blockPos s == 0

/-- The engine stands before a butterfly 0 < k < L, the twiddle index being k·S (R251). -/
def inFirstHalf (s : State) : Bool :=
  decide (0 < blockPos s) && decide (blockPos s < s.length) && s.step == blockPos s * s.stepSize

/-- The engine stands before butterfly k = L. -/
def atMiddle (s : State) : Bool := blockPos s == s.length

/-- The engine stands before a butterfly L < k < 2L, the twiddle index being (k − L)·S (R251). -/
def inSecondHalf (s : State) : Bool :=
  decide (s.length < blockPos s) && decide (blockPos s < 2 * s.length) &&
    s.step == (blockPos s - s.length) * s.stepSize

/-- The engine has done the block's 2L butterflies. -/
def atBlockEnd (s : State) : Bool := blockPos s == 2 * s.length

/-- The engine stands before an adjacent pair, in a pass made with length 1. -/
def atPair (s : State) : Bool := s.length == 1 && s.topIdx % 2 == 0

/-- The engine stands before an index the Reorder pass visits, with length 1. -/
def atReorder (s : State) : Bool := s.length == 1 && decide (s.topIdx < s.cfg.n - 1)

/-- Where the cursors stand in each engine state (R251, R258, R281, R288). -/
def cursorsFit (s : State) : Bool :=
  match s.kind, s.tag with
  | .none, _ => true
  | .fwd, .step1 => atBlockStart s
  | .fwd, .step2 => inFirstHalf s
  | .fwd, .step3 => atMiddle s
  | .fwd, .step4 => inSecondHalf s
  | .fwd, .step5 => atBlockEnd s
  | .fwd, .step6 => atPair s
  | .fwd, .reorder => atReorder s
  | .fwd, .done => s.length == 1 && s.topIdx == s.cfg.n - 1
  | .inv, .reorder => atReorder s
  | .inv, .step1 => atPair s
  | .inv, .step2 => atBlockStart s
  | .inv, .step3 => inFirstHalf s
  | .inv, .step4 => atMiddle s
  | .inv, .step5 => inSecondHalf s
  | .inv, .step6 => atBlockEnd s
  | .inv, .done => s.stepSize == 1 && s.topIdx == s.cfg.n / 2
  | .fwd, .none => false
  | .inv, .none => false

/-- While an engine exists its cursors have the stage's shape and fit its tag. -/
def engineFits (s : State) : Bool := s.kind == .none || (stageShape s && cursorsFit s)

/-- TW holds what the builder put there (R192, R194). -/
def twBuilt (s : State) : Bool := s.tw == buildTw s.cfg s.atan s.gain

/-- The invariant of an RBU instance: its parameters are legal (R343), kind and tag agree (R34), the cursors
are in range and fit the engine's state (R36), the buffer is canonical and holds T values (R37), TW is the
built table (R194). -/
abbrev Inv (s : State) : Prop :=
  s.cfg.legal = true ∧ kindTagAgree s = true ∧ cursorsInRange s = true ∧ engineFits s = true ∧
    Memory.wf s.cfg s.buf = true ∧ twBuilt s = true

/-- The control part of Inv: all of it but the contents of the buffer and of TW. -/
abbrev ControlInv (s : State) : Prop :=
  s.cfg.legal = true ∧ kindTagAgree s = true ∧ cursorsInRange s = true ∧ engineFits s = true

/-- Every one of the N buffer entries has been written since reset (70_reset_and_hazards.md R372). -/
abbrev AllWritten (s : State) : Prop := ∀ i, i < s.cfg.n → written s i = true

/-- How far the magnitude of the fields `m` lies from n · 2^-k units of the least subnormal, scaled by 2^k. The
fields of ∞ count as the power of two just above the largest finite value, as IEEE 754 rounding has it. -/
def offBy (p : Prec) (k n m : Nat) : Nat :=
  (scaledMag p m * 2 ^ k - n) + (n - scaledMag p m * 2 ^ k)

/-- The fields `m` are those of the format's value nearest to n · 2^-k units, the even one at a tie (R221). -/
abbrev NearestEven (p : Prec) (k n m : Nat) : Prop :=
  m ≤ infMag p ∧ ∀ m', m' ≤ infMag p →
    offBy p k n m < offBy p k n m' ∨ (offBy p k n m = offBy p k n m' ∧ (m' = m ∨ m % 2 = 0))

/-- The transitions left in the engine's block: its butterflies from k on, and the bookkeeping one. -/
def blockRest (s : State) : Nat := 2 * s.length - blockPos s + 1

/-- The transitions left in the engine's stage, whose S blocks take 2L + 1 each. -/
def stageRest (s : State) : Nat :=
  blockRest s + (s.stepSize - 1 - s.topIdx / (4 * s.length)) * (2 * s.length + 1)

/-- The transitions of the forward stages after this one: step_size 2S, 4S, …, Q. -/
def laterFwd (s : State) : Nat := Nat.log2 s.length * (s.cfg.n / 2) + (s.cfg.n / 2 - 2 * s.stepSize)

/-- The transitions of the inverse stages after this one: step_size S/2, …, 1. -/
def laterInv (s : State) : Nat := Nat.log2 s.stepSize * (s.cfg.n / 2) + (s.stepSize - 1)

/-- The transitions of all decimation stages: (LOG2N − 1)·N/2 butterflies and N/2 − 1 bookkeeping ones (R260,
R290). -/
def allStages (c : Config) : Nat := (c.log2n - 1) * (c.n / 2) + (c.n / 2 - 1)

/-- The number of transitions an engine takes from here to DONE, from its tag and cursors alone (R317). -/
def remaining (s : State) : Nat :=
  match s.kind, s.tag with
  | .fwd, .step1 | .fwd, .step2 | .fwd, .step3 | .fwd, .step4 | .fwd, .step5 =>
    stageRest s + laterFwd s + s.cfg.n / 2 + (s.cfg.n - 1)
  | .fwd, .step6 => (s.cfg.n - s.topIdx) / 2 + (s.cfg.n - 1)
  | .fwd, .reorder => s.cfg.n - 1 - s.topIdx
  | .inv, .reorder => s.cfg.n - 1 - s.topIdx + s.cfg.n / 2 + allStages s.cfg
  | .inv, .step1 => (s.cfg.n - s.topIdx) / 2 + allStages s.cfg
  | .inv, .step2 | .inv, .step3 | .inv, .step4 | .inv, .step5 | .inv, .step6 => stageRest s + laterInv s
  | .fwd, .done | .inv, .done | .fwd, .none | .inv, .none | .none, _ => 0

/-- The two buffer entries the engine's next transition may write, none in a bookkeeping or terminal state
(R252 to R259, R282 to R289). -/
def touched (s : State) : List Nat :=
  match s.kind, s.tag with
  | .fwd, .step1 | .fwd, .step2 | .fwd, .step3 | .fwd, .step4 => [s.topIdx, s.topIdx + 2 * s.length]
  | .inv, .step2 | .inv, .step3 | .inv, .step4 | .inv, .step5 => [s.topIdx, s.topIdx + 2 * s.length]
  | .fwd, .step6 | .inv, .step1 => [s.topIdx, s.topIdx + 1]
  | .fwd, .reorder | .inv, .reorder =>
    if s.topIdx < rev s.cfg s.topIdx then [s.topIdx, rev s.cfg s.topIdx] else []
  | .fwd, .step5 | .inv, .step6 | .fwd, .done | .inv, .done | .fwd, .none | .inv, .none | .none, _ => []

end Sys2Proof.Machine
end

