-- ==== Sys2Proof/Certificates/Slice0/Obligations.lean ====
section
/-! DEFINITION. The statements for the provers. Each docstring names the rules of spec/ it formalises; where a
clause rests on a choice of the model it names the assumption log's entry. -/

open Sys2Proof Sys2Proof.Machine

/-! ### Reset and elaboration -/

/-- R370, R371: the reset event, which the model takes from its port (assumption 3), leaves no engine, the cursors and `err` at 0 and every buffer entry
unwritten; the ROMs and the parameters stay. That what waits behind the reset stays is the model's choice
(assumption 16). -/
def Obligations.ResetEventClearsState : Prop :=
  ∀ (s : State) (rest : List PortEvent), s.port = .reset :: rest →
    ∃ t, step s = .next t ∧ t.kind = .none ∧ t.tag = .none ∧ t.length = 0 ∧ t.step = 0 ∧ t.stepSize = 0 ∧
      t.topIdx = 0 ∧ t.bottomIdx = 0 ∧ t.err = 0 ∧ (∀ i, written t i = false) ∧ t.tw = s.tw ∧
      t.atan = s.atan ∧ t.gain = s.gain ∧ t.cfg = s.cfg ∧ t.port = rest

/-- R343, R30: a machine is constructed exactly for LOG2N in 2..24 and ROM parameters of 64 entries; it is the
machine of those parameters, at the reset values of R30. -/
def Obligations.ElaborationChecksParameters : Prop :=
  ∀ (l : Nat) (p : Prec) (atan gain : List Word),
    ((elaborate l p atan gain).isSome = true ↔
      2 ≤ l ∧ l ≤ 24 ∧ atan.length = 64 ∧ gain.length = 64) ∧
    ∀ s, elaborate l p atan gain = some s →
      s.cfg = ⟨l, p⟩ ∧ s.atan.toList = atan ∧ s.gain.toList = gain ∧ s.tw.length = 2 ^ l / 4 ∧
        s.kind = .none ∧ s.tag = .none ∧ s.length = 0 ∧ s.step = 0 ∧ s.stepSize = 0 ∧ s.topIdx = 0 ∧
        s.bottomIdx = 0 ∧ s.err = 0 ∧ ∀ i, written s i = false

/-! ### Host and buffer commands -/

/-- R41, R33, R34: the fields of STATUS and the codes they hold. -/
def Obligations.StatusWordFields : Prop :=
  (kindBits .none = 0 ∧ kindBits .fwd = 1 ∧ kindBits .inv = 2) ∧
  (tagBits .none = 0 ∧ tagBits .step1 = 1 ∧ tagBits .step2 = 2 ∧ tagBits .step3 = 3 ∧ tagBits .step4 = 4 ∧
    tagBits .step5 = 5 ∧ tagBits .step6 = 6 ∧ tagBits .reorder = 7 ∧ tagBits .done = 8) ∧
  ∀ s : State,
    (status s).extractLsb' 0 2 = kindBits s.kind ∧
    (status s).extractLsb' 2 4 = tagBits s.tag ∧
    ((status s).getLsbD 6 = true ↔ s.kind ≠ .none ∧ s.tag ≠ .done) ∧
    ((status s).getLsbD 7 = true ↔ s.tag = .done) ∧
    (status s).extractLsb' 8 5 = s.err ∧
    (status s).extractLsb' 13 3 = 0 ∧
    (status s).extractLsb' 16 5 = BitVec.ofNat 5 s.cfg.log2n ∧
    ((status s).getLsbD 21 = true ↔ s.cfg.prec = .b64) ∧
    (status s).extractLsb' 22 10 = 0

/-- R130, R131, R132: NOP, STAT_RD and ERR_CLR, their encodings and their whole effect. -/
def Obligations.NopStatusAndErrorClear : Prop :=
  (∀ t : Txn, opcOf t.cmd = 0x00 → decode t = .ok .nop) ∧
  (∀ t : Txn, opcOf t.cmd = 0x01 → decode t = .ok .statRd) ∧
  (∀ t : Txn, opcOf t.cmd = 0x02 → decode t = .ok .errClr) ∧
  ∀ s : State,
    exec .nop s = .next { s with resp := some ⟨.ok, 0, 0⟩ } ∧
    exec .statRd s = .next { s with resp := some ⟨.ok, (status s).setWidth 64, 0⟩ } ∧
    exec .errClr s = .next { s with err := 0, resp := some ⟨.ok, 0, 0⟩ }

/-- R102, R103: how operand words are read and result words made. -/
def Obligations.OperandAndResultWords : Prop :=
  ∀ (w : Word) (n : Nat),
    opT .b64 w = w ∧ (opT .b32 w).toNat = w.toNat % 2 ^ 32 ∧ op64 w = w ∧
    resT .b64 w = w ∧ (resT .b32 w).toNat = w.toNat % 2 ^ 32 ∧ res64 w = w ∧
    (n < 2 ^ 64 → (resNat n).toNat = n)

/-- R133: BUF_WR. OWNERSHIP comes before INDEX_RANGE; a write stores the operand's T bits in entry `i` and
leaves every other entry as it was. -/
def Obligations.BufferWriteRule : Prop :=
  (∀ t : Txn, opcOf t.cmd = 0x08 → decode t = .ok (.bufWr (idxOf t.cmd) t.opa t.opb)) ∧
  ∀ (s : State) (i : Nat) (a b : Word),
    (active s = true → exec (.bufWr i a b) s =
      .next { s with err := s.err ||| 0b00100, resp := some ⟨.ownership, 0, 0⟩ }) ∧
    (active s = false → s.cfg.n ≤ i → exec (.bufWr i a b) s =
      .next { s with err := s.err ||| 0b00010, resp := some ⟨.indexRange, 0, 0⟩ }) ∧
    (active s = false → i < s.cfg.n →
      ∃ m, exec (.bufWr i a b) s = .next { s with buf := m, resp := some ⟨.ok, 0, 0⟩ } ∧
        bufGet m i = some ⟨opT s.cfg.prec a, opT s.cfg.prec b⟩ ∧
        ∀ j, j ≠ i → bufGet m j = bufGet s.buf j)

/-- R134, R353: BUF_RD, with the model fault UNWRITTEN_READ for an entry nothing has written. -/
def Obligations.BufferReadRule : Prop :=
  (∀ t : Txn, opcOf t.cmd = 0x09 → decode t = .ok (.bufRd (idxOf t.cmd))) ∧
  ∀ (s : State) (i : Nat),
    (active s = true → exec (.bufRd i) s =
      .next { s with err := s.err ||| 0b00100, resp := some ⟨.ownership, 0, 0⟩ }) ∧
    (active s = false → s.cfg.n ≤ i → exec (.bufRd i) s =
      .next { s with err := s.err ||| 0b00010, resp := some ⟨.indexRange, 0, 0⟩ }) ∧
    (active s = false → i < s.cfg.n → written s i = false → exec (.bufRd i) s = .fault (.unwrittenRead i)) ∧
    (∀ z, active s = false → i < s.cfg.n → bufGet s.buf i = some z → exec (.bufRd i) s =
      .next { s with resp := some ⟨.ok, resT s.cfg.prec z.re, resT s.cfg.prec z.im⟩ })

/-- R375: a BUF_RD right after a BUF_WR of the same index returns the written T bits. -/
def Obligations.ReadAfterWriteReturnsIt : Prop :=
  ∀ (s t : State) (i : Nat) (a b : Word), active s = false → i < s.cfg.n → exec (.bufWr i a b) s = .next t →
    exec (.bufRd i) t =
      .next { t with resp := some ⟨.ok, opT s.cfg.prec a, opT s.cfg.prec b⟩ }

/-! ### Utility and table commands -/

/-- R162, R165: SIN answers for the angles strictly between −FRAC_PI_2 and FRAC_PI_2. In bits they are those whose
exponent and fraction fields are below FRAC_PI_2's, so both zeros pass and every NaN, ±∞ and ±FRAC_PI_2 fail. -/
def Obligations.SinCommandRule : Prop :=
  (∀ t : Txn, opcOf t.cmd = 0x20 → decode t = .ok (.sin t.opa)) ∧
  ∀ (s : State) (a : Word),
    (gt64 a 0xBFF921FB54442D18 = true ∧ lt64 a 0x3FF921FB54442D18 = true ↔
      a.toNat % 2 ^ 63 < 0x3FF921FB54442D18) ∧
    (a.toNat % 2 ^ 63 < 0x3FF921FB54442D18 → exec (.sin a) s =
      .next { s with resp := some ⟨.ok, cordicSin s.atan s.gain a, 0⟩ }) ∧
    (0x3FF921FB54442D18 ≤ a.toNat % 2 ^ 63 → exec (.sin a) s =
      .next { s with err := s.err ||| 0b10000, resp := some ⟨.domainError, 0, 0⟩ })

/-- R163, R164: cordic_sin is the 63-iteration recurrence, whatever the ROMs hold; ATAN[63] and the GAIN entries
other than 62 take no part. -/
def Obligations.CordicRecurrence : Prop :=
  ∀ (atan gain : Vector Word 64) (a : Word) (theta x y p2i : Nat → Word),
    theta 0 = 0 → x 0 = 0x3FF0000000000000 → y 0 = 0 → p2i 0 = 0x3FF0000000000000 →
    (∀ (i : Nat) (h : i < 63),
      p2i (i + 1) = mul64 (p2i i) 0x3FE0000000000000 ∧
      (lt64 (theta i) a = true →
        theta (i + 1) = add64 (theta i) atan[i] ∧ x (i + 1) = sub64 (x i) (mul64 (y i) (p2i i)) ∧
          y (i + 1) = add64 (y i) (mul64 (x i) (p2i i))) ∧
      (lt64 (theta i) a = false →
        theta (i + 1) = sub64 (theta i) atan[i] ∧ x (i + 1) = add64 (x i) (mul64 (y i) (p2i i)) ∧
          y (i + 1) = sub64 (y i) (mul64 (x i) (p2i i)))) →
    cordicSin atan gain a = mul64 (y 63) gain[62]

/-- R166, R167: ATAN_RD and GAIN_RD. -/
def Obligations.CordicRomReads : Prop :=
  (∀ t : Txn, opcOf t.cmd = 0x23 → decode t = .ok (.atanRd (idxOf t.cmd))) ∧
  (∀ t : Txn, opcOf t.cmd = 0x24 → decode t = .ok (.gainRd (idxOf t.cmd))) ∧
  ∀ (s : State) (i : Nat),
    (∀ h : i < 64, exec (.atanRd i) s = .next { s with resp := some ⟨.ok, s.atan[i], 0⟩ }) ∧
    (∀ h : i < 64, exec (.gainRd i) s = .next { s with resp := some ⟨.ok, s.gain[i], 0⟩ }) ∧
    (64 ≤ i → exec (.atanRd i) s =
      .next { s with err := s.err ||| 0b00010, resp := some ⟨.indexRange, 0, 0⟩ }) ∧
    (64 ≤ i → exec (.gainRd i) s =
      .next { s with err := s.err ||| 0b00010, resp := some ⟨.indexRange, 0, 0⟩ })

/-- R190, R191, R192, R196: TW_RD, and the contents of the built table it reads. -/
def Obligations.TwiddleReadRule : Prop :=
  (∀ t : Txn, opcOf t.cmd = 0x22 → decode t = .ok (.twRd (idxOf t.cmd))) ∧
  ∀ s : State, twBuilt s = true →
    s.tw.length = s.cfg.q ∧
    (∀ i, s.cfg.q ≤ i → exec (.twRd i) s =
      .next { s with err := s.err ||| 0b00010, resp := some ⟨.indexRange, 0, 0⟩ }) ∧
    (0 < s.cfg.q → exec (.twRd 0) s = .next { s with resp := some ⟨.ok, 0, 0⟩ }) ∧
    (∀ i, 1 ≤ i → i < s.cfg.q → exec (.twRd i) s =
      .next { s with resp := some ⟨.ok,
        resT s.cfg.prec (toT s.cfg.prec (cordicSin s.atan s.gain
          (mul64 (mul64 0x401921FB54442D18 (natTo64 i)) (powNeg .b64 s.cfg.log2n)))), 0⟩ })

/-- R193: the twiddle build never leaves the evaluator's domain. -/
def Obligations.TwiddleAnglesInDomain : Prop :=
  ∀ c : Config, c.legal = true → ∀ i, 1 ≤ i → i < c.q → inDomain (twAngle c.log2n i) = true

/-- R10, R191: the exact constants. An index is exact in binary64, and 2^-LOG2N is exact in both formats. -/
def Obligations.ExactConstants : Prop :=
  (∀ i, i < 2 ^ 53 → isFin .b64 (natTo64 i) = true ∧ valueOf .b64 (natTo64 i) = (i * 2 ^ 1074 : Nat)) ∧
  ∀ c : Config, c.legal = true →
    isFin c.prec (invN c) = true ∧ valueOf c.prec (invN c) * (c.n : Int) = (2 ^ unitExp c.prec : Nat) ∧
    isFin .b64 (powNeg .b64 c.log2n) = true ∧
    valueOf .b64 (powNeg .b64 c.log2n) * (c.n : Int) = (2 ^ 1074 : Nat)

/-- R212: REVBITS reverses IDX[LOG2N−1:0] and never fails. -/
def Obligations.ReverseBitsRule : Prop :=
  (∀ t : Txn, opcOf t.cmd = 0x21 → decode t = .ok (.revbits (idxOf t.cmd))) ∧
  ∀ (s : State) (x : Nat), exec (.revbits x) s =
    .next { s with resp := some ⟨.ok, BitVec.ofNat 64 (rev s.cfg (x % 2 ^ s.cfg.log2n)), 0⟩ }

/-- R210: bit (LOG2N − 1 − k) of rev(x) is bit k of x, and rev(x) < N. -/
def Obligations.ReversalMovesEachBit : Prop :=
  ∀ (c : Config) (x : Nat), rev c x < c.n ∧
    ∀ k, k < c.log2n → (rev c x).testBit (c.log2n - 1 - k) = x.testBit k

/-- R211: rev is an involution on [0, N), with rev(0) = 0 and rev(N − 1) = N − 1. -/
def Obligations.ReversalIsInvolution : Prop :=
  ∀ c : Config, (∀ x, x < c.n → rev c (rev c x) = x) ∧ rev c 0 = 0 ∧ rev c (c.n - 1) = c.n - 1

/-! ### Arithmetic -/

/-- R221: add, subtract, multiply and toT compute the exact result and round it once, to nearest, ties to even,
subnormals kept, overflow to ∞ (`NearestEven`); with B64 toT is the identity. A zero sum is −0 only when both
addends are: R221 leaves that sign to IEEE 754 (assumption 19). negT flips the sign bit and no other, of every
word. -/
def Obligations.ArithmeticIsCorrectlyRounded : Prop :=
  (∀ (p : Prec) (a b : Word), isFin p a = true → isFin p b = true →
    (NearestEven p 0 (valueOf p a + valueOf p b).natAbs (magOf p (addT p a b)) ∧
      signOf p (addT p a b) =
        if valueOf p a + valueOf p b = 0 then signOf p a && signOf p b
        else decide (valueOf p a + valueOf p b < 0)) ∧
    (NearestEven p 0 (valueOf p a - valueOf p b).natAbs (magOf p (subT p a b)) ∧
      signOf p (subT p a b) =
        if valueOf p a - valueOf p b = 0 then signOf p a && !signOf p b
        else decide (valueOf p a - valueOf p b < 0)) ∧
    (NearestEven p (unitExp p) (valueOf p a * valueOf p b).natAbs (magOf p (mulT p a b)) ∧
      signOf p (mulT p a b) = (signOf p a != signOf p b))) ∧
  (∀ v : Word, isFin .b64 v = true →
    NearestEven .b32 925 (valueOf .b64 v).natAbs (magOf .b32 (toT .b32 v)) ∧
      signOf .b32 (toT .b32 v) = signOf .b64 v) ∧
  (∀ v : Word, toT .b64 v = v) ∧
  ∀ (p : Prec) (a : Word) (k : Nat), k < 64 →
    (negT p a).getLsbD k = (a.getLsbD k != decide (k = signPos p))

/-- R222: an operation's result is a NaN exactly when an operand is one, or for ∞ − ∞ and 0 · ∞; it is then a
NaN whatever NAN_POLICY draws (assumption 1). -/
def Obligations.NanResultsExactlyWhenInvalid : Prop :=
  (∀ (p : Prec) (a b : Word),
    isNaN p (addT p a b) =
      (isNaN p a || isNaN p b || (isInf p a && isInf p b && (signOf p a != signOf p b))) ∧
    isNaN p (subT p a b) =
      (isNaN p a || isNaN p b || (isInf p a && isInf p b && (signOf p a == signOf p b))) ∧
    isNaN p (mulT p a b) =
      (isNaN p a || isNaN p b || (isInf p a && magOf p b == 0) || (isInf p b && magOf p a == 0))) ∧
  ∀ v : Word, isNaN .b32 (toT .b32 v) = isNaN .b64 v

/-- R221: an infinite operand of a valid sum, difference or product, on either side, gives an infinity, and toT
keeps one; the signs are those IEEE 754 gives (assumption 19). -/
def Obligations.InfiniteOperands : Prop :=
  (∀ (p : Prec) (a b : Word), isInf p a = true → isNaN p b = false →
    ((isInf p b = true → signOf p a = signOf p b) →
      isInf p (addT p a b) = true ∧ signOf p (addT p a b) = signOf p a ∧
      isInf p (addT p b a) = true ∧ signOf p (addT p b a) = signOf p a) ∧
    ((isInf p b = true → signOf p a ≠ signOf p b) →
      isInf p (subT p a b) = true ∧ signOf p (subT p a b) = signOf p a ∧
      isInf p (subT p b a) = true ∧ signOf p (subT p b a) = !signOf p a) ∧
    (magOf p b ≠ 0 →
      isInf p (mulT p a b) = true ∧ signOf p (mulT p a b) = (signOf p a != signOf p b) ∧
      isInf p (mulT p b a) = true ∧ signOf p (mulT p b a) = (signOf p a != signOf p b))) ∧
  ∀ v : Word, isInf .b64 v = true →
    isInf .b32 (toT .b32 v) = true ∧ signOf .b32 (toT .b32 v) = signOf .b64 v

/-- R221: lt64 and gt64 are the strict orders of −∞, the finite values and +∞, false when an operand is a NaN. -/
def Obligations.ComparisonsOrderValues : Prop :=
  ∀ a b : Word,
    (isFin .b64 a = true → isFin .b64 b = true →
      (lt64 a b = true ↔ valueOf .b64 a < valueOf .b64 b) ∧
      (gt64 a b = true ↔ valueOf .b64 b < valueOf .b64 a)) ∧
    (isInf .b64 a = true → isNaN .b64 b = false →
      (lt64 a b = true ↔ signOf .b64 a = true ∧ ¬(isInf .b64 b = true ∧ signOf .b64 b = true)) ∧
      (gt64 a b = true ↔ signOf .b64 a = false ∧ ¬(isInf .b64 b = true ∧ signOf .b64 b = false)) ∧
      lt64 b a = gt64 a b ∧ gt64 b a = lt64 a b) ∧
    (isNaN .b64 a = true ∨ isNaN .b64 b = true → lt64 a b = false ∧ gt64 a b = false)

/-! ### Engine commands -/

/-- R250, R280: FWD_NEW and INV_NEW. -/
def Obligations.NewEngineRules : Prop :=
  (∀ t : Txn, opcOf t.cmd = 0x10 → decode t = .ok .fwdNew) ∧
  (∀ t : Txn, opcOf t.cmd = 0x11 → decode t = .ok .invNew) ∧
  ∀ s : State,
    exec .fwdNew s = .next { s with
      kind := .fwd, tag := .step1, length := 2 ^ s.cfg.log2n / 4, stepSize := 1, step := 0, topIdx := 0
      bottomIdx := 0, resp := some ⟨.ok, 0, 0⟩ } ∧
    exec .invNew s = .next { s with
      kind := .inv, tag := .reorder, length := 1, stepSize := 2 ^ s.cfg.log2n / 4, step := 0, topIdx := 0
      bottomIdx := 0, resp := some ⟨.ok, 0, 0⟩ }

/-- R310, R311: STEP and RUN with no engine end with NO_ENGINE and have no other effect; their encodings. -/
def Obligations.StepAndRunWithoutEngine : Prop :=
  (∀ t : Txn, opcOf t.cmd = 0x12 → decode t = .ok .step) ∧
  (∀ t : Txn, opcOf t.cmd = 0x13 → decode t = .ok .run) ∧
  ∀ s : State, s.kind = .none →
    exec .step s = .next { s with err := s.err ||| 0b01000, resp := some ⟨.noEngine, 0, 0⟩ } ∧
    exec .run s = .next { s with err := s.err ||| 0b01000, resp := some ⟨.noEngine, 0, 0⟩ }

/-- R312, R313: IS_DONE and CANCEL. -/
def Obligations.IsDoneAndCancelRules : Prop :=
  (∀ t : Txn, opcOf t.cmd = 0x14 → decode t = .ok .isDone) ∧
  (∀ t : Txn, opcOf t.cmd = 0x15 → decode t = .ok .cancel) ∧
  ∀ s : State,
    (s.kind = .none → exec .isDone s =
      .next { s with err := s.err ||| 0b01000, resp := some ⟨.noEngine, 0, 0⟩ }) ∧
    (s.kind ≠ .none → s.tag = .done → exec .isDone s = .next { s with resp := some ⟨.ok, 1, 0⟩ }) ∧
    (s.kind ≠ .none → s.tag ≠ .done → exec .isDone s = .next { s with resp := some ⟨.ok, 0, 0⟩ }) ∧
    exec .cancel s = .next { s with kind := .none, tag := .none, resp := some ⟨.ok, 0, 0⟩ }

/-- R314: CUR_RD. -/
def Obligations.CursorReadRule : Prop :=
  (∀ t : Txn, opcOf t.cmd = 0x16 → decode t = .ok (.curRd (idxOf t.cmd))) ∧
  ∀ s : State,
    exec (.curRd 0) s = .next { s with resp := some ⟨.ok, BitVec.ofNat 64 s.length, 0⟩ } ∧
    exec (.curRd 1) s = .next { s with resp := some ⟨.ok, BitVec.ofNat 64 s.step, 0⟩ } ∧
    exec (.curRd 2) s = .next { s with resp := some ⟨.ok, BitVec.ofNat 64 s.stepSize, 0⟩ } ∧
    exec (.curRd 3) s = .next { s with resp := some ⟨.ok, BitVec.ofNat 64 s.topIdx, 0⟩ } ∧
    exec (.curRd 4) s = .next { s with resp := some ⟨.ok, BitVec.ofNat 64 s.bottomIdx, 0⟩ } ∧
    ∀ sel, 5 ≤ sel → exec (.curRd sel) s =
      .next { s with err := s.err ||| 0b00010, resp := some ⟨.indexRange, 0, 0⟩ }

/-! ### Forward transitions -/

/-- R252, R254 (with R226, R228): forward STEP1 and STEP3. -/
def Obligations.ForwardPlainButterflies : Prop :=
  ∀ (s : State) (x y : Sample), s.kind = .fwd → s.topIdx + 2 * s.length < s.cfg.n →
    bufGet s.buf s.topIdx = some x → bufGet s.buf (s.topIdx + 2 * s.length) = some y →
    let p := s.cfg.prec
    let sum : Sample := ⟨addT p x.re y.re, addT p x.im y.im⟩
    let d : Sample := ⟨subT p x.re y.re, subT p x.im y.im⟩
    (s.tag = .step1 → exec .step s = .next { s with
      buf := bufSet (bufSet s.buf s.topIdx sum) (s.topIdx + 2 * s.length) d
      bottomIdx := s.topIdx + 2 * s.length
      topIdx := s.topIdx + 1
      step := if 1 < s.length then s.stepSize else s.step
      tag := if 1 < s.length then .step2 else .step3
      resp := some ⟨.ok, 0, 0⟩ }) ∧
    (s.tag = .step3 → exec .step s = .next { s with
      buf := bufSet (bufSet s.buf s.topIdx sum) (s.topIdx + 2 * s.length) ⟨d.im, negT p d.re⟩
      bottomIdx := s.topIdx + 2 * s.length
      topIdx := s.topIdx + 1
      step := if 1 < s.length then s.stepSize else s.step
      tag := if 1 < s.length then .step4 else .step5
      resp := some ⟨.ok, 0, 0⟩ })

/-- R253, R255 (with R195, R225, R227, R229): forward STEP2 and STEP4. -/
def Obligations.ForwardTwiddledButterflies : Prop :=
  ∀ (s : State) (x y : Sample) (c n : Word), s.kind = .fwd → s.topIdx + 2 * s.length < s.cfg.n →
    bufGet s.buf s.topIdx = some x → bufGet s.buf (s.topIdx + 2 * s.length) = some y →
    s.tw[s.cfg.q - s.step]? = some c → s.tw[s.step]? = some n →
    let p := s.cfg.prec
    let sum : Sample := ⟨addT p x.re y.re, addT p x.im y.im⟩
    let d : Sample := ⟨subT p x.re y.re, subT p x.im y.im⟩
    let r : Sample :=
      ⟨addT p (mulT p d.re c) (mulT p d.im n), subT p (mulT p d.im c) (mulT p d.re n)⟩
    (s.tag = .step2 → exec .step s = .next { s with
      buf := bufSet (bufSet s.buf s.topIdx sum) (s.topIdx + 2 * s.length) r
      bottomIdx := s.topIdx + 2 * s.length
      topIdx := s.topIdx + 1
      step := s.step + s.stepSize
      tag := if s.step + s.stepSize = s.cfg.q then .step3 else .step2
      resp := some ⟨.ok, 0, 0⟩ }) ∧
    (s.tag = .step4 → exec .step s = .next { s with
      buf := bufSet (bufSet s.buf s.topIdx sum) (s.topIdx + 2 * s.length) ⟨r.im, negT p r.re⟩
      bottomIdx := s.topIdx + 2 * s.length
      topIdx := s.topIdx + 1
      step := s.step + s.stepSize
      tag := if s.step + s.stepSize = s.cfg.q then .step5 else .step4
      resp := some ⟨.ok, 0, 0⟩ })

/-- R256: forward STEP5, to the next block, the next stage or STEP6. -/
def Obligations.ForwardBookkeeping : Prop :=
  ∀ s : State, s.kind = .fwd → s.tag = .step5 →
    (s.topIdx + 2 * s.length < s.cfg.n → exec .step s = .next { s with
      topIdx := s.topIdx + 2 * s.length, tag := .step1, resp := some ⟨.ok, 0, 0⟩ }) ∧
    (s.cfg.n ≤ s.topIdx + 2 * s.length → 1 < s.length → exec .step s = .next { s with
      length := s.length / 2, stepSize := 2 * s.stepSize, topIdx := 0, tag := .step1
      resp := some ⟨.ok, 0, 0⟩ }) ∧
    (s.cfg.n ≤ s.topIdx + 2 * s.length → s.length ≤ 1 → exec .step s = .next { s with
      topIdx := 0, tag := .step6, resp := some ⟨.ok, 0, 0⟩ })

/-- R257 (with R226): forward STEP6. -/
def Obligations.ForwardFinalPass : Prop :=
  ∀ (s : State) (x y : Sample), s.kind = .fwd → s.tag = .step6 → s.topIdx + 1 < s.cfg.n →
    bufGet s.buf s.topIdx = some x → bufGet s.buf (s.topIdx + 1) = some y →
    exec .step s = .next { s with
      buf := bufSet (bufSet s.buf s.topIdx
          ⟨addT s.cfg.prec x.re y.re, addT s.cfg.prec x.im y.im⟩) (s.topIdx + 1)
        ⟨subT s.cfg.prec x.re y.re, subT s.cfg.prec x.im y.im⟩
      bottomIdx := s.topIdx + 1
      topIdx := if s.topIdx + 2 = s.cfg.n then 0 else s.topIdx + 2
      tag := if s.topIdx + 2 = s.cfg.n then .reorder else .step6
      resp := some ⟨.ok, 0, 0⟩ }

/-- R258, R282: the Reorder step of both engines. A pair is swapped at its smaller index; otherwise nothing
moves and nothing is read. -/
def Obligations.ReorderSteps : Prop :=
  ∀ s : State, s.tag = .reorder →
    let t := s.topIdx
    let r := rev s.cfg t
    let moved (m : List (Nat × Sample)) : State :=
      if s.kind = .fwd then
        { s with
          buf := m, bottomIdx := r, topIdx := t + 1
          tag := if t + 1 = s.cfg.n - 1 then .done else .reorder
          resp := some ⟨.ok, 0, 0⟩ }
      else
        { s with
          buf := m, bottomIdx := r, topIdx := if t + 1 = s.cfg.n - 1 then 0 else t + 1
          tag := if t + 1 = s.cfg.n - 1 then .step1 else .reorder
          resp := some ⟨.ok, 0, 0⟩ }
    s.kind ≠ .none →
    (r ≤ t → exec .step s = .next (moved s.buf)) ∧
    (∀ x y, t < r → r < s.cfg.n → bufGet s.buf t = some x → bufGet s.buf r = some y →
      exec .step s = .next (moved (bufSet (bufSet s.buf t y) r x)))

/-! ### Inverse transitions -/

/-- R283 (with R234): inverse STEP1, the pass that scales by 1/N. -/
def Obligations.InverseScaledPass : Prop :=
  ∀ (s : State) (x y : Sample), s.kind = .inv → s.tag = .step1 → s.topIdx + 1 < s.cfg.n →
    bufGet s.buf s.topIdx = some x → bufGet s.buf (s.topIdx + 1) = some y →
    let p := s.cfg.prec
    let k := invN s.cfg
    exec .step s = .next { s with
      buf := bufSet (bufSet s.buf s.topIdx
          ⟨mulT p (addT p x.re y.re) k, mulT p (addT p x.im y.im) k⟩) (s.topIdx + 1)
        ⟨mulT p (subT p x.re y.re) k, mulT p (subT p x.im y.im) k⟩
      bottomIdx := s.topIdx + 1
      topIdx := if s.topIdx + 2 = s.cfg.n then 0 else s.topIdx + 2
      tag := if s.topIdx + 2 = s.cfg.n then .step2 else .step1
      resp := some ⟨.ok, 0, 0⟩ }

/-- R284, R286 (with R230, R232): inverse STEP2 and STEP4. -/
def Obligations.InversePlainButterflies : Prop :=
  ∀ (s : State) (x y : Sample), s.kind = .inv → s.topIdx + 2 * s.length < s.cfg.n →
    bufGet s.buf s.topIdx = some x → bufGet s.buf (s.topIdx + 2 * s.length) = some y →
    let p := s.cfg.prec
    let u : Sample := ⟨negT p y.im, y.re⟩
    (s.tag = .step2 → exec .step s = .next { s with
      buf := bufSet (bufSet s.buf s.topIdx ⟨addT p x.re y.re, addT p x.im y.im⟩)
        (s.topIdx + 2 * s.length) ⟨subT p x.re y.re, subT p x.im y.im⟩
      bottomIdx := s.topIdx + 2 * s.length
      topIdx := s.topIdx + 1
      step := if 1 < s.length then s.stepSize else s.step
      tag := if 1 < s.length then .step3 else .step4
      resp := some ⟨.ok, 0, 0⟩ }) ∧
    (s.tag = .step4 → exec .step s = .next { s with
      buf := bufSet (bufSet s.buf s.topIdx ⟨addT p x.re u.re, addT p x.im u.im⟩)
        (s.topIdx + 2 * s.length) ⟨subT p x.re u.re, subT p x.im u.im⟩
      bottomIdx := s.topIdx + 2 * s.length
      topIdx := s.topIdx + 1
      step := if 1 < s.length then s.stepSize else s.step
      tag := if 1 < s.length then .step5 else .step6
      resp := some ⟨.ok, 0, 0⟩ })

/-- R285, R287 (with R195, R225, R231, R233): inverse STEP3 and STEP5. -/
def Obligations.InverseTwiddledButterflies : Prop :=
  ∀ (s : State) (x y : Sample) (c n : Word), s.kind = .inv → s.topIdx + 2 * s.length < s.cfg.n →
    bufGet s.buf s.topIdx = some x → bufGet s.buf (s.topIdx + 2 * s.length) = some y →
    s.tw[s.cfg.q - s.step]? = some c → s.tw[s.step]? = some n →
    let p := s.cfg.prec
    let r : Sample :=
      ⟨subT p (mulT p y.re c) (mulT p y.im n), addT p (mulT p y.im c) (mulT p y.re n)⟩
    let u : Sample := ⟨negT p r.im, r.re⟩
    (s.tag = .step3 → exec .step s = .next { s with
      buf := bufSet (bufSet s.buf s.topIdx ⟨addT p x.re r.re, addT p x.im r.im⟩)
        (s.topIdx + 2 * s.length) ⟨subT p x.re r.re, subT p x.im r.im⟩
      bottomIdx := s.topIdx + 2 * s.length
      topIdx := s.topIdx + 1
      step := s.step + s.stepSize
      tag := if s.step + s.stepSize = s.cfg.q then .step4 else .step3
      resp := some ⟨.ok, 0, 0⟩ }) ∧
    (s.tag = .step5 → exec .step s = .next { s with
      buf := bufSet (bufSet s.buf s.topIdx ⟨addT p x.re u.re, addT p x.im u.im⟩)
        (s.topIdx + 2 * s.length) ⟨subT p x.re u.re, subT p x.im u.im⟩
      bottomIdx := s.topIdx + 2 * s.length
      topIdx := s.topIdx + 1
      step := s.step + s.stepSize
      tag := if s.step + s.stepSize = s.cfg.q then .step6 else .step5
      resp := some ⟨.ok, 0, 0⟩ })

/-- R288: inverse STEP6, to the next block, the next stage or DONE. -/
def Obligations.InverseBookkeeping : Prop :=
  ∀ s : State, s.kind = .inv → s.tag = .step6 →
    (s.topIdx + 2 * s.length < s.cfg.n → exec .step s = .next { s with
      topIdx := s.topIdx + 2 * s.length, tag := .step2, resp := some ⟨.ok, 0, 0⟩ }) ∧
    (s.cfg.n ≤ s.topIdx + 2 * s.length → 1 < s.stepSize → exec .step s = .next { s with
      length := 2 * s.length, stepSize := s.stepSize / 2, topIdx := 0, tag := .step2
      resp := some ⟨.ok, 0, 0⟩ }) ∧
    (s.cfg.n ≤ s.topIdx + 2 * s.length → s.stepSize ≤ 1 → exec .step s = .next { s with
      tag := .done, resp := some ⟨.ok, 0, 0⟩ })

/-- R259, R289: a STEP or a RUN in DONE succeeds and changes nothing; RUN counts no step. -/
def Obligations.DoneIsNoOp : Prop :=
  ∀ s : State, s.kind ≠ .none → s.tag = .done →
    exec .step s = .next { s with resp := some ⟨.ok, 0, 0⟩ } ∧
    exec .run s = .next { s with resp := some ⟨.ok, 0, 0⟩ }

/-! ### Encoding and the step -/

/-- R101, R104, R108: decoding the encoded transaction of a well-formed instruction gives it back, with every
operand at every value the encoding admits. -/
def Obligations.DecodeOfEncode : Prop :=
  ∀ i : Instr, i.wf = true → decode (encode i) = .ok i

/-- R101, R104, R106: a decoded instruction is well-formed, and its encoding is the transaction with every field the
opcode map does not list as used set to 0. -/
def Obligations.DecodedIsTheTransaction : Prop :=
  ∀ (t : Txn) (i : Instr), decode t = .ok i →
    i.wf = true ∧
    (encode i).cmd.toNat = opcOf t.cmd * 2 ^ 24 +
      (if opcOf t.cmd ∈ [0x08, 0x09, 0x16, 0x21, 0x22, 0x23, 0x24] then idxOf t.cmd else 0) ∧
    (encode i).opa = (if opcOf t.cmd ∈ [0x08, 0x20] then t.opa else 0) ∧
    (encode i).opb = if opcOf t.cmd = 0x08 then t.opb else 0

/-- Words written out from the spec's encodings (R104, R133 and R165's examples) decode to their instructions. -/
def Obligations.DecodeOfWrittenOutWords : Prop :=
  decode ⟨0x00000000, 0, 0⟩ = .ok .nop ∧
  decode ⟨0x08000003, 0x4010000000000000, 0⟩ = .ok (.bufWr 3 0x4010000000000000 0) ∧
  decode ⟨0x10000000, 0, 0⟩ = .ok .fwdNew ∧
  decode ⟨0x16000004, 0, 0⟩ = .ok (.curRd 4) ∧
  decode ⟨0x20FFFFFF, 0x3FE0000000000000, 7⟩ = .ok (.sin 0x3FE0000000000000) ∧
  decode ⟨0x21000001, 0, 0⟩ = .ok (.revbits 1) ∧
  decode ⟨0x24000040, 0, 0⟩ = .ok (.gainRd 64) ∧
  decode ⟨0xFF123456, 0, 0⟩ = .error (.illegalOpc 0xFF)

/-- R105: exactly the 239 opcodes outside the map are illegal; such a command ends with ILLEGAL_CMD and changes
nothing but ERR_ILLEGAL. -/
def Obligations.IllegalOpcodesAnswered : Prop :=
  let legal : List Nat :=
    [0x00, 0x01, 0x02, 0x08, 0x09, 0x10, 0x11, 0x12, 0x13, 0x14, 0x15, 0x16, 0x20, 0x21, 0x22, 0x23, 0x24]
  ((List.range 256).filter fun o => !legal.contains o).length = 239 ∧
  ∀ t : Txn,
    (opcOf t.cmd ∈ legal → ∃ i, decode t = .ok i) ∧
    (opcOf t.cmd ∉ legal → decode t = .error (.illegalOpc (opcOf t.cmd)) ∧
      ∀ s : State, transact t s = .next { s with err := s.err ||| 0b00001, resp := some ⟨.illegalCmd, 0, 0⟩ })

/-- R6, R79: a step takes the oldest transaction at the port and answers it whole with the decoded command's
meaning, or with ILLEGAL_CMD; with nothing at the port the machine is idle (R356). The port and its queue are the model's own
(assumption 3). -/
def Obligations.StepRunsDecodedCommand : Prop :=
  (∀ (s : State) (t : Txn) (rest : List PortEvent),
    s.port = .cmd t :: rest → step s = transact t { s with port := rest }) ∧
  (∀ (s : State) (t : Txn) (rest : List PortEvent) (i : Instr),
    s.port = .cmd t :: rest → decode t = .ok i → step s = exec i { s with port := rest }) ∧
  (∀ s : State, s.port = [] → step s = .next s) ∧
  ∀ (s : State) (t : Txn) (i : Instr), decode t = .ok i → step (s.withTxn t) = exec i s

/-! ### Invariants and completion -/

/-- The invariant holds right after reset, of every legal instance. -/
def Obligations.InvariantHoldsAtReset : Prop :=
  ∀ (c : Config) (atan gain : Vector Word 64), c.legal = true → Inv (State.resetOf c atan gain)

/-- R34, R36, R37, R194: every step keeps the invariant. -/
def Obligations.InvariantKeptByEveryStep : Prop :=
  ∀ s t : State, Inv s → step s = .next t → Inv t

/-- R84: no step changes a ROM or an instance's parameters. -/
def Obligations.RomsAndParametersNeverChange : Prop :=
  ∀ s t : State, step s = .next t → t.tw = s.tw ∧ t.atan = s.atan ∧ t.gain = s.gain ∧ t.cfg = s.cfg

/-- R36 (1), R235, R195, R251: before a butterfly the two indices satisfy t < b < N, and before a twiddled one
both table indices lie in [1, Q). -/
def Obligations.EngineIndicesInRange : Prop :=
  ∀ s : State, ControlInv s →
    (∀ t b, touched s = [t, b] → t < b ∧ b < s.cfg.n) ∧
    ((s.kind = .fwd ∧ (s.tag = .step2 ∨ s.tag = .step4)) ∨ (s.kind = .inv ∧ (s.tag = .step3 ∨ s.tag = .step5)) →
      1 ≤ s.step ∧ s.step < s.cfg.q ∧ 1 ≤ s.cfg.q - s.step ∧ s.cfg.q - s.step < s.cfg.q)

/-- R310: with an engine and every entry written, STEP completes in every engine state, and leaves every entry
written. -/
def Obligations.StepCompletesWhenWritten : Prop :=
  ∀ s : State, Inv s → AllWritten s → s.kind ≠ .none →
    ∃ t, exec .step s = .next t ∧ t.resp = some ⟨.ok, 0, 0⟩ ∧ t.kind = s.kind ∧ AllWritten t

/-- R353, R344: in a state that meets the invariant the only stop is UNWRITTEN_READ of an entry nothing has
written; the three faults the model adds for states no run reaches (assumption 8) are never raised. Of the commands
SIN alone ends with DOMAIN_ERROR, so no engine step does. -/
def Obligations.OnlyUnwrittenReadsStop : Prop :=
  ∀ s : State, Inv s →
    (∀ r, step s ≠ .refused r) ∧
    (∀ f, step s = .fault f → ∃ i, f = .unwrittenRead i ∧ i < s.cfg.n ∧ written s i = false) ∧
    ∀ (i : Instr) (t : State) (r : Response),
      exec i s = .next t → t.resp = some r → r.code = .domainError → ∃ a, i = .sin a

/-- R317, R260, R290: each transition lowers the count of transitions left, a function of tag and cursors alone,
by exactly one, and the count is 0 exactly at DONE. -/
def Obligations.TransitionsCountDown : Prop :=
  ∀ s : State, ControlInv s → s.kind ≠ .none →
    (remaining s = 0 ↔ s.tag = .done) ∧ remaining s ≤ totalSteps s.cfg ∧
    ∀ t, s.tag ≠ .done → exec .step s = .next t → remaining t + 1 = remaining s

/-- R311: with an engine and every entry written, RUN completes, the tag is DONE and RES0 is the number of
transitions there were left. -/
def Obligations.RunCompletesWhenWritten : Prop :=
  ∀ s : State, Inv s → AllWritten s → s.kind ≠ .none →
    ∃ t, exec .run s = .next t ∧ t.kind = s.kind ∧ t.tag = .done ∧ AllWritten t ∧
      t.resp = some ⟨.ok, BitVec.ofNat 64 (remaining s), 0⟩

/-- R260, R290, R311: RUN right after a NEW returns F(LOG2N) = LOG2N·N/2 + 3N/2 − 2, for both engines. -/
def Obligations.RunAfterNewTakesF : Prop :=
  ∀ s : State, Inv s → AllWritten s →
    ∀ i, i = .fwdNew ∨ i = .invNew →
      ∃ u t, exec i s = .next u ∧ exec .run u = .next t ∧ t.tag = .done ∧
        t.resp = some ⟨.ok,
          BitVec.ofNat 64 (s.cfg.log2n * (2 ^ s.cfg.log2n / 2) + 3 * (2 ^ s.cfg.log2n / 2) - 2), 0⟩

/-- R316: RUN is the loop of STEPs. The transitions left are the STEPs the loop issues: before the last of them
the tag is not DONE, after it it is, the state is RUN's but for the response, which holds their number;
and where a STEP of the loop stops, RUN stops the same way. -/
def Obligations.RunIsStepLoop : Prop :=
  ∀ s : State, Inv s → s.kind ≠ .none →
    (∀ j u, j < remaining s → stepTimes j s = .next u → u.tag ≠ .done) ∧
    (∀ t, stepTimes (remaining s) s = .next t → t.tag = .done ∧ exec .run s =
      .next { t with resp := some ⟨.ok, BitVec.ofNat 64 (remaining s), 0⟩ }) ∧
    ∀ f, stepTimes (remaining s) s = .fault f → exec .run s = .fault f

/-- R317: transitions read only the tag and the cursors. Two states that agree there, whatever their buffers and
tables hold, move to states that agree there, by STEP and by RUN, with the same step count. -/
def Obligations.ControlIgnoresBufferValues : Prop :=
  ∀ s u s' u' : State,
    s.cfg = u.cfg → s.kind = u.kind → s.tag = u.tag → s.length = u.length → s.step = u.step →
    s.stepSize = u.stepSize → s.topIdx = u.topIdx → s.bottomIdx = u.bottomIdx →
    ∀ i, i = .step ∨ i = .run → exec i s = .next s' → exec i u = .next u' →
      s'.kind = u'.kind ∧ s'.tag = u'.tag ∧ s'.length = u'.length ∧ s'.step = u'.step ∧
        s'.stepSize = u'.stepSize ∧ s'.topIdx = u'.topIdx ∧ s'.bottomIdx = u'.bottomIdx ∧
        s'.resp = u'.resp

/-! ### Whole-machine rules and frames -/

/-- R341: a command, legal or not, that ends with an error code sets the matching sticky bit, returns RES0 = RES1 = 0
and leaves every other state element unchanged. -/
def Obligations.ErrorsArePrecise : Prop :=
  ∀ (t : Txn) (s u : State) (r : Response), transact t s = .next u → u.resp = some r → r.code ≠ .ok →
    u = { s with err := s.err ||| errBit r.code, resp := some ⟨r.code, 0, 0⟩ }

/-- R340, R40, R342: the six response codes; an error code c sets bit (c − 1) of `err` and no other; a command that ends OK changes no bit,
unless it is ERR_CLR, which clears all five, as reset does. -/
def Obligations.ErrorBitsAreSticky : Prop :=
  (respBits .ok = 0 ∧ respBits .illegalCmd = 1 ∧ respBits .indexRange = 2 ∧ respBits .ownership = 3 ∧
    respBits .noEngine = 4 ∧ respBits .domainError = 5) ∧
  (∀ c k, k < 5 → ((errBit c).getLsbD k = true ↔ (respBits c).toNat = k + 1)) ∧
  (∀ s : State, (applyReset s).err = 0) ∧
  ∀ (t : Txn) (s u : State), transact t s = .next u →
    (opcOf t.cmd = 0x02 → u.err = 0) ∧
    (opcOf t.cmd ≠ 0x02 → ∃ r, u.resp = some r ∧ u.err = s.err ||| errBit r.code ∧
      (r.code = .ok → u.err = s.err))

/-- R373, R75: the commands that only observe change nothing but `err` and the response: no buffer entry, cursor,
kind, tag, ROM or parameter. -/
def Obligations.ObserversTouchNothing : Prop :=
  ∀ (i : Instr) (s t : State),
    (i = .nop ∨ i = .statRd ∨ i = .errClr ∨ i = .isDone ∨ (∃ k, i = .bufRd k) ∨ (∃ k, i = .curRd k) ∨
      (∃ a, i = .sin a) ∨ (∃ x, i = .revbits x) ∨ (∃ k, i = .twRd k) ∨ (∃ k, i = .atanRd k) ∨
      ∃ k, i = .gainRd k) →
    exec i s = .next t → t = { s with err := t.err, resp := t.resp }

/-- R310, R74: what STEP leaves unchanged: the engine's kind, `err`, the ROMs, the parameters, and every buffer
entry but the two its transition works on. -/
def Obligations.StepFrame : Prop :=
  ∀ s t : State, s.kind ≠ .none → exec .step s = .next t →
    t.kind = s.kind ∧ t.err = s.err ∧ t.tw = s.tw ∧ t.atan = s.atan ∧ t.gain = s.gain ∧ t.cfg = s.cfg ∧
      t.port = s.port ∧ t.resp = some ⟨.ok, 0, 0⟩ ∧
      ∀ i, i ∉ touched s → bufGet t.buf i = bufGet s.buf i

/-- R311: what RUN leaves unchanged: the engine's kind, `err`, the ROMs, the parameters, and which entries are
written. -/
def Obligations.RunFrame : Prop :=
  ∀ s t : State, s.kind ≠ .none → exec .run s = .next t →
    t.kind = s.kind ∧ t.err = s.err ∧ t.tw = s.tw ∧ t.atan = s.atan ∧ t.gain = s.gain ∧ t.cfg = s.cfg ∧
      t.port = s.port ∧ ∀ i, written t i = written s i

/-- R31: no command reads a previous command's response, nor what waits behind it at the port. The two fields are
the model's own (assumption 3). -/
def Obligations.CommandsReadNeitherPortNorResponse : Prop :=
  ∀ (i : Instr) (s : State) (q : List PortEvent) (r : Option Response),
    exec i { s with port := q, resp := r } =
      match exec i s with
      | .next t => .next { t with port := q }
      | .fault f => .fault f
      | .refused x => .refused x
end

