-- ==== Sys2Proof/Laws/Decode.lean ====
section
/-! SUPPORT. What the decoder and the encoder's command word say, once (30_encoding.md R101, R104, R105). -/

namespace Sys2Proof

/-- CMD of an encoding is OPC · 2^24 + IDX, with nothing lost. -/
theorem cmd_toNat {o x : Nat} (ho : o < 256) (hx : x < 16777216) :
    (BitVec.ofNat 32 (o * 2 ^ 24 + x)).toNat = o * 2 ^ 24 + x := by
  rw [BitVec.toNat_ofNat, Nat.mod_eq_of_lt]
  have : (2 : Nat) ^ 32 = 256 * 2 ^ 24 := by decide
  have : (2 : Nat) ^ 24 = 16777216 := by decide
  nlinarith

/-- IDX is below 2^24. -/
theorem idxOf_lt (cmd : CmdWord) : idxOf cmd < 16777216 := Nat.mod_lt _ (by decide)

/-- A decoded instruction has the transaction's opcode, and its index is IDX or unused. -/
theorem decode_ok_fields {t : Txn} {i : Instr} (h : decode t = .ok i) :
    opcode i = opcOf t.cmd ∧ (idxField i = idxOf t.cmd ∨ idxField i = 0) := by
  unfold decode at h
  split at h <;> cases h <;> rename_i he <;> exact ⟨he.symm, by simp [idxField]⟩

/-- Only an opcode outside the map is refused, by its own number. -/
theorem decode_error_opc {t : Txn} {e : DecodeError} (h : decode t = .error e) :
    e = .illegalOpc (opcOf t.cmd) := by
  unfold decode at h
  split at h <;> cases h
  rfl

end Sys2Proof
end

