-- ==== Sys2Proof/Laws/State.lean ====
section
/-! SUPPORT. One lemma per field per named update of State (all true by unfolding), and what the two ways of
ending a command answer, so that later proofs need not unfold them. -/

namespace Sys2Proof.Machine

theorem respond_eq (r0 r1 : Word) (s : State) :
    respond r0 r1 s = .next { s with resp := some ⟨.ok, r0, r1⟩ } := rfl

theorem raise_eq (c : RespCode) (s : State) :
    raise c s = .next { s with err := s.err ||| errBit c, resp := some ⟨c, 0, 0⟩ } := rfl

@[simp] theorem memWrite_cfg (s : State) (i : Nat) (z : Sample) : (memWrite s i z).cfg = s.cfg := rfl
@[simp] theorem memWrite_kind (s : State) (i : Nat) (z : Sample) : (memWrite s i z).kind = s.kind := rfl
@[simp] theorem memWrite_tag (s : State) (i : Nat) (z : Sample) : (memWrite s i z).tag = s.tag := rfl
@[simp] theorem memWrite_length (s : State) (i : Nat) (z : Sample) : (memWrite s i z).length = s.length := rfl
@[simp] theorem memWrite_step (s : State) (i : Nat) (z : Sample) : (memWrite s i z).step = s.step := rfl
@[simp] theorem memWrite_stepSize (s : State) (i : Nat) (z : Sample) : (memWrite s i z).stepSize = s.stepSize := rfl
@[simp] theorem memWrite_topIdx (s : State) (i : Nat) (z : Sample) : (memWrite s i z).topIdx = s.topIdx := rfl
@[simp] theorem memWrite_bottomIdx (s : State) (i : Nat) (z : Sample) : (memWrite s i z).bottomIdx = s.bottomIdx := rfl
@[simp] theorem memWrite_buf (s : State) (i : Nat) (z : Sample) : (memWrite s i z).buf = bufSet s.buf i z := rfl
@[simp] theorem memWrite_err (s : State) (i : Nat) (z : Sample) : (memWrite s i z).err = s.err := rfl
@[simp] theorem memWrite_tw (s : State) (i : Nat) (z : Sample) : (memWrite s i z).tw = s.tw := rfl
@[simp] theorem memWrite_atan (s : State) (i : Nat) (z : Sample) : (memWrite s i z).atan = s.atan := rfl
@[simp] theorem memWrite_gain (s : State) (i : Nat) (z : Sample) : (memWrite s i z).gain = s.gain := rfl
@[simp] theorem memWrite_port (s : State) (i : Nat) (z : Sample) : (memWrite s i z).port = s.port := rfl
@[simp] theorem memWrite_resp (s : State) (i : Nat) (z : Sample) : (memWrite s i z).resp = s.resp := rfl

@[simp] theorem applyReset_cfg (s : State) : (applyReset s).cfg = s.cfg := rfl
@[simp] theorem applyReset_kind (s : State) : (applyReset s).kind = .none := rfl
@[simp] theorem applyReset_tag (s : State) : (applyReset s).tag = .none := rfl
@[simp] theorem applyReset_length (s : State) : (applyReset s).length = 0 := rfl
@[simp] theorem applyReset_step (s : State) : (applyReset s).step = 0 := rfl
@[simp] theorem applyReset_stepSize (s : State) : (applyReset s).stepSize = 0 := rfl
@[simp] theorem applyReset_topIdx (s : State) : (applyReset s).topIdx = 0 := rfl
@[simp] theorem applyReset_bottomIdx (s : State) : (applyReset s).bottomIdx = 0 := rfl
@[simp] theorem applyReset_buf (s : State) : (applyReset s).buf = [] := rfl
@[simp] theorem applyReset_err (s : State) : (applyReset s).err = 0 := rfl
@[simp] theorem applyReset_tw (s : State) : (applyReset s).tw = s.tw := rfl
@[simp] theorem applyReset_atan (s : State) : (applyReset s).atan = s.atan := rfl
@[simp] theorem applyReset_gain (s : State) : (applyReset s).gain = s.gain := rfl
@[simp] theorem applyReset_port (s : State) : (applyReset s).port = s.port := rfl
@[simp] theorem applyReset_resp (s : State) : (applyReset s).resp = none := rfl

@[simp] theorem withTxn_cfg (s : State) (t : Txn) : (s.withTxn t).cfg = s.cfg := rfl
@[simp] theorem withTxn_kind (s : State) (t : Txn) : (s.withTxn t).kind = s.kind := rfl
@[simp] theorem withTxn_tag (s : State) (t : Txn) : (s.withTxn t).tag = s.tag := rfl
@[simp] theorem withTxn_length (s : State) (t : Txn) : (s.withTxn t).length = s.length := rfl
@[simp] theorem withTxn_step (s : State) (t : Txn) : (s.withTxn t).step = s.step := rfl
@[simp] theorem withTxn_stepSize (s : State) (t : Txn) : (s.withTxn t).stepSize = s.stepSize := rfl
@[simp] theorem withTxn_topIdx (s : State) (t : Txn) : (s.withTxn t).topIdx = s.topIdx := rfl
@[simp] theorem withTxn_bottomIdx (s : State) (t : Txn) : (s.withTxn t).bottomIdx = s.bottomIdx := rfl
@[simp] theorem withTxn_buf (s : State) (t : Txn) : (s.withTxn t).buf = s.buf := rfl
@[simp] theorem withTxn_err (s : State) (t : Txn) : (s.withTxn t).err = s.err := rfl
@[simp] theorem withTxn_tw (s : State) (t : Txn) : (s.withTxn t).tw = s.tw := rfl
@[simp] theorem withTxn_atan (s : State) (t : Txn) : (s.withTxn t).atan = s.atan := rfl
@[simp] theorem withTxn_gain (s : State) (t : Txn) : (s.withTxn t).gain = s.gain := rfl
@[simp] theorem withTxn_port (s : State) (t : Txn) : (s.withTxn t).port = .cmd t :: s.port := rfl
@[simp] theorem withTxn_resp (s : State) (t : Txn) : (s.withTxn t).resp = s.resp := rfl

@[simp] theorem withFetchWord_cfg (s : State) (nbits w : Nat) : (s.withFetchWord nbits w).cfg = s.cfg := rfl
@[simp] theorem withFetchWord_kind (s : State) (nbits w : Nat) : (s.withFetchWord nbits w).kind = s.kind := rfl
@[simp] theorem withFetchWord_tag (s : State) (nbits w : Nat) : (s.withFetchWord nbits w).tag = s.tag := rfl
@[simp] theorem withFetchWord_length (s : State) (nbits w : Nat) : (s.withFetchWord nbits w).length = s.length := rfl
@[simp] theorem withFetchWord_step (s : State) (nbits w : Nat) : (s.withFetchWord nbits w).step = s.step := rfl
@[simp] theorem withFetchWord_stepSize (s : State) (nbits w : Nat) : (s.withFetchWord nbits w).stepSize = s.stepSize := rfl
@[simp] theorem withFetchWord_topIdx (s : State) (nbits w : Nat) : (s.withFetchWord nbits w).topIdx = s.topIdx := rfl
@[simp] theorem withFetchWord_bottomIdx (s : State) (nbits w : Nat) : (s.withFetchWord nbits w).bottomIdx = s.bottomIdx := rfl
@[simp] theorem withFetchWord_buf (s : State) (nbits w : Nat) : (s.withFetchWord nbits w).buf = s.buf := rfl
@[simp] theorem withFetchWord_err (s : State) (nbits w : Nat) : (s.withFetchWord nbits w).err = s.err := rfl
@[simp] theorem withFetchWord_tw (s : State) (nbits w : Nat) : (s.withFetchWord nbits w).tw = s.tw := rfl
@[simp] theorem withFetchWord_atan (s : State) (nbits w : Nat) : (s.withFetchWord nbits w).atan = s.atan := rfl
@[simp] theorem withFetchWord_gain (s : State) (nbits w : Nat) : (s.withFetchWord nbits w).gain = s.gain := rfl
@[simp] theorem withFetchWord_port (s : State) (nbits w : Nat) : (s.withFetchWord nbits w).port = .cmd (txnOfTableWord nbits w) :: s.port := rfl
@[simp] theorem withFetchWord_resp (s : State) (nbits w : Nat) : (s.withFetchWord nbits w).resp = s.resp := rfl

@[simp] theorem resetOf_cfg (c : Config) (atan gain : Vector Word 64) :
    (State.resetOf c atan gain).cfg = c := rfl
@[simp] theorem resetOf_kind (c : Config) (atan gain : Vector Word 64) :
    (State.resetOf c atan gain).kind = .none := rfl
@[simp] theorem resetOf_tag (c : Config) (atan gain : Vector Word 64) :
    (State.resetOf c atan gain).tag = .none := rfl
@[simp] theorem resetOf_length (c : Config) (atan gain : Vector Word 64) :
    (State.resetOf c atan gain).length = 0 := rfl
@[simp] theorem resetOf_step (c : Config) (atan gain : Vector Word 64) :
    (State.resetOf c atan gain).step = 0 := rfl
@[simp] theorem resetOf_stepSize (c : Config) (atan gain : Vector Word 64) :
    (State.resetOf c atan gain).stepSize = 0 := rfl
@[simp] theorem resetOf_topIdx (c : Config) (atan gain : Vector Word 64) :
    (State.resetOf c atan gain).topIdx = 0 := rfl
@[simp] theorem resetOf_bottomIdx (c : Config) (atan gain : Vector Word 64) :
    (State.resetOf c atan gain).bottomIdx = 0 := rfl
@[simp] theorem resetOf_buf (c : Config) (atan gain : Vector Word 64) :
    (State.resetOf c atan gain).buf = [] := rfl
@[simp] theorem resetOf_err (c : Config) (atan gain : Vector Word 64) :
    (State.resetOf c atan gain).err = 0 := rfl
@[simp] theorem resetOf_tw (c : Config) (atan gain : Vector Word 64) :
    (State.resetOf c atan gain).tw = buildTw c atan gain := rfl
@[simp] theorem resetOf_atan (c : Config) (atan gain : Vector Word 64) :
    (State.resetOf c atan gain).atan = atan := rfl
@[simp] theorem resetOf_gain (c : Config) (atan gain : Vector Word 64) :
    (State.resetOf c atan gain).gain = gain := rfl
@[simp] theorem resetOf_port (c : Config) (atan gain : Vector Word 64) :
    (State.resetOf c atan gain).port = [] := rfl
@[simp] theorem resetOf_resp (c : Config) (atan gain : Vector Word 64) :
    (State.resetOf c atan gain).resp = none := rfl

end Sys2Proof.Machine
end

