-- ==== Sys2Proof/Laws/Ops.lean ====
section
/-! SUPPORT. What each shared operation over the buffer and the ROMs can do, said once: reads after writes,
the canonical form kept by every write, and when a read, a kernel or a table read answers. -/

namespace Sys2Proof.Machine

/-! ### The buffer -/

/-- A read after a write: the entry written gives the value, every other entry reads as before (R77). -/
theorem bufGet_bufSet (m : List (Nat × Sample)) (i j : Nat) (z : Sample) :
    bufGet (bufSet m i z) j = if j = i then some z else bufGet m j := by
  induction m with
  | nil => rcases eq_or_ne j i with rfl | h <;> simp [bufSet, bufGet, *, Ne.symm]
  | cons e rest ih =>
    obtain ⟨k, w⟩ := e
    unfold bufSet
    by_cases hij : i < k
    · rw [if_pos hij]
      rcases eq_or_ne j i with rfl | h <;> simp [bufGet, *, Ne.symm]
    · rw [if_neg hij]
      by_cases hik : i = k
      · subst hik
        rcases eq_or_ne j i with rfl | h <;> simp [bufGet, *, Ne.symm]
      · by_cases hji : j = i
        · subst hji
          simp [bufGet, ih, hik, Ne.symm hik]
        · simp [bufGet, ih, hik, hji]

@[simp] theorem bufGet_bufSet_same (m : List (Nat × Sample)) (i : Nat) (z : Sample) :
    bufGet (bufSet m i z) i = some z := by simp [bufGet_bufSet]

theorem bufGet_bufSet_ne (m : List (Nat × Sample)) {i j : Nat} (z : Sample) (h : j ≠ i) :
    bufGet (bufSet m i z) j = bufGet m j := by simp [bufGet_bufSet, h]

theorem written_memWrite (s : State) (i j : Nat) (z : Sample) :
    written (memWrite s i z) j = (decide (j = i) || written s j) := by
  by_cases h : j = i <;> simp [written, bufGet_bufSet, h]

theorem allAbove_bufSet {m : List (Nat × Sample)} {i k : Nat} (z : Sample) (h : allAbove k m = true)
    (hk : k < i) : allAbove k (bufSet m i z) = true := by
  induction m with
  | nil => simpa [allAbove, bufSet] using hk
  | cons e rest ih =>
    obtain ⟨j, w⟩ := e
    simp only [allAbove, List.all_cons, Bool.and_eq_true, decide_eq_true_eq] at h
    unfold bufSet
    split
    · simp [allAbove, hk, h.1, h.2]
    · split
      · simp [allAbove, hk, h.2]
      · simp only [allAbove, List.all_cons, Bool.and_eq_true, decide_eq_true_eq]
        exact ⟨h.1, ih h.2⟩

theorem allAbove_trans {m : List (Nat × Sample)} {i j : Nat} (h : allAbove j m = true) (hij : i < j) :
    allAbove i m = true := by
  simp only [allAbove, List.all_eq_true, decide_eq_true_eq] at h ⊢
  exact fun e he => hij.trans (h e he)

/-- A write keeps the indices strictly rising. -/
theorem rising_bufSet {m : List (Nat × Sample)} (i : Nat) (z : Sample) (h : rising m = true) :
    rising (bufSet m i z) = true := by
  induction m with
  | nil => simp [bufSet, rising, allAbove]
  | cons e rest ih =>
    obtain ⟨j, w⟩ := e
    simp only [rising, Bool.and_eq_true] at h
    unfold bufSet
    split
    · next hij =>
      simp only [rising, Bool.and_eq_true]
      refine ⟨?_, h.1, h.2⟩
      simp only [allAbove, List.all_cons, Bool.and_eq_true, decide_eq_true_eq]
      exact ⟨hij, allAbove_trans h.1 hij⟩
    · split
      · next hij =>
        subst hij
        simp only [rising, Bool.and_eq_true]
        exact h
      · simp only [rising, Bool.and_eq_true]
        exact ⟨allAbove_bufSet z h.1 (by omega), ih h.2⟩

theorem all_bufSet {P : Nat × Sample → Bool} {m : List (Nat × Sample)} {i : Nat} {z : Sample}
    (h : m.all P = true) (hz : P (i, z) = true) : (bufSet m i z).all P = true := by
  induction m with
  | nil => simp [bufSet, hz]
  | cons e rest ih =>
    obtain ⟨j, w⟩ := e
    simp only [List.all_cons, Bool.and_eq_true] at h
    unfold bufSet
    split
    · simp [h.1, h.2, hz]
    · split
      · simp [h.2, hz]
      · simp only [List.all_cons, Bool.and_eq_true]
        exact ⟨h.1, ih h.2⟩

/-- The canonical form holds of the empty buffer. -/
@[simp] theorem wf_nil (c : Config) : Memory.wf c [] = true := rfl

/-- Every write inside the buffer of T values keeps the canonical form. -/
theorem wf_bufSet {c : Config} {m : List (Nat × Sample)} {i : Nat} {z : Sample} (h : Memory.wf c m = true)
    (hi : i < c.n) (hre : fitsT c.prec z.re = true) (him : fitsT c.prec z.im = true) :
    Memory.wf c (bufSet m i z) = true := by
  simp only [Memory.wf, Bool.and_eq_true] at h ⊢
  exact ⟨rising_bufSet i z h.1, all_bufSet h.2 (by simp [hi, hre, him])⟩

/-- `memWrite` keeps the canonical form. -/
theorem wf_memWrite {s : State} {i : Nat} {z : Sample} (h : Memory.wf s.cfg s.buf = true) (hi : i < s.cfg.n)
    (hre : fitsT s.cfg.prec z.re = true) (him : fitsT s.cfg.prec z.im = true) :
    Memory.wf (memWrite s i z).cfg (memWrite s i z).buf = true := wf_bufSet h hi hre him

/-- The reset event keeps the canonical form. -/
theorem wf_applyReset (s : State) : Memory.wf (applyReset s).cfg (applyReset s).buf = true := rfl

/-- The state after reset has the canonical form. -/
theorem wf_reset : Memory.wf State.reset.cfg State.reset.buf = true := rfl

/-- An entry read from a canonical buffer holds T values. -/
theorem fitsT_of_bufGet {c : Config} {m : List (Nat × Sample)} {i : Nat} {z : Sample}
    (h : Memory.wf c m = true) (hz : bufGet m i = some z) :
    i < c.n ∧ fitsT c.prec z.re = true ∧ fitsT c.prec z.im = true := by
  simp only [Memory.wf, Bool.and_eq_true] at h
  obtain ⟨-, h⟩ := h
  induction m with
  | nil => simp [bufGet] at hz
  | cons e rest ih =>
    obtain ⟨j, w⟩ := e
    simp only [List.all_cons, Bool.and_eq_true, decide_eq_true_eq] at h
    unfold bufGet at hz
    split at hz
    · cases hz
      subst_vars
      exact ⟨h.1.1.1, h.1.1.2, h.1.2⟩
    · exact ih hz h.2

/-! ### Reads -/

theorem memRead_ok_iff {s : State} {i : Nat} {z : Sample} :
    memRead s i = .ok z ↔ i < s.cfg.n ∧ bufGet s.buf i = some z := by
  unfold memRead
  split
  · next h => cases hb : bufGet s.buf i <;> simp [h]
  · next h => simp [h]

/-- A buffer read stops for one of two reasons: the entry is unwritten, or there is no such entry. -/
theorem memRead_error_iff {s : State} {i : Nat} {f : Fault} :
    memRead s i = .error f ↔
      (i < s.cfg.n ∧ written s i = false ∧ f = .unwrittenRead i) ∨
        (s.cfg.n ≤ i ∧ f = .outsideSpace i) := by
  unfold memRead written
  split
  · next h => cases hb : bufGet s.buf i <;> simp [h, @eq_comm _ f]
  · next h => simp [h, Nat.le_of_not_lt h, @eq_comm _ f]

theorem twRead_ok_iff {s : State} {i : Nat} {v : Word} : twRead s i = .ok v ↔ s.tw[i]? = some v := by
  unfold twRead
  cases s.tw[i]? <;> simp

theorem twRead_error_iff {s : State} {i : Nat} {f : Fault} :
    twRead s i = .error f ↔ s.tw.length ≤ i ∧ f = .outsideSpace i := by
  unfold twRead
  cases h : s.tw[i]? with
  | none => simp [List.getElem?_eq_none_iff.mp h, @eq_comm _ f]
  | some v => simp [(List.getElem?_eq_some_iff.mp h).1]

theorem twCs_ok_iff {s : State} {k : Nat} {c sn : Word} :
    twCs s k = .ok (c, sn) ↔ s.tw[s.cfg.q - k]? = some c ∧ s.tw[k]? = some sn := by
  simp only [← twRead_ok_iff]
  unfold twCs
  cases twRead s (s.cfg.q - k) with
  | error f => simp
  | ok c' => cases twRead s k <;> simp

/-! ### Kernels in place -/

/-- A kernel applied in place answers exactly when both entries can be read; it then writes those two
entries and nothing else (R235). -/
theorem applyKernel_ok_iff {s s' : State} {t b : Nat} {k : Sample → Sample → Sample × Sample} :
    applyKernel s t b k = .ok s' ↔
      ∃ x y, t < s.cfg.n ∧ b < s.cfg.n ∧ bufGet s.buf t = some x ∧ bufGet s.buf b = some y ∧
        s' = { s with buf := bufSet (bufSet s.buf t (k x y).1) b (k x y).2 } := by
  unfold applyKernel
  constructor
  · intro h
    split at h
    · cases h
    · next x hx =>
      split at h
      · cases h
      · next y hy =>
        cases h
        rw [memRead_ok_iff] at hx hy
        exact ⟨x, y, hx.1, hy.1, hx.2, hy.2, rfl⟩
  · rintro ⟨x, y, ht, hb, hx, hy, rfl⟩
    rw [memRead_ok_iff.mpr ⟨ht, hx⟩, memRead_ok_iff.mpr ⟨hb, hy⟩]
    rfl

/-- A kernel applied in place stops exactly when one of its two reads stops. -/
theorem applyKernel_error {s : State} {t b : Nat} {k : Sample → Sample → Sample × Sample} {f : Fault}
    (h : applyKernel s t b k = .error f) : memRead s t = .error f ∨ memRead s b = .error f := by
  unfold applyKernel at h
  split at h
  · next hx => cases h; exact .inl hx
  · split at h
    · next hy => cases h; exact .inr hy
    · cases h

theorem applyTwiddled_ok_iff {s s' : State} {t b k : Nat}
    {kernel : Word → Word → Sample → Sample → Sample × Sample} :
    applyTwiddled s t b k kernel = .ok s' ↔
      ∃ c sn, s.tw[s.cfg.q - k]? = some c ∧ s.tw[k]? = some sn ∧
        applyKernel s t b (kernel c sn) = .ok s' := by
  unfold applyTwiddled
  constructor
  · intro h
    split at h
    · cases h
    · next cs hcs =>
      obtain ⟨c, sn⟩ := cs
      rw [twCs_ok_iff] at hcs
      exact ⟨c, sn, hcs.1, hcs.2, h⟩
  · rintro ⟨c, sn, hc, hs, h⟩
    rw [twCs_ok_iff.mpr ⟨hc, hs⟩]
    exact h

/-- The swap answers exactly when both entries can be read; the two then hold each other's sample. -/
theorem swapEntries_ok_iff {s s' : State} {t r : Nat} :
    swapEntries s t r = .ok s' ↔
      ∃ x y, t < s.cfg.n ∧ r < s.cfg.n ∧ bufGet s.buf t = some x ∧ bufGet s.buf r = some y ∧
        s' = { s with buf := bufSet (bufSet s.buf t y) r x } := applyKernel_ok_iff

end Sys2Proof.Machine
end

