-- ==== Sys2Proof/Laws/Engine.lean ====
section
/-! SUPPORT. What each engine transition does when it answers (45_forward_engine.md R252 to R259,
46_inverse_engine.md R282 to R289), one lemma per transition, and what every transition leaves alone. -/

namespace Sys2Proof.Machine

theorem except_map_ok_iff {ε α β : Type} {e : Except ε α} {f : α → β} {y : β} :
    e.map f = .ok y ↔ ∃ x, e = .ok x ∧ f x = y := by
  cases e <;> simp [Except.map]

theorem except_map_error_iff {ε α β : Type} {e : Except ε α} {f : α → β} {x : ε} :
    e.map f = .error x ↔ e = .error x := by
  cases e <;> simp [Except.map]

/-- Forward STEP1 (R252). -/
theorem fwdStep1_ok_iff {s s' : State} :
    fwdStep1 s = .ok s' ↔
      ∃ x y, s.topIdx < s.cfg.n ∧ s.topIdx + 2 * s.length < s.cfg.n ∧ bufGet s.buf s.topIdx = some x ∧
        bufGet s.buf (s.topIdx + 2 * s.length) = some y ∧
        s' = { s with
          buf := bufSet (bufSet s.buf s.topIdx (difOne s.cfg.prec x y).1) (s.topIdx + 2 * s.length) (difOne s.cfg.prec x y).2
          bottomIdx := s.topIdx + 2 * s.length
          topIdx := s.topIdx + 1
          step := if 1 < s.length then s.stepSize else s.step
          tag := if 1 < s.length then .step2 else .step3 } := by
  simp only [fwdStep1, except_map_ok_iff, applyKernel_ok_iff]
  constructor
  · rintro ⟨_, ⟨x, y, ht, hb, hx, hy, rfl⟩, h⟩
    exact ⟨x, y, ht, hb, hx, hy, by rw [← h]; split <;> rfl⟩
  · rintro ⟨x, y, ht, hb, hx, hy, rfl⟩
    exact ⟨_, ⟨x, y, ht, hb, hx, hy, rfl⟩, by split <;> rfl⟩

/-- Forward STEP2 (R253). -/
theorem fwdStep2_ok_iff {s s' : State} :
    fwdStep2 s = .ok s' ↔
      ∃ c sn x y, s.tw[s.cfg.q - s.step]? = some c ∧ s.tw[s.step]? = some sn ∧ s.topIdx < s.cfg.n ∧
        s.topIdx + 2 * s.length < s.cfg.n ∧ bufGet s.buf s.topIdx = some x ∧
        bufGet s.buf (s.topIdx + 2 * s.length) = some y ∧
        s' = { s with
          buf := bufSet (bufSet s.buf s.topIdx (difRot s.cfg.prec c sn x y).1) (s.topIdx + 2 * s.length)
            (difRot s.cfg.prec c sn x y).2
          bottomIdx := s.topIdx + 2 * s.length
          topIdx := s.topIdx + 1
          step := s.step + s.stepSize
          tag := if s.step + s.stepSize = s.cfg.q then .step3 else .step2 } := by
  simp only [fwdStep2, except_map_ok_iff, applyTwiddled_ok_iff, applyKernel_ok_iff]
  constructor
  · rintro ⟨_, ⟨c, sn, hc, hs, x, y, ht, hb, hx, hy, rfl⟩, rfl⟩
    exact ⟨c, sn, x, y, hc, hs, ht, hb, hx, hy, rfl⟩
  · rintro ⟨c, sn, x, y, hc, hs, ht, hb, hx, hy, rfl⟩
    exact ⟨_, ⟨c, sn, hc, hs, x, y, ht, hb, hx, hy, rfl⟩, rfl⟩

/-- Forward STEP3 (R254). -/
theorem fwdStep3_ok_iff {s s' : State} :
    fwdStep3 s = .ok s' ↔
      ∃ x y, s.topIdx < s.cfg.n ∧ s.topIdx + 2 * s.length < s.cfg.n ∧ bufGet s.buf s.topIdx = some x ∧
        bufGet s.buf (s.topIdx + 2 * s.length) = some y ∧
        s' = { s with
          buf := bufSet (bufSet s.buf s.topIdx (difNegj s.cfg.prec x y).1) (s.topIdx + 2 * s.length) (difNegj s.cfg.prec x y).2
          bottomIdx := s.topIdx + 2 * s.length
          topIdx := s.topIdx + 1
          step := if 1 < s.length then s.stepSize else s.step
          tag := if 1 < s.length then .step4 else .step5 } := by
  simp only [fwdStep3, except_map_ok_iff, applyKernel_ok_iff]
  constructor
  · rintro ⟨_, ⟨x, y, ht, hb, hx, hy, rfl⟩, h⟩
    exact ⟨x, y, ht, hb, hx, hy, by rw [← h]; split <;> rfl⟩
  · rintro ⟨x, y, ht, hb, hx, hy, rfl⟩
    exact ⟨_, ⟨x, y, ht, hb, hx, hy, rfl⟩, by split <;> rfl⟩

/-- Forward STEP4 (R255). -/
theorem fwdStep4_ok_iff {s s' : State} :
    fwdStep4 s = .ok s' ↔
      ∃ c sn x y, s.tw[s.cfg.q - s.step]? = some c ∧ s.tw[s.step]? = some sn ∧ s.topIdx < s.cfg.n ∧
        s.topIdx + 2 * s.length < s.cfg.n ∧ bufGet s.buf s.topIdx = some x ∧
        bufGet s.buf (s.topIdx + 2 * s.length) = some y ∧
        s' = { s with
          buf := bufSet (bufSet s.buf s.topIdx (difNegjrot s.cfg.prec c sn x y).1) (s.topIdx + 2 * s.length)
            (difNegjrot s.cfg.prec c sn x y).2
          bottomIdx := s.topIdx + 2 * s.length
          topIdx := s.topIdx + 1
          step := s.step + s.stepSize
          tag := if s.step + s.stepSize = s.cfg.q then .step5 else .step4 } := by
  simp only [fwdStep4, except_map_ok_iff, applyTwiddled_ok_iff, applyKernel_ok_iff]
  constructor
  · rintro ⟨_, ⟨c, sn, hc, hs, x, y, ht, hb, hx, hy, rfl⟩, rfl⟩
    exact ⟨c, sn, x, y, hc, hs, ht, hb, hx, hy, rfl⟩
  · rintro ⟨c, sn, x, y, hc, hs, ht, hb, hx, hy, rfl⟩
    exact ⟨_, ⟨c, sn, hc, hs, x, y, ht, hb, hx, hy, rfl⟩, rfl⟩

/-- Forward STEP6 (R257). -/
theorem fwdStep6_ok_iff {s s' : State} :
    fwdStep6 s = .ok s' ↔
      ∃ x y, s.topIdx < s.cfg.n ∧ s.topIdx + 1 < s.cfg.n ∧ bufGet s.buf s.topIdx = some x ∧
        bufGet s.buf (s.topIdx + 1) = some y ∧
        s' = { s with
          buf := bufSet (bufSet s.buf s.topIdx (difOne s.cfg.prec x y).1) (s.topIdx + 1) (difOne s.cfg.prec x y).2
          bottomIdx := s.topIdx + 1
          topIdx := if s.topIdx + 2 = s.cfg.n then 0 else s.topIdx + 2
          tag := if s.topIdx + 2 = s.cfg.n then .reorder else s.tag } := by
  simp only [fwdStep6, except_map_ok_iff, applyKernel_ok_iff]
  constructor
  · rintro ⟨_, ⟨x, y, ht, hb, hx, hy, rfl⟩, h⟩
    exact ⟨x, y, ht, hb, hx, hy, by rw [← h]; split <;> rfl⟩
  · rintro ⟨x, y, ht, hb, hx, hy, rfl⟩
    exact ⟨_, ⟨x, y, ht, hb, hx, hy, rfl⟩, by split <;> rfl⟩

/-- Inverse STEP1 (R283). -/
theorem invStep1_ok_iff {s s' : State} :
    invStep1 s = .ok s' ↔
      ∃ x y, s.topIdx < s.cfg.n ∧ s.topIdx + 1 < s.cfg.n ∧ bufGet s.buf s.topIdx = some x ∧
        bufGet s.buf (s.topIdx + 1) = some y ∧
        s' = { s with
          buf := bufSet (bufSet s.buf s.topIdx (ditScale s.cfg x y).1) (s.topIdx + 1) (ditScale s.cfg x y).2
          bottomIdx := s.topIdx + 1
          topIdx := if s.topIdx + 2 = s.cfg.n then 0 else s.topIdx + 2
          tag := if s.topIdx + 2 = s.cfg.n then .step2 else s.tag } := by
  simp only [invStep1, except_map_ok_iff, applyKernel_ok_iff]
  constructor
  · rintro ⟨_, ⟨x, y, ht, hb, hx, hy, rfl⟩, h⟩
    exact ⟨x, y, ht, hb, hx, hy, by rw [← h]; split <;> rfl⟩
  · rintro ⟨x, y, ht, hb, hx, hy, rfl⟩
    exact ⟨_, ⟨x, y, ht, hb, hx, hy, rfl⟩, by split <;> rfl⟩

/-- Inverse STEP2 (R284). -/
theorem invStep2_ok_iff {s s' : State} :
    invStep2 s = .ok s' ↔
      ∃ x y, s.topIdx < s.cfg.n ∧ s.topIdx + 2 * s.length < s.cfg.n ∧ bufGet s.buf s.topIdx = some x ∧
        bufGet s.buf (s.topIdx + 2 * s.length) = some y ∧
        s' = { s with
          buf := bufSet (bufSet s.buf s.topIdx (ditOne s.cfg.prec x y).1) (s.topIdx + 2 * s.length) (ditOne s.cfg.prec x y).2
          bottomIdx := s.topIdx + 2 * s.length
          topIdx := s.topIdx + 1
          step := if 1 < s.length then s.stepSize else s.step
          tag := if 1 < s.length then .step3 else .step4 } := by
  simp only [invStep2, except_map_ok_iff, applyKernel_ok_iff]
  constructor
  · rintro ⟨_, ⟨x, y, ht, hb, hx, hy, rfl⟩, h⟩
    exact ⟨x, y, ht, hb, hx, hy, by rw [← h]; split <;> rfl⟩
  · rintro ⟨x, y, ht, hb, hx, hy, rfl⟩
    exact ⟨_, ⟨x, y, ht, hb, hx, hy, rfl⟩, by split <;> rfl⟩

/-- Inverse STEP3 (R285). -/
theorem invStep3_ok_iff {s s' : State} :
    invStep3 s = .ok s' ↔
      ∃ c sn x y, s.tw[s.cfg.q - s.step]? = some c ∧ s.tw[s.step]? = some sn ∧ s.topIdx < s.cfg.n ∧
        s.topIdx + 2 * s.length < s.cfg.n ∧ bufGet s.buf s.topIdx = some x ∧
        bufGet s.buf (s.topIdx + 2 * s.length) = some y ∧
        s' = { s with
          buf := bufSet (bufSet s.buf s.topIdx (ditRot s.cfg.prec c sn x y).1) (s.topIdx + 2 * s.length)
            (ditRot s.cfg.prec c sn x y).2
          bottomIdx := s.topIdx + 2 * s.length
          topIdx := s.topIdx + 1
          step := s.step + s.stepSize
          tag := if s.step + s.stepSize = s.cfg.q then .step4 else .step3 } := by
  simp only [invStep3, except_map_ok_iff, applyTwiddled_ok_iff, applyKernel_ok_iff]
  constructor
  · rintro ⟨_, ⟨c, sn, hc, hs, x, y, ht, hb, hx, hy, rfl⟩, rfl⟩
    exact ⟨c, sn, x, y, hc, hs, ht, hb, hx, hy, rfl⟩
  · rintro ⟨c, sn, x, y, hc, hs, ht, hb, hx, hy, rfl⟩
    exact ⟨_, ⟨c, sn, hc, hs, x, y, ht, hb, hx, hy, rfl⟩, rfl⟩

/-- Inverse STEP4 (R286). -/
theorem invStep4_ok_iff {s s' : State} :
    invStep4 s = .ok s' ↔
      ∃ x y, s.topIdx < s.cfg.n ∧ s.topIdx + 2 * s.length < s.cfg.n ∧ bufGet s.buf s.topIdx = some x ∧
        bufGet s.buf (s.topIdx + 2 * s.length) = some y ∧
        s' = { s with
          buf := bufSet (bufSet s.buf s.topIdx (ditPosj s.cfg.prec x y).1) (s.topIdx + 2 * s.length) (ditPosj s.cfg.prec x y).2
          bottomIdx := s.topIdx + 2 * s.length
          topIdx := s.topIdx + 1
          step := if 1 < s.length then s.stepSize else s.step
          tag := if 1 < s.length then .step5 else .step6 } := by
  simp only [invStep4, except_map_ok_iff, applyKernel_ok_iff]
  constructor
  · rintro ⟨_, ⟨x, y, ht, hb, hx, hy, rfl⟩, h⟩
    exact ⟨x, y, ht, hb, hx, hy, by rw [← h]; split <;> rfl⟩
  · rintro ⟨x, y, ht, hb, hx, hy, rfl⟩
    exact ⟨_, ⟨x, y, ht, hb, hx, hy, rfl⟩, by split <;> rfl⟩

/-- Inverse STEP5 (R287). -/
theorem invStep5_ok_iff {s s' : State} :
    invStep5 s = .ok s' ↔
      ∃ c sn x y, s.tw[s.cfg.q - s.step]? = some c ∧ s.tw[s.step]? = some sn ∧ s.topIdx < s.cfg.n ∧
        s.topIdx + 2 * s.length < s.cfg.n ∧ bufGet s.buf s.topIdx = some x ∧
        bufGet s.buf (s.topIdx + 2 * s.length) = some y ∧
        s' = { s with
          buf := bufSet (bufSet s.buf s.topIdx (ditPosjrot s.cfg.prec c sn x y).1) (s.topIdx + 2 * s.length)
            (ditPosjrot s.cfg.prec c sn x y).2
          bottomIdx := s.topIdx + 2 * s.length
          topIdx := s.topIdx + 1
          step := s.step + s.stepSize
          tag := if s.step + s.stepSize = s.cfg.q then .step6 else .step5 } := by
  simp only [invStep5, except_map_ok_iff, applyTwiddled_ok_iff, applyKernel_ok_iff]
  constructor
  · rintro ⟨_, ⟨c, sn, hc, hs, x, y, ht, hb, hx, hy, rfl⟩, rfl⟩
    exact ⟨c, sn, x, y, hc, hs, ht, hb, hx, hy, rfl⟩
  · rintro ⟨c, sn, x, y, hc, hs, ht, hb, hx, hy, rfl⟩
    exact ⟨_, ⟨c, sn, hc, hs, x, y, ht, hb, hx, hy, rfl⟩, rfl⟩

/-- Forward REORDER (R258): the cursors and the tag, and the swap where t < rev(t). -/
theorem fwdReorder_ok_iff {s s' : State} :
    fwdReorder s = .ok s' ↔
      ∃ m, (if s.topIdx < rev s.cfg s.topIdx then swapEntries s s.topIdx (rev s.cfg s.topIdx) else .ok s) =
          .ok { s with buf := m } ∧
        s' = { s with
          buf := m
          bottomIdx := rev s.cfg s.topIdx
          topIdx := s.topIdx + 1
          tag := if s.topIdx + 1 = s.cfg.n - 1 then .done else s.tag } := by
  simp only [fwdReorder, except_map_ok_iff]
  constructor
  · rintro ⟨x, hx, rfl⟩
    have hm : x = { s with buf := x.buf } := by
      split at hx
      · obtain ⟨_, _, _, _, _, _, rfl⟩ := swapEntries_ok_iff.mp hx
        rfl
      · cases hx
        rfl
    refine ⟨x.buf, by rw [← hm]; exact hx, ?_⟩
    rw [hm]
    split <;> rfl
  · rintro ⟨m, hm, rfl⟩
    exact ⟨_, hm, by split <;> rfl⟩

/-- Inverse REORDER (R282): the cursors and the tag, and the swap where t < rev(t). -/
theorem invReorder_ok_iff {s s' : State} :
    invReorder s = .ok s' ↔
      ∃ m, (if s.topIdx < rev s.cfg s.topIdx then swapEntries s s.topIdx (rev s.cfg s.topIdx) else .ok s) =
          .ok { s with buf := m } ∧
        s' = { s with
          buf := m
          bottomIdx := rev s.cfg s.topIdx
          topIdx := if s.topIdx + 1 = s.cfg.n - 1 then 0 else s.topIdx + 1
          tag := if s.topIdx + 1 = s.cfg.n - 1 then .step1 else s.tag } := by
  simp only [invReorder, except_map_ok_iff]
  constructor
  · rintro ⟨x, hx, rfl⟩
    have hm : x = { s with buf := x.buf } := by
      split at hx
      · obtain ⟨_, _, _, _, _, _, rfl⟩ := swapEntries_ok_iff.mp hx
        rfl
      · cases hx
        rfl
    refine ⟨x.buf, by rw [← hm]; exact hx, ?_⟩
    rw [hm]
    split <;> rfl
  · rintro ⟨m, hm, rfl⟩
    exact ⟨_, hm, by split <;> rfl⟩

/-- Forward STEP5 (R256): the three moves of the bookkeeping state. -/
theorem fwdStep5_ok_iff {s s' : State} :
    fwdStep5 s = .ok s' ↔
      (s.topIdx + 2 * s.length < s.cfg.n ∧
          s' = { s with topIdx := s.topIdx + 2 * s.length, tag := .step1 }) ∨
        (s.cfg.n ≤ s.topIdx + 2 * s.length ∧ 1 < s.length ∧
          s' = { s with
            length := s.length / 2, stepSize := 2 * s.stepSize, topIdx := 0, tag := .step1 }) ∨
        (s.cfg.n ≤ s.topIdx + 2 * s.length ∧ s.length ≤ 1 ∧ s' = { s with topIdx := 0, tag := .step6 }) := by
  unfold fwdStep5
  by_cases hn : s.topIdx + 2 * s.length < s.cfg.n
  · simp [hn, eq_comm]
  · by_cases hl : 1 < s.length
    · simp [hn, hl, Nat.le_of_not_lt hn, Nat.not_le.mpr hl, eq_comm]
    · simp [hn, hl, Nat.le_of_not_lt hn, Nat.le_of_not_lt hl, eq_comm]

/-- Inverse STEP6 (R288): the three moves of the bookkeeping state. -/
theorem invStep6_ok_iff {s s' : State} :
    invStep6 s = .ok s' ↔
      (s.topIdx + 2 * s.length < s.cfg.n ∧
          s' = { s with topIdx := s.topIdx + 2 * s.length, tag := .step2 }) ∨
        (s.cfg.n ≤ s.topIdx + 2 * s.length ∧ 1 < s.stepSize ∧
          s' = { s with
            length := 2 * s.length, stepSize := s.stepSize / 2, topIdx := 0, tag := .step2 }) ∨
        (s.cfg.n ≤ s.topIdx + 2 * s.length ∧ s.stepSize ≤ 1 ∧ s' = { s with tag := .done }) := by
  unfold invStep6
  by_cases hn : s.topIdx + 2 * s.length < s.cfg.n
  · simp [hn, eq_comm]
  · by_cases hl : 1 < s.stepSize
    · simp [hn, hl, Nat.le_of_not_lt hn, Nat.not_le.mpr hl, eq_comm]
    · simp [hn, hl, Nat.le_of_not_lt hn, Nat.le_of_not_lt hl, eq_comm]

/-- The state element a transition may change: the buffer, the tag and the cursors, nothing else. -/
theorem engineStep_only {s s' : State} (h : engineStep s = .ok s') :
    s' = { s with
      buf := s'.buf
      tag := s'.tag
      length := s'.length
      step := s'.step
      stepSize := s'.stepSize
      topIdx := s'.topIdx
      bottomIdx := s'.bottomIdx } := by
  unfold engineStep at h
  split at h
  · obtain ⟨_, _, _, _, _, _, rfl⟩ := fwdStep1_ok_iff.mp h; rfl
  · obtain ⟨_, _, _, _, _, _, _, _, _, _, rfl⟩ := fwdStep2_ok_iff.mp h; rfl
  · obtain ⟨_, _, _, _, _, _, rfl⟩ := fwdStep3_ok_iff.mp h; rfl
  · obtain ⟨_, _, _, _, _, _, _, _, _, _, rfl⟩ := fwdStep4_ok_iff.mp h; rfl
  · obtain ⟨_, rfl⟩ | ⟨_, _, rfl⟩ | ⟨_, _, rfl⟩ := fwdStep5_ok_iff.mp h <;> rfl
  · obtain ⟨_, _, _, _, _, _, rfl⟩ := fwdStep6_ok_iff.mp h; rfl
  · obtain ⟨_, _, rfl⟩ := fwdReorder_ok_iff.mp h; rfl
  · cases h; rfl
  · obtain ⟨_, _, rfl⟩ := invReorder_ok_iff.mp h; rfl
  · obtain ⟨_, _, _, _, _, _, rfl⟩ := invStep1_ok_iff.mp h; rfl
  · obtain ⟨_, _, _, _, _, _, rfl⟩ := invStep2_ok_iff.mp h; rfl
  · obtain ⟨_, _, _, _, _, _, _, _, _, _, rfl⟩ := invStep3_ok_iff.mp h; rfl
  · obtain ⟨_, _, _, _, _, _, rfl⟩ := invStep4_ok_iff.mp h; rfl
  · obtain ⟨_, _, _, _, _, _, _, _, _, _, rfl⟩ := invStep5_ok_iff.mp h; rfl
  · obtain ⟨_, rfl⟩ | ⟨_, _, rfl⟩ | ⟨_, _, rfl⟩ := invStep6_ok_iff.mp h <;> rfl
  · cases h; rfl
  · cases h
  · cases h
  · cases h

/-! ### The RUN loop -/

theorem runLoop_done {s : State} (h : s.tag = .done) (fuel : Nat) : runLoop fuel s = .ok (s, 0) := by
  cases fuel <;> simp [runLoop, h]

theorem runLoop_zero {s : State} (h : s.tag ≠ .done) : runLoop 0 s = .error .runOverrun := by
  simp [runLoop, h]

theorem runLoop_succ {s : State} (h : s.tag ≠ .done) (fuel : Nat) :
    runLoop (fuel + 1) s =
      match engineStep s with
      | .error f => .error f
      | .ok s' => (runLoop fuel s').map fun r => (r.1, r.2 + 1) := if_neg h

/-- The loop answers in a state whose tag is DONE, the rest of the state but buffer, tag and cursors as it
was. -/
theorem runLoop_ok {fuel : Nat} {s t : State} {n : Nat} (h : runLoop fuel s = .ok (t, n)) :
    t.tag = .done ∧ n ≤ fuel ∧
      t = { s with
        buf := t.buf
        tag := t.tag
        length := t.length
        step := t.step
        stepSize := t.stepSize
        topIdx := t.topIdx
        bottomIdx := t.bottomIdx } := by
  induction fuel generalizing s n with
  | zero =>
    by_cases hd : s.tag = .done
    · rw [runLoop_done hd] at h
      cases h
      exact ⟨hd, le_rfl, rfl⟩
    · rw [runLoop_zero hd] at h
      cases h
  | succ fuel ih =>
    by_cases hd : s.tag = .done
    · rw [runLoop_done hd] at h
      cases h
      exact ⟨hd, Nat.zero_le _, rfl⟩
    · rw [runLoop_succ hd] at h
      cases he : engineStep s with
      | error f => simp [he] at h
      | ok u =>
        simp only [he, except_map_ok_iff] at h
        obtain ⟨⟨v, k⟩, hv, hk⟩ := h
        cases hk
        obtain ⟨h1, h2, h3⟩ := ih hv
        refine ⟨h1, Nat.succ_le_succ h2, ?_⟩
        rw [engineStep_only he] at h3
        exact h3

/-! ### The commands STEP and RUN -/

theorem execStep_next_iff {s t : State} :
    execStep s = .next t ↔
      (s.kind = .none ∧ t = { s with err := s.err ||| 0b01000, resp := some ⟨.noEngine, 0, 0⟩ }) ∨
        (s.kind ≠ .none ∧ ∃ s', engineStep s = .ok s' ∧ t = { s' with resp := some ⟨.ok, 0, 0⟩ }) := by
  unfold execStep
  by_cases hk : s.kind = .none
  · simp [hk, raise, errBit, @eq_comm _ _ t]
  · cases he : engineStep s <;> simp [hk, respond, @eq_comm _ _ t]

theorem execStep_fault_iff {s : State} {f : Fault} :
    execStep s = .fault f ↔ s.kind ≠ .none ∧ engineStep s = .error f := by
  unfold execStep
  by_cases hk : s.kind = .none
  · simp [hk, raise]
  · cases he : engineStep s <;> simp [hk, respond]

theorem execRun_next_iff {s t : State} :
    execRun s = .next t ↔
      (s.kind = .none ∧ t = { s with err := s.err ||| 0b01000, resp := some ⟨.noEngine, 0, 0⟩ }) ∨
        (s.kind ≠ .none ∧ ∃ u n, runLoop (totalSteps s.cfg) s = .ok (u, n) ∧
          t = { u with resp := some ⟨.ok, resNat n, 0⟩ }) := by
  unfold execRun
  by_cases hk : s.kind = .none
  · simp [hk, raise, errBit, @eq_comm _ _ t]
  · rcases he : runLoop (totalSteps s.cfg) s with f | ⟨u, n⟩
    · simp [hk]
    · simp only [hk, if_false, respond, Host.Outcome.next.injEq, false_and, false_or, ne_eq, not_false_eq_true,
        true_and, Except.ok.injEq, Prod.mk.injEq]
      exact ⟨fun h => ⟨u, n, ⟨rfl, rfl⟩, h.symm⟩, by rintro ⟨_, _, ⟨rfl, rfl⟩, rfl⟩; rfl⟩

theorem execRun_fault_iff {s : State} {f : Fault} :
    execRun s = .fault f ↔ s.kind ≠ .none ∧ runLoop (totalSteps s.cfg) s = .error f := by
  unfold execRun
  by_cases hk : s.kind = .none
  · simp [hk, raise]
  · cases he : runLoop (totalSteps s.cfg) s <;> simp [hk, respond]

end Sys2Proof.Machine
end

