-- ==== Sys2Proof/Laws/Float.lean ====
section
/-! SUPPORT. What the arithmetic's building blocks do: the fields of a packed word, the top-bit search, and
that `roundMag` rounds to nearest, ties to even, and is monotone. -/

namespace Sys2Proof.Machine

/-! ### Fields -/

theorem infMag_lt (p : Prec) : infMag p < 2 ^ signPos p := by cases p <;> decide

theorem packMag_toNat (p : Prec) (neg : Bool) {m : Nat} (h : m < 2 ^ signPos p) :
    (packMag p neg m).toNat = (if neg then 2 ^ signPos p else 0) + m := by
  have hp : 2 ^ signPos p + 2 ^ signPos p ≤ 2 ^ 64 := by cases p <;> decide
  simp only [packMag, BitVec.toNat_ofNat]
  apply Nat.mod_eq_of_lt
  split <;> omega

@[simp] theorem magOf_packMag (p : Prec) (neg : Bool) {m : Nat} (h : m < 2 ^ signPos p) :
    magOf p (packMag p neg m) = m := by
  rw [magOf, packMag_toNat p neg h]
  cases neg <;> simp [Nat.mod_eq_of_lt h]

@[simp] theorem signOf_packMag (p : Prec) (neg : Bool) {m : Nat} (h : m < 2 ^ signPos p) :
    signOf p (packMag p neg m) = neg := by
  rw [signOf, packMag_toNat p neg h]
  cases neg
  · simp [Nat.testBit_lt_two_pow h]
  · simp [Nat.testBit_two_pow_add_eq, Nat.testBit_lt_two_pow h]

theorem fitsT_packMag (p : Prec) (neg : Bool) {m : Nat} (h : m < 2 ^ signPos p) :
    fitsT p (packMag p neg m) = true := by
  rw [fitsT, packMag_toNat p neg h, decide_eq_true_eq, Nat.pow_succ]
  cases neg <;> simp <;> omega

/-- negT flips bit `signPos` and no other (R221). -/
theorem negT_toNat (p : Prec) (a : Word) : (negT p a).toNat = a.toNat ^^^ 2 ^ signPos p := by
  cases p <;> simp [negT, signPos, expBits, fracBits]

@[simp] theorem signOf_negT (p : Prec) (a : Word) : signOf p (negT p a) = !signOf p a := by
  simp [signOf, negT_toNat, Nat.testBit_xor, Nat.testBit_two_pow_self]

@[simp] theorem magOf_negT (p : Prec) (a : Word) : magOf p (negT p a) = magOf p a := by
  simp [magOf, negT_toNat, Nat.xor_mod_two_pow]

@[simp] theorem isInf_negT (p : Prec) (a : Word) : isInf p (negT p a) = isInf p a := by simp [isInf]

@[simp] theorem isNaN_negT (p : Prec) (a : Word) : isNaN p (negT p a) = isNaN p a := by simp [isNaN]

theorem magOf_lt (p : Prec) (w : Word) : magOf p w < 2 ^ signPos p := Nat.mod_lt _ (Nat.two_pow_pos _)

/-! ### The top-bit search -/

theorem log2_eq_of {n l : Nat} (h1 : 2 ^ l ≤ n) (h2 : n < 2 ^ (l + 1)) : Nat.log2 n = l := by
  have hn : n ≠ 0 := by
    rintro rfl
    exact absurd h1 (by simp)
  exact (Nat.log2_eq_iff hn).mpr ⟨h1, h2⟩

/-- The search finds the highest set bit. -/
theorem topBit_eq_log2 (j : Nat) {n : Nat} (h : n < 2 ^ 2 ^ j) : topBit j n = Nat.log2 n := by
  induction j generalizing n with
  | zero =>
    have : n = 0 ∨ n = 1 := by
      simp at h
      omega
    rcases this with rfl | rfl <;> decide
  | succ j ih =>
    unfold topBit
    have hpos : 0 < 2 ^ 2 ^ j := Nat.two_pow_pos _
    split
    · next h0 =>
      exact ih (by
        rcases Nat.div_eq_zero_iff.mp h0 with h | h
        · omega
        · exact h)
    · next h0 =>
      have hlt : n / 2 ^ 2 ^ j < 2 ^ 2 ^ j := by
        apply Nat.div_lt_of_lt_mul
        rw [← Nat.pow_add, ← Nat.two_mul, ← Nat.pow_succ']
        exact h
      rw [ih hlt]
      symm
      apply log2_eq_of
      · rw [Nat.pow_add]
        calc 2 ^ 2 ^ j * 2 ^ Nat.log2 (n / 2 ^ 2 ^ j)
            ≤ 2 ^ 2 ^ j * (n / 2 ^ 2 ^ j) := Nat.mul_le_mul_left _ (Nat.log2_self_le h0)
          _ ≤ n := Nat.mul_div_le _ _
      · rw [Nat.add_assoc, Nat.pow_add]
        have := @Nat.lt_log2_self (n / 2 ^ 2 ^ j)
        calc n < 2 ^ 2 ^ j * (n / 2 ^ 2 ^ j + 1) := Nat.lt_mul_div_succ n hpos
          _ ≤ 2 ^ 2 ^ j * 2 ^ (Nat.log2 (n / 2 ^ 2 ^ j) + 1) := Nat.mul_le_mul_left _ this

theorem ilog2_eq_log2 {n : Nat} (h : n < 2 ^ 2 ^ 13) : ilog2 n = Nat.log2 n := topBit_eq_log2 13 h

/-! ### Rounding -/

theorem fracBits_pos (p : Prec) : 0 < fracBits p := by cases p <;> decide

/-- The magnitude of the fields u·2^frac + q, where q carries its own leading bit. -/
theorem scaledMag_raw (p : Prec) {u q : Nat} (hlo : u = 0 ∨ 2 ^ fracBits p ≤ q)
    (hhi : q ≤ 2 ^ (fracBits p + 1)) : scaledMag p (u * 2 ^ fracBits p + q) = q * 2 ^ u := by
  have hF : 0 < 2 ^ fracBits p := Nat.two_pow_pos _
  unfold scaledMag
  generalize hFe : 2 ^ fracBits p = F at *
  rw [Nat.pow_succ, hFe] at hhi
  by_cases hq : q < F
  · have hu : u = 0 := by omega
    subst hu
    simp [Nat.div_eq_of_lt hq, Nat.mod_eq_of_lt hq]
  · by_cases hq2 : q < 2 * F
    · have hd : (u * F + q) / F = u + 1 := by
        rw [Nat.add_comm, Nat.add_mul_div_right _ _ hF, show q / F = 1 from ?_, Nat.add_comm]
        exact Nat.div_eq_of_lt_le (by omega) (by omega)
      have hm : (u * F + q) % F = q - F := by
        rw [Nat.add_comm, Nat.add_mul_mod_self_right, Nat.mod_eq_sub_mod (by omega),
          Nat.mod_eq_of_lt (by omega)]
      simp only [hd, hm, Nat.add_sub_cancel, Nat.succ_ne_zero, if_false]
      rw [show F + (q - F) = q by omega]
    · have hq3 : q = 2 * F := by omega
      subst hq3
      rw [show u * F + 2 * F = (u + 2) * F by ring]
      simp only [Nat.mul_div_cancel _ hF, Nat.mul_mod_left, Nat.add_zero]
      rw [if_neg (by omega), show u + 2 - 1 = u + 1 by omega, Nat.pow_succ]
      ring

/-- Every field pattern is u·2^frac + q with its leading bit in q. -/
theorem exists_raw (p : Prec) (m : Nat) :
    ∃ u q, m = u * 2 ^ fracBits p + q ∧ (u = 0 ∨ 2 ^ fracBits p ≤ q) ∧ q < 2 ^ (fracBits p + 1) := by
  have hF : 0 < 2 ^ fracBits p := Nat.two_pow_pos _
  have hdm := Nat.div_add_mod' m (2 ^ fracBits p)
  have hlt := Nat.mod_lt m hF
  rw [Nat.pow_succ]
  rcases Nat.eq_zero_or_pos (m / 2 ^ fracBits p) with h | h
  · exact ⟨0, m, by simp, .inl rfl, by rw [h] at hdm; omega⟩
  · obtain ⟨e, he⟩ := Nat.exists_eq_succ_of_ne_zero h.ne'
    refine ⟨e, 2 ^ fracBits p + m % 2 ^ fracBits p, ?_, .inr (by omega), by omega⟩
    rw [he, Nat.succ_mul] at hdm
    omega

/-- A larger field pattern is a larger magnitude. -/
theorem scaledMag_strictMono (p : Prec) : StrictMono (scaledMag p) := by
  apply strictMono_nat_of_lt_succ
  intro m
  obtain ⟨u, q, rfl, hlo, hhi⟩ := exists_raw p m
  rw [Nat.add_assoc, scaledMag_raw p hlo hhi.le, scaledMag_raw p (by omega) hhi]
  exact Nat.mul_lt_mul_of_pos_right (Nat.lt_succ_self q) (Nat.two_pow_pos u)

/-- `rneShift` is the nearest multiple of 2^sh, the even one at a tie. -/
theorem rneShift_nearest (n sh q' : Nat) :
    let v := rneShift n sh * 2 ^ sh
    let v' := q' * 2 ^ sh
    (v - n) + (n - v) < (v' - n) + (n - v') ∨
      ((v - n) + (n - v) = (v' - n) + (n - v') ∧ (q' = rneShift n sh ∨ rneShift n sh % 2 = 0)) := by
  have hP : 0 < 2 ^ sh := Nat.two_pow_pos sh
  have hdm := Nat.div_add_mod' n (2 ^ sh)
  have hlt := Nat.mod_lt n hP
  intro v v'
  obtain ⟨q, hq⟩ : ∃ q, q = n / 2 ^ sh := ⟨_, rfl⟩
  obtain ⟨r, hr⟩ : ∃ r, r = n % 2 ^ sh := ⟨_, rfl⟩
  have hv' : v' = q' * 2 ^ sh := rfl
  have hv : v = rneShift n sh * 2 ^ sh := rfl
  clear_value v v'
  simp only [rneShift, ← hq, ← hr] at hv ⊢
  rw [← hq, ← hr] at hdm
  rw [← hr] at hlt
  clear hq hr
  generalize 2 ^ sh = P at *
  have key : q' = q ∨ q' = q + 1 ∨ q' * P + P ≤ q * P ∨ q * P + 2 * P ≤ q' * P := by
    rcases Nat.lt_trichotomy q' q with h | h | h
    · right; right; left
      have := Nat.mul_le_mul_right P (Nat.succ_le_of_lt h)
      rw [Nat.succ_mul] at this
      exact this
    · exact .inl h
    · rcases Nat.eq_or_lt_of_le (Nat.succ_le_of_lt h) with h' | h'
      · exact .inr (.inl h'.symm)
      · right; right; right
        have := Nat.mul_le_mul_right P (Nat.succ_le_of_lt h')
        rw [Nat.succ_mul, Nat.succ_mul] at this
        omega
  split
  · next hc =>
    rw [if_pos hc] at hv
    have hv2 : (q + 1) * P = q * P + P := Nat.succ_mul q P
    rcases key with rfl | rfl | h | h <;> omega
  · next hc =>
    rw [if_neg hc] at hv
    have hv2 : (q + 1) * P = q * P + P := Nat.succ_mul q P
    rcases key with rfl | rfl | h | h <;> omega

theorem rneShift_bounds (n sh : Nat) {a : Nat} :
    (a * 2 ^ sh ≤ n → a ≤ rneShift n sh) ∧ (n ≤ a * 2 ^ sh → rneShift n sh ≤ a) := by
  have hP : 0 < 2 ^ sh := Nat.two_pow_pos sh
  have hdm := Nat.div_add_mod' n (2 ^ sh)
  have hlt := Nat.mod_lt n hP
  constructor
  · intro h
    have : a ≤ n / 2 ^ sh := (Nat.le_div_iff_mul_le hP).mpr h
    unfold rneShift
    simp only
    split <;> omega
  · intro h
    have h1 : n / 2 ^ sh ≤ a := Nat.div_le_of_le_mul (by rwa [Nat.mul_comm] at h)
    unfold rneShift
    simp only
    split
    · next hc =>
      rcases Nat.lt_or_ge (n / 2 ^ sh) a with h2 | h2
      · exact h2
      · have : n / 2 ^ sh = a := by omega
        rw [this] at hdm
        omega
    · exact h1

/-- The fields before the overflow to ∞. -/
def rawRound (p : Prec) (k n : Nat) : Nat :=
  (max (ilog2 n - fracBits p) k - k) * 2 ^ fracBits p + rneShift n (max (ilog2 n - fracBits p) k)

theorem roundMag_eq (p : Prec) (k n : Nat) : roundMag p k n = min (rawRound p k n) (infMag p) := rfl

/-- Before the overflow the rounding is to nearest over a range without end, the even fields at a tie. -/
theorem rawRound_nearest (p : Prec) (k : Nat) {n : Nat} (hn : n < 2 ^ 2 ^ 13) (m' : Nat) :
    offBy p k n (rawRound p k n) < offBy p k n m' ∨
      (offBy p k n (rawRound p k n) = offBy p k n m' ∧ (m' = rawRound p k n ∨ rawRound p k n % 2 = 0)) := by
  obtain ⟨sh, hsh⟩ : ∃ sh, sh = max (ilog2 n - fracBits p) k := ⟨_, rfl⟩
  have hraw : rawRound p k n = (sh - k) * 2 ^ fracBits p + rneShift n sh := by rw [rawRound, ← hsh]
  have hk : k ≤ sh := by omega
  rw [ilog2_eq_log2 hn] at hsh
  have hF : 0 < fracBits p := fracBits_pos p
  -- n lies below 2^(frac+1+sh), and above 2^(frac+sh) where the exponent is not the least
  have hhi : n ≤ 2 ^ (fracBits p + 1) * 2 ^ sh := by
    rw [← Nat.pow_add]
    exact (Nat.lt_log2_self).le.trans (Nat.pow_le_pow_right (by omega) (by omega))
  have hlo : sh = k ∨ 2 ^ fracBits p * 2 ^ sh ≤ n := by
    rcases Nat.eq_or_lt_of_le hk with h | h
    · exact .inl h.symm
    · right
      rw [← Nat.pow_add]
      have h0 : n ≠ 0 := by
        rintro rfl
        simp at hsh
        omega
      exact (Nat.pow_le_pow_right (by omega) (by omega)).trans (Nat.log2_self_le h0)
  have hqhi : rneShift n sh ≤ 2 ^ (fracBits p + 1) := (rneShift_bounds n sh).2 hhi
  have hqlo : sh - k = 0 ∨ 2 ^ fracBits p ≤ rneShift n sh := by
    rcases hlo with h | h
    · left; omega
    · right; exact (rneShift_bounds n sh).1 h
  have hval : scaledMag p (rawRound p k n) * 2 ^ k = rneShift n sh * 2 ^ sh := by
    rw [hraw, scaledMag_raw p hqlo hqhi, Nat.mul_assoc, ← Nat.pow_add, Nat.sub_add_cancel hk]
  have hpar : rawRound p k n % 2 = rneShift n sh % 2 := by
    rw [hraw]
    obtain ⟨f, hf⟩ := Nat.exists_eq_succ_of_ne_zero hF.ne'
    rw [hf, Nat.pow_succ, ← Nat.mul_assoc, Nat.add_comm, Nat.add_mul_mod_self_right]
  -- the other candidate
  obtain ⟨u', q', rfl, hlo', hhi'⟩ := exists_raw p m'
  have hval' : scaledMag p (u' * 2 ^ fracBits p + q') * 2 ^ k = q' * 2 ^ (u' + k) := by
    rw [scaledMag_raw p hlo' hhi'.le, Nat.mul_assoc, ← Nat.pow_add]
  by_cases hu : sh ≤ u' + k
  · -- it is a multiple of 2^sh
    have hmul : q' * 2 ^ (u' + k) = (q' * 2 ^ (u' + k - sh)) * 2 ^ sh := by
      rw [Nat.mul_assoc, ← Nat.pow_add, Nat.sub_add_cancel hu]
    rcases rneShift_nearest n sh (q' * 2 ^ (u' + k - sh)) with h | ⟨h, h2⟩
    · left
      rw [offBy, offBy, hval, hval', hmul]
      exact h
    · right
      refine ⟨by rw [offBy, offBy, hval, hval', hmul]; exact h, ?_⟩
      rcases h2 with h2 | h2
      · left
        apply (scaledMag_strictMono p).injective
        have h3 : scaledMag p (u' * 2 ^ fracBits p + q') * 2 ^ k = scaledMag p (rawRound p k n) * 2 ^ k := by
          rw [hval, hval', hmul, h2]
        exact Nat.eq_of_mul_eq_mul_right (Nat.two_pow_pos k) h3
      · right
        rw [hpar]
        exact h2
  · -- it lies below the leading bit of the result's binade
    left
    have hnlo : 2 ^ fracBits p * 2 ^ sh ≤ n := by
      rcases hlo with h | h
      · omega
      · exact h
    have hbelow : q' * 2 ^ (u' + k) < 2 ^ fracBits p * 2 ^ sh := by
      obtain ⟨d, hd⟩ := Nat.exists_eq_add_of_lt (Nat.lt_of_not_le hu)
      calc q' * 2 ^ (u' + k) < 2 ^ (fracBits p + 1) * 2 ^ (u' + k) :=
            Nat.mul_lt_mul_of_pos_right hhi' (Nat.two_pow_pos _)
        _ = 2 ^ (fracBits p + 1 + (u' + k)) := (Nat.pow_add _ _ _).symm
        _ ≤ 2 ^ (fracBits p + sh) := Nat.pow_le_pow_right (by omega) (by omega)
        _ = 2 ^ fracBits p * 2 ^ sh := Nat.pow_add _ _ _
    rw [offBy, offBy, hval, hval']
    rcases rneShift_nearest n sh (2 ^ fracBits p) with h | ⟨h, -⟩ <;> omega

/-- `roundMag` rounds to nearest, ties to even, with overflow to ∞ (R221). -/
theorem roundMag_nearestEven (p : Prec) (k : Nat) {n : Nat} (hn : n < 2 ^ 2 ^ 13) :
    NearestEven p k n (roundMag p k n) := by
  rw [roundMag_eq]
  refine ⟨Nat.min_le_right _ _, fun m' hm' => ?_⟩
  have hbase := rawRound_nearest p k hn
  rcases Nat.le_total (rawRound p k n) (infMag p) with h | h
  · rw [Nat.min_eq_left h]
    exact hbase m'
  · rw [Nat.min_eq_right h]
    rcases Nat.eq_or_lt_of_le hm' with rfl | hlt
    · exact .inr ⟨rfl, .inl rfl⟩
    rcases Nat.eq_or_lt_of_le h with heq | hgt
    · rw [heq]
      exact hbase m'
    left
    have h1 := Nat.mul_lt_mul_of_pos_right (scaledMag_strictMono p hlt) (Nat.two_pow_pos k)
    have h2 := Nat.mul_lt_mul_of_pos_right (scaledMag_strictMono p hgt) (Nat.two_pow_pos k)
    have h3 := hbase (infMag p)
    unfold offBy at h3 ⊢
    omega

/-- Rounding is monotone. -/
theorem roundMag_mono (p : Prec) (k : Nat) {n n' : Nat} (hn : n' < 2 ^ 2 ^ 13) (h : n ≤ n') :
    roundMag p k n ≤ roundMag p k n' := by
  rcases Nat.eq_or_lt_of_le h with rfl | hlt
  · exact le_rfl
  by_contra hc
  have hs := Nat.mul_lt_mul_of_pos_right (scaledMag_strictMono p (Nat.lt_of_not_le hc)) (Nat.two_pow_pos k)
  obtain ⟨hi, h1⟩ := roundMag_nearestEven p k (h.trans_lt hn)
  obtain ⟨hi', h2⟩ := roundMag_nearestEven p k hn
  have a := h1 _ hi'
  have b := h2 _ hi
  unfold offBy at a b
  omega

end Sys2Proof.Machine
end

