-- ==== Sys2Proof/Laws/PerInstr.lean ====
section
/-! SUPPORT. Statements about every instruction as syntax, one lemma per constructor. EncodedWord: the command
word of a well-formed instruction carries its opcode in CMD[31:24] and its index, unchanged, in CMD[23:0]
(30_encoding.md R101, R104). -/

namespace Sys2Proof.Laws

theorem opcOf_ofNat {o x : Nat} (ho : o < 256) (hx : x < 2 ^ 24) :
    opcOf (BitVec.ofNat 32 (o * 2 ^ 24 + x)) = o := by
  simp only [opcOf, BitVec.toNat_ofNat]
  omega

theorem idxOf_ofNat {o x : Nat} (hx : x < 2 ^ 24) :
    idxOf (BitVec.ofNat 32 (o * 2 ^ 24 + x)) = x := by
  simp only [idxOf, BitVec.toNat_ofNat]
  omega

/-- What EncodedWord says of one instruction. -/
def EncodedWord.Statement (i : Instr) : Prop :=
  i.wf = true → opcOf (encode i).cmd = opcode i ∧ idxOf (encode i).cmd = idxField i

/-- The one argument behind every constructor's lemma. -/
theorem encodedWord_of {i : Instr} (ho : opcode i < 256) (hx : i.wf = true → idxField i < 2 ^ 24) :
    EncodedWord.Statement i :=
  fun h => ⟨opcOf_ofNat ho (hx h), idxOf_ofNat (hx h)⟩

theorem EncodedWord.nop : EncodedWord.Statement .nop :=
  encodedWord_of (by simp [opcode]) (by simp [idxField])

theorem EncodedWord.statRd : EncodedWord.Statement .statRd :=
  encodedWord_of (by simp [opcode]) (by simp [idxField])

theorem EncodedWord.errClr : EncodedWord.Statement .errClr :=
  encodedWord_of (by simp [opcode]) (by simp [idxField])

theorem EncodedWord.bufWr (i : Nat) (opa opb : Word) : EncodedWord.Statement (.bufWr i opa opb) :=
  encodedWord_of (by simp [opcode]) (by simp [Instr.wf, idxFits, idxField])

theorem EncodedWord.bufRd (i : Nat) : EncodedWord.Statement (.bufRd i) :=
  encodedWord_of (by simp [opcode]) (by simp [Instr.wf, idxFits, idxField])

theorem EncodedWord.fwdNew : EncodedWord.Statement .fwdNew :=
  encodedWord_of (by simp [opcode]) (by simp [idxField])

theorem EncodedWord.invNew : EncodedWord.Statement .invNew :=
  encodedWord_of (by simp [opcode]) (by simp [idxField])

theorem EncodedWord.step : EncodedWord.Statement .step :=
  encodedWord_of (by simp [opcode]) (by simp [idxField])

theorem EncodedWord.run : EncodedWord.Statement .run :=
  encodedWord_of (by simp [opcode]) (by simp [idxField])

theorem EncodedWord.isDone : EncodedWord.Statement .isDone :=
  encodedWord_of (by simp [opcode]) (by simp [idxField])

theorem EncodedWord.cancel : EncodedWord.Statement .cancel :=
  encodedWord_of (by simp [opcode]) (by simp [idxField])

theorem EncodedWord.curRd (sel : Nat) : EncodedWord.Statement (.curRd sel) :=
  encodedWord_of (by simp [opcode]) (by simp [Instr.wf, idxFits, idxField])

theorem EncodedWord.sin (opa : Word) : EncodedWord.Statement (.sin opa) :=
  encodedWord_of (by simp [opcode]) (by simp [idxField])

theorem EncodedWord.revbits (x : Nat) : EncodedWord.Statement (.revbits x) :=
  encodedWord_of (by simp [opcode]) (by simp [Instr.wf, idxFits, idxField])

theorem EncodedWord.twRd (i : Nat) : EncodedWord.Statement (.twRd i) :=
  encodedWord_of (by simp [opcode]) (by simp [Instr.wf, idxFits, idxField])

theorem EncodedWord.atanRd (i : Nat) : EncodedWord.Statement (.atanRd i) :=
  encodedWord_of (by simp [opcode]) (by simp [Instr.wf, idxFits, idxField])

theorem EncodedWord.gainRd (i : Nat) : EncodedWord.Statement (.gainRd i) :=
  encodedWord_of (by simp [opcode]) (by simp [Instr.wf, idxFits, idxField])

end Sys2Proof.Laws
end

