-- ==== Sys2Proof/Tests/Slice0.lean ====
section
/-! SUPPORT. Tests on single commands, and for each statement with hypotheses a witness: concrete values that
meet them all. Expected values are the spec's own examples and vectors (95_test_vectors.md V1 to V9), or are
written out by hand from the encoding tables. -/

namespace Sys2Proof.Tests

open Sys2Proof.Machine

/-! ### Helpers -/

/-- The next state of an outcome. -/
def nextOf (o : Host.Outcome State Fault Refusal) : Option State :=
  match o with
  | .next s => some s
  | .fault _ => none
  | .refused _ => none

/-- The fault of an outcome. -/
def faultOf (o : Host.Outcome State Fault Refusal) : Option Fault :=
  match o with
  | .next _ => none
  | .fault f => some f
  | .refused _ => none

/-- The response of an outcome's next state. -/
def respOf (o : Host.Outcome State Fault Refusal) : Option Response := (nextOf o).bind (·.resp)

/-- Code OK with these result words. -/
def okResp (r0 r1 : Word) : Option Response := some ⟨.ok, r0, r1⟩

/-- This error code and zero result words. -/
def errResp (c : RespCode) : Option Response := some ⟨c, 0, 0⟩

/-- The instance of V7 and P1: LOG2N = 2, B64, after reset. -/
def blank : State := State.resetOf ⟨2, .b64⟩ defaultAtan defaultGain

/-- TW of LOG2N = 3, B64, as V2 lists it. -/
def tw3 : List Word := [0, 0x3FE6A09E667F3BCF]

/-- LOG2N = 3, B64, after reset, with TW as V2 lists it. -/
def blank3 : State := { blank with cfg := ⟨3, .b64⟩, tw := tw3 }

/-- LOG2N = 3, B32, after reset, with TW as V2 lists it. -/
def blank3s : State := { blank with cfg := ⟨3, .b32⟩, tw := [0, 0x3F3504F3] }

/-- The state with an engine: kind, tag, length, step, step_size, top_idx, bottom_idx. -/
def eng (s : State) (k : Kind) (t : Tag) (l st ss top bot : Nat) : State :=
  { s with kind := k, tag := t, length := l, step := st, stepSize := ss, topIdx := top, bottomIdx := bot }

/-- What V6 tabulates after a step: the tag and the cursors. -/
def cursors (o : Host.Outcome State Fault Refusal) : Option (Tag × List Nat) :=
  (nextOf o).map fun t => (t.tag, [t.length, t.step, t.stepSize, t.topIdx, t.bottomIdx])

/-- The sample at an index after a step. -/
def sampleAt (i : Nat) (o : Host.Outcome State Fault Refusal) : Option Sample :=
  (nextOf o).bind fun t => bufGet t.buf i

/-- [1, 2, 3, 4] as B64 samples. -/
def ramp : List (Nat × Sample) :=
  [(0, ⟨0x3FF0000000000000, 0⟩), (1, ⟨0x4000000000000000, 0⟩), (2, ⟨0x4008000000000000, 0⟩),
   (3, ⟨0x4010000000000000, 0⟩)]

/-- LOG2N = 2 with the ramp in the buffer and no engine. -/
def loaded : State := { blank with buf := ramp }

/-- LOG2N = 3 with (1, 2) at entries 1 and 3 and (3, 5) at 5 and 7, the inputs of V5. -/
def pairs : State :=
  { blank3 with
    buf := [(1, ⟨0x3FF0000000000000, 0x4000000000000000⟩), (3, ⟨0x3FF0000000000000, 0x4000000000000000⟩),
      (5, ⟨0x4008000000000000, 0x4014000000000000⟩), (7, ⟨0x4008000000000000, 0x4014000000000000⟩)] }

/-- A forward engine just constructed over the ramp (V6.1). -/
def fwdStart : State := eng loaded .fwd .step1 1 0 1 0 0

/-- An inverse engine just constructed over the ramp (V6.2's cursors). -/
def invStart : State := eng loaded .inv .reorder 1 0 1 0 0

/-- A forward engine before its last transition (V6.1, step 8). -/
def fwdLast : State := eng loaded .fwd .reorder 1 0 1 2 2

/-- A finished forward engine (V6.1). -/
def fwdEnd : State := eng loaded .fwd .done 1 0 1 3 1

theorem next_of_isSome {o : Host.Outcome State Fault Refusal} (h : (nextOf o).isSome = true) :
    ∃ t, o = .next t := by
  cases o <;> simp_all [nextOf]

theorem fault_of_isSome {o : Host.Outcome State Fault Refusal} (h : (faultOf o).isSome = true) :
    ∃ f, o = .fault f := by
  cases o <;> simp_all [faultOf]

/-! ### WellFormed: an index that does not fit IDX is refused -/

theorem test_wf_refuses_wide_indices :
    (Instr.bufWr (2 ^ 24) 0 0).wf = false ∧ (Instr.bufRd (2 ^ 24)).wf = false ∧
      (Instr.curRd (2 ^ 24)).wf = false ∧ (Instr.revbits (2 ^ 24)).wf = false ∧
      (Instr.twRd (2 ^ 24)).wf = false ∧ (Instr.atanRd (2 ^ 24)).wf = false ∧
      (Instr.gainRd (2 ^ 24)).wf = false := by decide

theorem test_wf_admits_largest_index :
    (Instr.bufWr (2 ^ 24 - 1) 0 0).wf = true ∧ (Instr.gainRd (2 ^ 24 - 1)).wf = true := by decide

/-! ### Decoding: words written out from R101 and R104, one for each command, unused fields filled with junk -/

theorem test_decode_host_commands :
    decode ⟨0x00000000, 0, 0⟩ = .ok .nop ∧ decode ⟨0x01ABCDEF, 1, 2⟩ = .ok .statRd ∧
      decode ⟨0x02000001, 3, 4⟩ = .ok .errClr ∧
      decode ⟨0x08000003, 0x4010000000000000, 0⟩ = .ok (.bufWr 3 0x4010000000000000 0) ∧
      decode ⟨0x09FFFFFF, 5, 6⟩ = .ok (.bufRd 16777215) := ⟨rfl, rfl, rfl, rfl, rfl⟩

theorem test_decode_engine_commands :
    decode ⟨0x10000000, 0, 0⟩ = .ok .fwdNew ∧ decode ⟨0x11000007, 0, 0⟩ = .ok .invNew ∧
      decode ⟨0x12000000, 0, 0⟩ = .ok .step ∧ decode ⟨0x13000000, 0, 9⟩ = .ok .run ∧
      decode ⟨0x14000000, 0, 0⟩ = .ok .isDone ∧ decode ⟨0x15FFFFFF, 8, 8⟩ = .ok .cancel ∧
      decode ⟨0x16000004, 0, 0⟩ = .ok (.curRd 4) := ⟨rfl, rfl, rfl, rfl, rfl, rfl, rfl⟩

theorem test_decode_utility_commands :
    decode ⟨0x20FFFFFF, 0x3FE0000000000000, 7⟩ = .ok (.sin 0x3FE0000000000000) ∧
      decode ⟨0x21000013, 0, 0⟩ = .ok (.revbits 19) ∧ decode ⟨0x22000001, 0, 0⟩ = .ok (.twRd 1) ∧
      decode ⟨0x2300003F, 0, 0⟩ = .ok (.atanRd 63) ∧ decode ⟨0x24000040, 0, 0⟩ = .ok (.gainRd 64) :=
  ⟨rfl, rfl, rfl, rfl, rfl⟩

/-- The edges of the ranges R105 lists. -/
theorem test_decode_refuses_illegal_opcodes :
    [0x03, 0x07, 0x0A, 0x0F, 0x17, 0x1F, 0x25, 0x30, 0xFF].all
      (fun o => (decode ⟨BitVec.ofNat 32 (o * 2 ^ 24 + 0x123456), 0, 0⟩).toOption.isNone) = true := by decide

/-- CMD in bits 31..0, OPA in 95..32, OPB in 159..96. -/
theorem test_decodeTableWord_splits_words :
    decodeTableWord 160 (0x08000003 + 0x4010000000000000 * 2 ^ 32 + 5 * 2 ^ 96) =
        some (.bufWr 3 0x4010000000000000 5) ∧
      decodeTableWord 32 0x16000002 = some (.curRd 2) ∧ decodeTableWord 32 0x03000000 = none := by decide

/-- The first step from reset runs the word placed by withFetchWord. -/
theorem test_withFetchWord_runs_the_word :
    respOf (step (State.reset.withFetchWord 32 0x09000008)) = errResp .indexRange ∧
      cursors (step (State.reset.withFetchWord 32 0x10000000)) = some (.step1, [2, 0, 1, 0, 0]) := by
  decide +kernel

/-! ### Reset -/

theorem test_reset_memory_is_canonical : Memory.wf State.reset.cfg State.reset.buf = true := by decide

/-- STATUS after reset: V7 and R131's example. -/
theorem test_reset_status :
    status blank = 0x00220000 ∧ status { blank with cfg := ⟨2, .b32⟩ } = 0x00020000 ∧
      status blank3s = 0x00030000 ∧ status { blank with cfg := ⟨24, .b64⟩ } = 0x00380000 ∧
      status { blank with cfg := ⟨6, .b64⟩ } = 0x00260000 := by decide

/-! ### Host and buffer commands -/

/-- P2 and V7: an inverse engine at REORDER, without and with ERR_OWNERSHIP. -/
theorem test_statRd :
    respOf (exec .statRd invStart) = okResp 0x0022005E 0 ∧
      respOf (exec .statRd { invStart with err := 0b00100 }) = okResp 0x0022045E 0 ∧
      respOf (exec .statRd fwdEnd) = okResp 0x002200A1 0 := by decide

/-- R132's example, with every sticky bit set. -/
theorem test_errClr : (nextOf (exec .errClr { blank with err := 0b11111 })).map (·.err) = some 0 := by decide

/-- R133's example. -/
theorem test_bufWr_then_bufRd :
    ((nextOf (exec (.bufWr 3 0x4010000000000000 0) blank)).bind fun t => respOf (exec (.bufRd 3) t)) =
      okResp 0x4010000000000000 0 := by decide

/-- V8: with B32 the upper halves are ignored; V7: OWNERSHIP before INDEX_RANGE. -/
theorem test_bufWr_corners :
    ((nextOf (exec (.bufWr 0 0xFFFFFFFF3F800000 0xDEADBEEF00000000) blank3s)).bind fun t =>
        respOf (exec (.bufRd 0) t)) = okResp 0x000000003F800000 0 ∧
      respOf (exec (.bufWr 9 0 0) fwdStart) = errResp .ownership ∧
      respOf (exec (.bufWr 4 0 0) blank) = errResp .indexRange := by decide

/-- R353, and V8: index 0xFFFFFF is 16777215. -/
theorem test_bufRd_corners :
    faultOf (exec (.bufRd 3) blank) = some (.unwrittenRead 3) ∧
      respOf (exec (.bufRd 0xFFFFFF) blank) = errResp .indexRange ∧
      respOf (exec (.bufRd 1) fwdStart) = errResp .ownership := by decide

/-! ### Utility and table commands -/

/-- V3: 0.5, and −0.0. -/
theorem test_sin_values :
    cordicSin defaultAtan defaultGain 0x3FE0000000000000 = 0x3FDEAEE8744B05EF ∧
      cordicSin defaultAtan defaultGain 0x8000000000000000 = 0x3C1A57CDFE855DE3 := by decide +kernel

/-- V3: the rejected angles. -/
theorem test_sin_domain :
    [0x3FF921FB54442D18, 0xBFF921FB54442D18, 0x4000000000000000, 0x7FF0000000000000, 0xFFF0000000000000,
        0x7FF8000000000000, 0x7FF0000000000001].all
      (fun a => respOf (exec (.sin a) blank) == errResp .domainError) = true := by decide

/-- V4, and R212's corner cases. -/
theorem test_revbits :
    (List.range 8).map (rev ⟨3, .b64⟩) = [0, 4, 2, 6, 1, 5, 3, 7] ∧
      respOf (exec (.revbits 8) blank3) = okResp 0 0 ∧ respOf (exec (.revbits 0xFFFFFF) blank3) = okResp 7 0 ∧
      respOf (exec (.revbits 1) { blank with cfg := ⟨24, .b64⟩ }) = okResp 0x800000 0 := by decide

/-- V2: the table of LOG2N = 3, at both precisions. -/
theorem test_twiddle_tables :
    buildTw ⟨3, .b64⟩ defaultAtan defaultGain = tw3 ∧
      buildTw ⟨3, .b32⟩ defaultAtan defaultGain = [0, 0x3F3504F3] := by decide +kernel

/-- P4 and V7. -/
theorem test_twRd :
    respOf (exec (.twRd 1) blank3s) = okResp 0x3F3504F3 0 ∧
      respOf (exec (.twRd 2) blank3s) = errResp .indexRange ∧ respOf (exec (.twRd 0) blank) = okResp 0 0 ∧
      respOf (exec (.twRd 1) blank) = errResp .indexRange := by decide

/-- V3's ROM reads. -/
theorem test_atanRd :
    respOf (exec (.atanRd 0) blank) = okResp 0x3FE921FB54442D18 0 ∧
      respOf (exec (.atanRd 1) blank) = okResp 0x3FDDAC670561BB4F 0 ∧
      respOf (exec (.atanRd 63) blank) = okResp 0x3C00000000000000 0 ∧
      respOf (exec (.atanRd 64) blank) = errResp .indexRange := by decide

/-- V3's ROM reads. -/
theorem test_gainRd :
    respOf (exec (.gainRd 0) blank) = okResp 0x3FE6A09E667F3BCD 0 ∧
      respOf (exec (.gainRd 62) blank) = okResp 0x3FE36E9DB5086BCB 0 ∧
      respOf (exec (.gainRd 0xFFFFFF) blank) = errResp .indexRange := by decide

/-! ### Arithmetic -/

/-- V5's corner cases: a subnormal product, overflow, signed zeros, and ∞ + ∞; by hand from R221: 1 − ∞, the
conversion of −∞, and negT of a NaN. -/
theorem test_arithmetic_corners :
    mulT .b64 3 (invN ⟨2, .b64⟩) = 1 ∧ mulT .b64 1 (invN ⟨2, .b64⟩) = 0 ∧ mulT .b32 3 (invN ⟨2, .b32⟩) = 1 ∧
      subT .b64 0x7FEFFFFFFFFFFFFF 0xFFEFFFFFFFFFFFFF = 0x7FF0000000000000 ∧
      addT .b64 0x7FEFFFFFFFFFFFFF 0xFFEFFFFFFFFFFFFF = 0 ∧
      addT .b32 0x7F61B1E6 0x7F61B1E6 = 0x7F800000 ∧
      addT .b64 0x8000000000000000 0 = 0 ∧ subT .b64 0x8000000000000000 0 = 0x8000000000000000 ∧
      addT .b64 0x7FF0000000000000 0x7FF0000000000000 = 0x7FF0000000000000 ∧
      subT .b64 0x3FF0000000000000 0x7FF0000000000000 = 0xFFF0000000000000 ∧
      toT .b32 0xFFF0000000000000 = 0xFF800000 ∧ negT .b32 0 = 0x80000000 ∧
      negT .b64 0x7FF8000000000000 = 0xFFF8000000000000 := by decide +kernel

/-- V5's table: dif_negjrot at both precisions. -/
theorem test_kernel_difNegjrot :
    difNegjrot .b64 0x3FE6A09E667F3BCF 0x3FE6A09E667F3BCF ⟨0x3FF0000000000000, 0x4000000000000000⟩
        ⟨0x4008000000000000, 0x4014000000000000⟩ =
      (⟨0x4010000000000000, 0x401C000000000000⟩, ⟨0xBFE6A09E667F3BCE, 0x400C48C6001F0AC2⟩) ∧
    difNegjrot .b32 0x3F3504F3 0x3F3504F3 ⟨0x3F800000, 0x40000000⟩ ⟨0x40400000, 0x40A00000⟩ =
      (⟨0x40800000, 0x40E00000⟩, ⟨0xBF3504F2, 0x40624630⟩) := by decide +kernel

/-! ### Engine commands -/

/-- R250's and R280's examples. -/
theorem test_newEngine :
    cursors (exec .fwdNew blank3) = some (.step1, [2, 0, 1, 0, 0]) ∧
      cursors (exec .invNew blank3) = some (.reorder, [1, 0, 2, 0, 0]) := by decide

/-- V6.1 steps 1, 3, 6 and 8, V6.3 step 2 (pair (1, 5) of V5's inputs). -/
theorem test_step_forward :
    cursors (exec .step fwdStart) = some (.step3, [1, 0, 1, 1, 2]) ∧
      sampleAt 0 (exec .step fwdStart) = some ⟨0x4010000000000000, 0⟩ ∧
      sampleAt 2 (exec .step fwdStart) = some ⟨0xC000000000000000, 0⟩ ∧
      cursors (exec .step (eng loaded .fwd .step5 1 0 1 2 3)) = some (.step6, [1, 0, 1, 0, 3]) ∧
      cursors (exec .step fwdLast) = some (.done, [1, 0, 1, 3, 1]) ∧
      cursors (exec .step (eng pairs .fwd .step2 2 1 1 1 4)) = some (.step3, [2, 2, 1, 2, 5]) ∧
      sampleAt 5 (exec .step (eng pairs .fwd .step2 2 1 1 1 4)) =
        some ⟨0xC00C48C6001F0AC2, 0xBFE6A09E667F3BCE⟩ := by decide +kernel

/-- V6.2 steps 3 and 8, V5's dit_posjrot on the pair (3, 7), V5's dit_scale of 3·2^−1074. -/
theorem test_step_inverse :
    cursors (exec .step (eng loaded .inv .reorder 1 0 1 2 2)) = some (.step1, [1, 0, 1, 0, 1]) ∧
      cursors (exec .step (eng loaded .inv .step6 1 0 1 2 3)) = some (.done, [1, 0, 1, 2, 3]) ∧
      cursors (exec .step (eng pairs .inv .step5 2 1 1 3 6)) = some (.step6, [2, 2, 1, 4, 7]) ∧
      sampleAt 3 (exec .step (eng pairs .inv .step5 2 1 1 3 6)) =
        some ⟨0xC012A09E667F3BCF, 0x3FE2BEC333018860⟩ ∧
      sampleAt 7 (exec .step (eng pairs .inv .step5 2 1 1 3 6)) =
        some ⟨0x401AA09E667F3BCF, 0x400B504F333F9DE8⟩ ∧
      sampleAt 1 (exec .step { eng blank .inv .step1 1 0 1 0 0 with buf := [(0, ⟨3, 0⟩), (1, ⟨0, 0⟩)] }) =
        some ⟨1, 0⟩ := by decide +kernel

/-- P1: the DFT of [1, 2, 3, 4] in 8 steps. -/
theorem test_run_forward :
    respOf (exec .run fwdStart) = okResp 8 0 ∧ cursors (exec .run fwdStart) = some (.done, [1, 0, 1, 3, 1]) ∧
      (nextOf (exec .run fwdStart)).map (·.buf) =
        some [(0, ⟨0x4024000000000000, 0⟩), (1, ⟨0xC000000000000000, 0x4000000000000000⟩),
          (2, ⟨0xC000000000000000, 0⟩), (3, ⟨0xC000000000000000, 0xC000000000000000⟩)] := by decide +kernel

/-- P2: back to [1, 2, 3, 4], and V7: RUN in DONE returns 0. -/
theorem test_run_inverse :
    (nextOf (exec .run { invStart with
        buf := [(0, ⟨0x4024000000000000, 0⟩), (1, ⟨0xC000000000000000, 0x4000000000000000⟩),
          (2, ⟨0xC000000000000000, 0⟩), (3, ⟨0xC000000000000000, 0xC000000000000000⟩)] })).map (·.buf) =
        some ramp ∧
      respOf (exec .run fwdEnd) = okResp 0 0 := by decide +kernel

/-- V7. -/
theorem test_isDone_and_cancel :
    respOf (exec .isDone blank) = errResp .noEngine ∧ respOf (exec .isDone fwdEnd) = okResp 1 0 ∧
      respOf (exec .isDone fwdStart) = okResp 0 0 ∧
      (nextOf (exec .cancel fwdLast)).map (fun t => (t.kind, t.tag, t.topIdx, t.buf)) =
        some (.none, .none, 2, ramp) := by decide

/-- P3's cursor reads, and V7's selector 5. -/
theorem test_curRd :
    [0, 1, 2, 3, 4].map (fun k => (respOf (exec (.curRd k) (eng blank3 .fwd .step1 1 2 2 0 7))).map (·.res0)) =
        [some 1, some 2, some 2, some 0, some 7] ∧
      respOf (exec (.curRd 5) blank3) = errResp .indexRange := by decide

/-- R105, and V7: ILLEGAL_CMD, NO_ENGINE and OWNERSHIP in turn leave ERR = 0b01101. -/
theorem test_error_bits :
    respOf (step (blank.withTxn ⟨0xFF123456, 0, 0⟩)) = errResp .illegalCmd ∧
      errBit .illegalCmd ||| errBit .noEngine ||| errBit .ownership = 0b01101 := by decide

/-- R109: IFFT and STEPN 2 in commands; WAITDONE from the last transition takes one round. -/
theorem test_pseudo :
    expand .ifft = [.invNew, .run] ∧ expand (.stepn 2) = [.step, .step] ∧
      (nextOf (waitDone 3 fwdLast)).map (·.tag) = some .done := by decide

/-! ### Witnesses of the statements' hypotheses -/

theorem witness_ResetEventClearsState : ({ fwdStart with port := [.reset] } : State).port = .reset :: [] := rfl

theorem witness_ElaborationChecksParameters :
    ∃ s, elaborate 2 .b32 defaultAtan.toList defaultGain.toList = some s :=
  Option.isSome_iff_exists.mp (by decide)

/-- A transaction with each of the 17 opcodes, for the encoding clause of every command's statement. -/
theorem witness_opcodes :
    [0x00, 0x01, 0x02, 0x08, 0x09, 0x10, 0x11, 0x12, 0x13, 0x14, 0x15, 0x16, 0x20, 0x21, 0x22, 0x23, 0x24].all
      (fun o => opcOf (BitVec.ofNat 32 (o * 2 ^ 24 + 0xFFFFFF)) == o) = true := by decide

/-- BUF_WR and BUF_RD: active, index N, index N − 1 unwritten, index N − 1 written; the third also meets
ReadAfterWriteReturnsIt. -/
theorem witness_BufferWriteRule_BufferReadRule :
    active fwdStart = true ∧ (active blank = false ∧ blank.cfg.n ≤ 4) ∧
      (active blank = false ∧ 3 < blank.cfg.n ∧ written blank 3 = false) ∧
      (active fwdEnd = false ∧ 3 < fwdEnd.cfg.n ∧
        bufGet fwdEnd.buf 3 = some ⟨0x4010000000000000, 0⟩) := by decide

theorem witness_ReadAfterWriteReturnsIt :
    active blank = false ∧ 3 < blank.cfg.n ∧ ∃ t, exec (.bufWr 3 1 2) blank = .next t :=
  ⟨by decide, by decide, next_of_isSome (by decide)⟩

/-- The largest angle accepted and the least refused, with either sign. -/
theorem witness_SinCommandRule :
    (0x3FF921FB54442D17 : Word).toNat % 2 ^ 63 < 0x3FF921FB54442D18 ∧
      (0xBFF921FB54442D17 : Word).toNat % 2 ^ 63 < 0x3FF921FB54442D18 ∧
      0x3FF921FB54442D18 ≤ (0x3FF921FB54442D18 : Word).toNat % 2 ^ 63 ∧
      0x3FF921FB54442D18 ≤ (0xBFF921FB54442D18 : Word).toNat % 2 ^ 63 := by decide

/-- The evaluator's values after `i` iterations. -/
def rotationAt (a : Word) : Nat → Rotation
  | 0 => Rotation.start
  | i + 1 => rotate a (rotationAt a i) (defaultAtan.toList.getD i 0)

theorem witness_CordicRecurrence (a : Word) :
    ∃ theta x y p2i : Nat → Word,
      theta 0 = 0 ∧ x 0 = 0x3FF0000000000000 ∧ y 0 = 0 ∧ p2i 0 = 0x3FF0000000000000 ∧
      ∀ (i : Nat) (h : i < 63),
        p2i (i + 1) = mul64 (p2i i) 0x3FE0000000000000 ∧
        (lt64 (theta i) a = true →
          theta (i + 1) = add64 (theta i) defaultAtan[i] ∧ x (i + 1) = sub64 (x i) (mul64 (y i) (p2i i)) ∧
            y (i + 1) = add64 (y i) (mul64 (x i) (p2i i))) ∧
        (lt64 (theta i) a = false →
          theta (i + 1) = sub64 (theta i) defaultAtan[i] ∧ x (i + 1) = add64 (x i) (mul64 (y i) (p2i i)) ∧
            y (i + 1) = sub64 (y i) (mul64 (x i) (p2i i))) := by
  refine ⟨fun i => (rotationAt a i).theta, fun i => (rotationAt a i).x, fun i => (rotationAt a i).y,
    fun i => (rotationAt a i).p2i, rfl, rfl, rfl, rfl, fun i h => ?_⟩
  have ha : defaultAtan.toList.getD i 0 = defaultAtan[i] := by
    simp [List.getD, show i < 64 by omega]
  simp only [rotationAt, rotate, ha]
  exact ⟨by split <;> rfl, fun hl => by simp [hl], fun hl => by simp [hl]⟩

/-- The last entry of each ROM and the first index outside. -/
theorem witness_CordicRomReads : 63 < 64 ∧ 64 ≤ 64 := by decide

theorem witness_TwiddleReadRule :
    twBuilt blank3 = true ∧ blank3.cfg.q ≤ 2 ∧ 0 < blank3.cfg.q ∧ 1 ≤ 1 ∧ 1 < blank3.cfg.q := by decide +kernel

theorem witness_TwiddleAnglesInDomain :
    (⟨3, .b64⟩ : Config).legal = true ∧ 1 < (⟨3, .b64⟩ : Config).q ∧ inDomain (twAngle 3 1) = true := by
  decide +kernel

theorem witness_ExactConstants : (⟨24, .b32⟩ : Config).legal = true ∧ 2 ^ 53 - 1 < 2 ^ 53 := by decide

theorem witness_ReversalMovesEachBit_ReversalIsInvolution :
    7 < (⟨3, .b64⟩ : Config).n ∧ 2 < (⟨3, .b64⟩ : Config).log2n := by decide

/-- The largest finite values, whose sum overflows, and a binary64 value that rounds to a binary32 subnormal. -/
theorem witness_ArithmeticIsCorrectlyRounded :
    isFin .b64 0x7FEFFFFFFFFFFFFF = true ∧ isFin .b32 0x7F7FFFFF = true ∧
      isFin .b64 0x3690000000000001 = true ∧ toT .b32 0x3690000000000001 = 1 := by decide +kernel

theorem witness_InfiniteOperands :
    isInf .b64 0xFFF0000000000000 = true ∧ isNaN .b64 0x3FF0000000000000 = false ∧
      (isInf .b64 0x3FF0000000000000 = true → signOf .b64 0xFFF0000000000000 = signOf .b64 0x3FF0000000000000) ∧
      magOf .b64 0x3FF0000000000000 ≠ 0 := by decide

/-- −∞ with +∞ on the other side: their difference is valid, their sum is not. -/
theorem witness_InfiniteOperands_difference :
    isInf .b64 0xFFF0000000000000 = true ∧ isNaN .b64 0x7FF0000000000000 = false ∧
      isInf .b64 0x7FF0000000000000 = true ∧ signOf .b64 0xFFF0000000000000 ≠ signOf .b64 0x7FF0000000000000 := by
  decide

theorem witness_ComparisonsOrderValues :
    (isFin .b64 0x8000000000000000 = true ∧ isFin .b64 1 = true ∧ lt64 0x8000000000000000 1 = true) ∧
      (isInf .b64 0xFFF0000000000000 = true ∧ isNaN .b64 0x7FF0000000000000 = false ∧
        lt64 0xFFF0000000000000 0x7FF0000000000000 = true ∧ lt64 0xFFF0000000000000 0xFFF0000000000000 = false) ∧
      isNaN .b64 0x7FF0000000000001 = true := by decide +kernel

theorem witness_StepAndRunWithoutEngine : blank.kind = .none := rfl

theorem witness_IsDoneAndCancelRules_DoneIsNoOp :
    blank.kind = .none ∧ (fwdEnd.kind ≠ .none ∧ fwdEnd.tag = .done) ∧
      (fwdStart.kind ≠ .none ∧ fwdStart.tag ≠ .done) := by decide

/-- STEP1 and STEP3 with L = 1 (V6.1) and L = 2 (V6.3). -/
theorem witness_ForwardPlainButterflies :
    (fwdStart.kind = .fwd ∧ fwdStart.tag = .step1 ∧ fwdStart.topIdx + 2 * fwdStart.length < fwdStart.cfg.n ∧
      bufGet fwdStart.buf 0 = some ⟨0x3FF0000000000000, 0⟩ ∧
      bufGet fwdStart.buf (0 + 2 * 1) = some ⟨0x4008000000000000, 0⟩) ∧
    (∀ s, s = eng pairs .fwd .step3 2 2 1 3 5 → s.kind = .fwd ∧ s.tag = .step3 ∧
      s.topIdx + 2 * s.length < s.cfg.n ∧ bufGet s.buf s.topIdx = some ⟨0x3FF0000000000000, 0x4000000000000000⟩ ∧
      bufGet s.buf (s.topIdx + 2 * s.length) = some ⟨0x4008000000000000, 0x4014000000000000⟩) := by
  constructor
  · decide
  · rintro s rfl
    decide

/-- STEP2 and STEP4 forward, STEP3 and STEP5 inverse: the operands are the same. -/
theorem witness_TwiddledButterflies :
    ∀ k t, (k = .fwd ∧ (t = .step2 ∨ t = .step4)) ∨ (k = .inv ∧ (t = .step3 ∨ t = .step5)) →
      ∀ s, s = eng pairs k t 2 1 1 1 4 → s.kind = k ∧ s.tag = t ∧ s.topIdx + 2 * s.length < s.cfg.n ∧
        bufGet s.buf s.topIdx = some ⟨0x3FF0000000000000, 0x4000000000000000⟩ ∧
        bufGet s.buf (s.topIdx + 2 * s.length) = some ⟨0x4008000000000000, 0x4014000000000000⟩ ∧
        s.tw[s.cfg.q - s.step]? = some 0x3FE6A09E667F3BCF ∧ s.tw[s.step]? = some 0x3FE6A09E667F3BCF := by
  rintro k t - s rfl
  refine ⟨rfl, rfl, show 1 + 2 * 2 < 2 ^ 3 by decide, rfl, rfl, ?_, rfl⟩
  show tw3[2 ^ 3 / 4 - 1]? = _
  decide

/-- Next block, next stage and last stage, for R256 and for R288. -/
theorem witness_Bookkeeping :
    (∀ s, s = eng blank3 .fwd .step5 1 2 2 2 3 ∨ s = eng blank3 .inv .step6 1 0 2 2 3 →
      s.topIdx + 2 * s.length < s.cfg.n) ∧
    (∀ s, s = eng blank3 .fwd .step5 2 2 1 4 7 → s.cfg.n ≤ s.topIdx + 2 * s.length ∧ 1 < s.length) ∧
    (∀ s, s = eng blank3 .fwd .step5 1 2 2 6 7 → s.cfg.n ≤ s.topIdx + 2 * s.length ∧ s.length ≤ 1) ∧
    (∀ s, s = eng blank3 .inv .step6 1 0 2 6 7 → s.cfg.n ≤ s.topIdx + 2 * s.length ∧ 1 < s.stepSize) ∧
    (∀ s, s = eng blank3 .inv .step6 2 2 1 4 7 → s.cfg.n ≤ s.topIdx + 2 * s.length ∧ s.stepSize ≤ 1) := by
  refine ⟨?_, ?_, ?_, ?_, ?_⟩
  · rintro s (rfl | rfl) <;> decide
  all_goals
    rintro s rfl
    decide

/-- The last pair of the final and of the first pass. -/
theorem witness_ForwardFinalPass_InverseScaledPass :
    ∀ k t, (k = .fwd ∧ t = .step6) ∨ (k = .inv ∧ t = .step1) → ∀ s, s = eng loaded k t 1 0 1 2 1 →
      s.kind = k ∧ s.tag = t ∧ s.topIdx + 1 < s.cfg.n ∧ s.topIdx + 2 = s.cfg.n ∧
        bufGet s.buf s.topIdx = some ⟨0x4008000000000000, 0⟩ ∧
        bufGet s.buf (s.topIdx + 1) = some ⟨0x4010000000000000, 0⟩ := by
  rintro k t - s rfl
  exact ⟨rfl, rfl, show 2 + 1 < 2 ^ 2 by decide, show 2 + 2 = 2 ^ 2 by decide, rfl, rfl⟩

/-- rev(t) = t, rev(t) < t and t < rev(t), with N = 4, for both engines. -/
theorem witness_ReorderSteps :
    (∀ k : Kind, (eng loaded k .reorder 1 0 1 0 0).tag = .reorder) ∧ fwdLast.kind ≠ .none ∧
      invStart.kind ≠ .none ∧ rev fwdLast.cfg 0 ≤ 0 ∧ rev fwdLast.cfg 2 ≤ 2 ∧
      (1 < rev fwdLast.cfg 1 ∧ rev fwdLast.cfg 1 < fwdLast.cfg.n ∧
        bufGet loaded.buf 1 = some ⟨0x4000000000000000, 0⟩ ∧
        bufGet loaded.buf (rev fwdLast.cfg 1) = some ⟨0x4008000000000000, 0⟩) :=
  ⟨fun _ => rfl, by decide, by decide, by decide, by decide, by decide⟩

/-- Inverse STEP2 and STEP4 (V6.2, steps 6 and 7). -/
theorem witness_InversePlainButterflies :
    (∀ s, s = eng loaded .inv .step2 1 0 1 0 3 → s.kind = .inv ∧ s.tag = .step2 ∧
      s.topIdx + 2 * s.length < s.cfg.n ∧ bufGet s.buf s.topIdx = some ⟨0x3FF0000000000000, 0⟩ ∧
      bufGet s.buf (s.topIdx + 2 * s.length) = some ⟨0x4008000000000000, 0⟩) ∧
    (∀ s, s = eng loaded .inv .step4 1 0 1 1 2 → s.kind = .inv ∧ s.tag = .step4 ∧
      s.topIdx + 2 * s.length < s.cfg.n ∧ bufGet s.buf s.topIdx = some ⟨0x4000000000000000, 0⟩ ∧
      bufGet s.buf (s.topIdx + 2 * s.length) = some ⟨0x4010000000000000, 0⟩) := by
  constructor <;>
    · rintro s rfl
      decide

theorem witness_DecodeOfEncode : (Instr.bufWr 0xFFFFFF 0x8000000000000000 1).wf = true := by decide

theorem witness_DecodedIsTheTransaction :
    decode ⟨0x08FFFFFF, 0x8000000000000000, 1⟩ = .ok (.bufWr 0xFFFFFF 0x8000000000000000 1) := rfl

theorem witness_IllegalOpcodesAnswered : opcOf 0x24FFFFFF = 0x24 ∧ opcOf 0x25000000 = 0x25 := by decide

theorem witness_StepRunsDecodedCommand :
    (blank.withTxn ⟨0x10000000, 0, 0⟩).port = .cmd ⟨0x10000000, 0, 0⟩ :: [] ∧
      decode ⟨0x10000000, 0, 0⟩ = .ok .fwdNew ∧ blank.port = [] := ⟨rfl, rfl, rfl⟩

theorem witness_InvariantHoldsAtReset : (⟨24, .b32⟩ : Config).legal = true := by decide

/-- States inside a forward and an inverse transform, and the idle ones, with every entry written or none. -/
theorem witness_Inv : Inv fwdStart ∧ Inv invStart ∧ Inv fwdLast ∧ Inv fwdEnd ∧ Inv blank ∧ Inv loaded := by
  decide +kernel

theorem witness_AllWritten : AllWritten fwdStart ∧ AllWritten invStart ∧ AllWritten fwdEnd ∧ AllWritten loaded := by
  decide +kernel

theorem witness_InvariantKeptByEveryStep :
    Inv (fwdStart.withTxn ⟨0x12000000, 0, 0⟩) ∧ ∃ t, step (fwdStart.withTxn ⟨0x12000000, 0, 0⟩) = .next t :=
  ⟨by decide +kernel, next_of_isSome (by decide +kernel)⟩

/-- A butterfly of L = 1, and a twiddled one at the end of its range. -/
theorem witness_EngineIndicesInRange :
    ControlInv fwdStart ∧ touched fwdStart = [0, 2] ∧ ControlInv (eng pairs .fwd .step4 2 1 1 3 6) ∧
      ControlInv (eng pairs .inv .step3 2 1 1 1 4) ∧ touched (eng pairs .fwd .step4 2 1 1 3 6) = [3, 7] := by
  decide +kernel

/-- The hypotheses of the statements about STEP in a good state with an engine. -/
theorem witness_StepCompletesWhenWritten_TransitionsCountDown :
    fwdStart.kind ≠ .none ∧ fwdStart.tag ≠ .done ∧ ControlInv fwdStart ∧
      ∃ t, exec .step fwdStart = .next t :=
  ⟨by decide, by decide, by decide +kernel, next_of_isSome (by decide +kernel)⟩

/-- A forward engine over a buffer nothing has written. -/
theorem witness_OnlyUnwrittenReadsStop :
    Inv ((eng blank .fwd .step1 1 0 1 0 0).withTxn ⟨0x12000000, 0, 0⟩) ∧
      ∃ f, step ((eng blank .fwd .step1 1 0 1 0 0).withTxn ⟨0x12000000, 0, 0⟩) = .fault f :=
  ⟨by decide +kernel, fault_of_isSome (by decide +kernel)⟩

theorem witness_OnlyUnwrittenReadsStop_domainError :
    Inv blank ∧ respOf (exec (.sin 0x3FF921FB54442D18) blank) = errResp .domainError := by decide +kernel

/-- Both entries of a Reorder swap unwritten: the model reads top_idx first (assumption 24). -/
theorem test_reorder_reads_top_first :
    faultOf (exec .step (eng blank .inv .reorder 1 0 1 1 0)) = some (.unwrittenRead 1) := by decide

/-- Before the last transition: 0 STEPs leave the engine not done, 1 = `remaining` STEP finishes it; over an
unwritten buffer the loop faults. -/
theorem witness_RunIsStepLoop :
    Inv fwdLast ∧ fwdLast.kind ≠ .none ∧ 0 < remaining fwdLast ∧ stepTimes 0 fwdLast = .next fwdLast ∧
      (∃ t, stepTimes (remaining fwdLast) fwdLast = .next t) ∧ Inv (eng blank .fwd .step1 1 0 1 0 0) ∧
      ∃ f, stepTimes (remaining (eng blank .fwd .step1 1 0 1 0 0)) (eng blank .fwd .step1 1 0 1 0 0) = .fault f :=
  ⟨by decide +kernel, by decide, by decide, rfl, next_of_isSome (by decide +kernel), by decide +kernel,
    fault_of_isSome (by decide +kernel)⟩

/-- Two buffers that differ, under the same engine. -/
theorem witness_ControlIgnoresBufferValues :
    ∀ s u, s = fwdLast → u = { fwdLast with buf := [(2, ⟨7, 7⟩)], tw := [] } →
      s.cfg = u.cfg ∧ s.kind = u.kind ∧ s.tag = u.tag ∧ s.length = u.length ∧ s.step = u.step ∧
        s.stepSize = u.stepSize ∧ s.topIdx = u.topIdx ∧ s.bottomIdx = u.bottomIdx ∧
        (∃ t, exec .step s = .next t) ∧ (∃ t, exec .step u = .next t) ∧ (∃ t, exec .run s = .next t) ∧
        ∃ t, exec .run u = .next t := by
  rintro s u rfl rfl
  exact ⟨rfl, rfl, rfl, rfl, rfl, rfl, rfl, rfl, next_of_isSome (by decide +kernel),
    next_of_isSome (by decide +kernel), next_of_isSome (by decide +kernel), next_of_isSome (by decide +kernel)⟩

theorem witness_ErrorsArePrecise_ErrorBitsAreSticky :
    (∃ u, transact ⟨0x14000000, 0, 0⟩ blank = .next u ∧ u.resp = some ⟨.noEngine, 0, 0⟩ ∧
      RespCode.noEngine ≠ .ok) ∧
      ∃ u, transact ⟨0x02000000, 0, 0⟩ { blank with err := 0b11111 } = .next u ∧ opcOf 0x02000000 = 0x02 :=
  ⟨⟨_, rfl, rfl, by decide⟩, ⟨_, rfl, by decide⟩⟩

theorem witness_ObserversTouchNothing :
    [Instr.nop, .statRd, .errClr, .isDone, .bufRd 3, .curRd 4, .sin 0x4000000000000000, .revbits 5, .twRd 0,
        .atanRd 63, .gainRd 62].all (fun i => (nextOf (exec i fwdEnd)).isSome) = true := by decide

theorem witness_StepFrame_RunFrame :
    fwdStart.kind ≠ .none ∧ (∃ t, exec .step fwdStart = .next t) ∧ ∃ t, exec .run fwdStart = .next t :=
  ⟨by decide, next_of_isSome (by decide +kernel), next_of_isSome (by decide +kernel)⟩

theorem witness_RomsAndParametersNeverChange :
    ∃ t, step (fwdStart.withTxn ⟨0x13000000, 0, 0⟩) = .next t := next_of_isSome (by decide +kernel)

end Sys2Proof.Tests
end

section
/-! PROOFS. The exact constants of 00_scope.md R10 and 42_twiddle.md R191, and the step at the command port
(R6, 20_memory.md R79). -/

namespace Sys2Proof.Machine

/-! ### Packed words and their values -/

theorem isFin_packMag (p : Prec) (neg : Bool) {m : Nat} (h : m < infMag p) : isFin p (packMag p neg m) = true := by
  simpa [isFin, magOf_packMag p neg (h.trans (infMag_lt p))] using h

theorem valueOf_packMag_pos (p : Prec) {m : Nat} (h : m < infMag p) :
    valueOf p (packMag p false m) = (scaledMag p m : Nat) := by
  have hm := h.trans (infMag_lt p)
  simp [valueOf, signOf_packMag p false hm, magOf_packMag p false hm]

/-! ### Rounding what needs no rounding -/

/-- Rounding a magnitude of the format gives its own fields: they are off by 0, and no other fields are. -/
theorem roundMag_scaledMag (p : Prec) {m : Nat} (hm : m ≤ infMag p) (hn : scaledMag p m < 2 ^ 2 ^ 13) :
    roundMag p 0 (scaledMag p m) = m := by
  obtain ⟨-, hnear⟩ := roundMag_nearestEven p 0 hn
  have hoff := hnear m hm
  apply (scaledMag_strictMono p).injective
  unfold offBy at hoff
  omega

/-- A number of at most frac + 1 bits is, at every scale, the magnitude of fields of the format. The scale is
lowered by doubling the number until its leading bit is in place. -/
theorem exists_scaledMag_eq (p : Prec) (e : Nat) {i : Nat} (hi : i < 2 ^ (fracBits p + 1)) :
    ∃ m, m < (e + 2) * 2 ^ fracBits p ∧ scaledMag p m = i * 2 ^ e := by
  induction e generalizing i with
  | zero =>
    refine ⟨i, by omega, ?_⟩
    simpa using scaledMag_raw p (u := 0) (.inl rfl) hi.le
  | succ e ih =>
    rcases Nat.lt_or_ge i (2 ^ fracBits p) with hsmall | hbig
    · obtain ⟨m, hm, hval⟩ := ih (i := 2 * i) (by omega)
      refine ⟨m, hm.trans_le (Nat.mul_le_mul_right _ (by omega)), ?_⟩
      rw [hval, Nat.pow_succ]
      ring
    · refine ⟨(e + 1) * 2 ^ fracBits p + i, ?_, scaledMag_raw p (.inr hbig) hi.le⟩
      rw [Nat.add_mul (e + 1) 2]
      omega

/-- Such a number is not rounded: `roundMag` gives finite fields whose magnitude it is, while e + 1, the exponent
field where i has all its bits, is that of a finite value. -/
theorem roundMag_exact (p : Prec) {e i : Nat} (hi : i < 2 ^ (fracBits p + 1)) (he : e + 2 ≤ 2 ^ expBits p - 1) :
    roundMag p 0 (i * 2 ^ e) < infMag p ∧ scaledMag p (roundMag p 0 (i * 2 ^ e)) = i * 2 ^ e := by
  obtain ⟨m, hm, hval⟩ := exists_scaledMag_eq p e hi
  have hinf : m < infMag p := hm.trans_le (Nat.mul_le_mul_right _ he)
  have hwidth : fracBits p + 1 + e < 2 ^ 13 := by
    have hformat : fracBits p + 2 ^ expBits p < 2 ^ 13 := by cases p <;> decide
    omega
  have hrange : scaledMag p m < 2 ^ 2 ^ 13 :=
    calc scaledMag p m = i * 2 ^ e := hval
      _ < 2 ^ (fracBits p + 1) * 2 ^ e := Nat.mul_lt_mul_of_pos_right hi (Nat.two_pow_pos _)
      _ = 2 ^ (fracBits p + 1 + e) := (Nat.pow_add ..).symm
      _ < 2 ^ 2 ^ 13 := Nat.pow_lt_pow_right Nat.one_lt_two hwidth
  rw [← hval, roundMag_scaledMag p hinf.le hrange]
  exact ⟨hinf, rfl⟩

/-! ### The constants -/

theorem unitExp_b64 : unitExp .b64 = 1074 := rfl

/-- A natural number below 2^53 is exact in binary64. -/
theorem natTo64_exact {i : Nat} (hi : i < 2 ^ 53) :
    isFin .b64 (natTo64 i) = true ∧ valueOf .b64 (natTo64 i) = (i * 2 ^ unitExp .b64 : Nat) := by
  obtain ⟨hfin, hval⟩ := roundMag_exact .b64 (e := unitExp .b64) hi (by decide)
  exact ⟨isFin_packMag .b64 false hfin, by rw [natTo64, valueOf_packMag_pos .b64 hfin, hval]⟩

/-- 2^-k is finite and normal, and times 2^k it is 1, which is 2^(unitExp p) units. -/
theorem powNeg_exact (p : Prec) {k : Nat} (hk : k < expBias p) :
    isFin p (powNeg p k) = true ∧ valueOf p (powNeg p k) * (2 ^ k : Nat) = (2 ^ unitExp p : Nat) := by
  obtain ⟨u, hu⟩ : ∃ u, expBias p = k + u + 1 := Nat.exists_eq_add_of_lt hk
  have hfields : (expBias p - k) * 2 ^ fracBits p = u * 2 ^ fracBits p + 2 ^ fracBits p := by
    rw [show expBias p - k = u + 1 by omega, Nat.succ_mul]
  have hinf : (expBias p - k) * 2 ^ fracBits p < infMag p := by
    have hbias : expBias p < 2 ^ expBits p - 1 := by cases p <;> decide
    exact Nat.mul_lt_mul_of_pos_right (by omega) (Nat.two_pow_pos _)
  refine ⟨isFin_packMag p false hinf, ?_⟩
  have hexp : unitExp p = fracBits p + u + k := by
    rw [unitExp]
    omega
  rw [powNeg, valueOf_packMag_pos p hinf, hfields,
    scaledMag_raw p (.inr le_rfl) (Nat.pow_le_pow_right (by decide) (Nat.le_succ _)), hexp, Nat.pow_add, Nat.pow_add]
  exact_mod_cast rfl

theorem log2n_lt_expBias {c : Config} (hc : c.legal = true) (p : Prec) : c.log2n < expBias p := by
  have hle : c.log2n ≤ 24 := by
    simp only [Config.legal, Bool.and_eq_true, decide_eq_true_eq] at hc
    exact hc.2
  exact hle.trans_lt (by cases p <;> decide)

/-- Settles O14: an index has few enough bits to be fields of binary64, and a power of two is exact. -/
theorem exactConstants : Obligations.ExactConstants := by
  unfold Obligations.ExactConstants
  rw [← unitExp_b64]
  refine ⟨fun i hi => natTo64_exact hi, fun c hc => ?_⟩
  obtain ⟨hfinT, hvalT⟩ := powNeg_exact c.prec (log2n_lt_expBias hc c.prec)
  obtain ⟨hfin64, hval64⟩ := powNeg_exact .b64 (log2n_lt_expBias hc .b64)
  exact ⟨hfinT, hvalT, hfin64, hval64⟩

/-! ### The step at the command port -/

theorem step_of_port_nil {s : State} (h : s.port = []) : step s = .next s := by
  simp [step, h]

theorem step_of_port_cmd {s : State} {t : Txn} {rest : List PortEvent} (h : s.port = .cmd t :: rest) :
    step s = transact t { s with port := rest } := by
  simp [step, h]

theorem transact_of_decode_ok {t : Txn} {i : Instr} (h : decode t = .ok i) (s : State) :
    transact t s = exec i s := by
  simp [transact, h]

/-- The transaction put at the head of the port is the one taken, and taking it restores the state. -/
theorem step_withTxn (s : State) (t : Txn) : step (s.withTxn t) = transact t s :=
  step_of_port_cmd (withTxn_port s t)

/-- Settles O40: the step is `transact` of the head of the port, and `transact` is `exec` where the head decodes. -/
theorem stepRunsDecodedCommand : Obligations.StepRunsDecodedCommand := by
  refine ⟨fun _ _ _ hport => step_of_port_cmd hport, ?_, fun _ hidle => step_of_port_nil hidle, ?_⟩
  · intro s t rest i hport hdec
    rw [step_of_port_cmd hport, transact_of_decode_ok hdec]
  · intro s t i hdec
    rw [step_withTxn, transact_of_decode_ok hdec]

end Sys2Proof.Machine
end

section
/-! PROOFS. Every value the arithmetic answers, and every sample a kernel answers, is a T value
(20_memory.md R71, 44_butterfly.md R221 to R235). -/

namespace Sys2Proof.Machine

/-! ### Results of the arithmetic -/

/-- A quiet payload lies below 2^frac, so a NaN draw stays below the sign bit. -/
theorem fitsT_nanResult (p : Prec) (op : FpOp) (a b : Word) : fitsT p (nanResult p op a b) = true := by
  have hroom : infMag p + 2 ^ fracBits p ≤ 2 ^ signPos p := by cases p <;> decide
  have hpos : 0 < 2 ^ fracBits p := Nat.two_pow_pos _
  have hquiet : 2 ^ (fracBits p - 1) < 2 ^ fracBits p :=
    Nat.pow_lt_pow_right Nat.one_lt_two (Nat.sub_lt (fracBits_pos p) Nat.one_pos)
  refine fitsT_packMag p _ ?_
  have hdraw := Nat.mod_lt (Config.nanPolicy p op a b).toNat hpos
  split <;> omega

theorem fitsT_infinity (p : Prec) (neg : Bool) : fitsT p (packMag p neg (infMag p)) = true :=
  fitsT_packMag p neg (infMag_lt p)

theorem fitsT_rounded (p : Prec) (neg : Bool) (k n : Nat) : fitsT p (packMag p neg (roundMag p k n)) = true :=
  fitsT_packMag p neg ((Nat.min_le_right _ _).trans_lt (infMag_lt p))

theorem fitsT_addFinite (p : Prec) (a b : Word) : fitsT p (addFinite p a b) = true := by
  rw [addFinite]
  split
  · exact fitsT_packMag p _ (Nat.two_pow_pos _)
  · exact fitsT_rounded p _ _ _

theorem fitsT_sumWith (p : Prec) (op : FpOp) (b₀ a b : Word) : fitsT p (sumWith p op b₀ a b) = true := by
  unfold sumWith
  split
  · exact fitsT_nanResult p op a b₀
  · split
    · split
      · exact fitsT_nanResult p op a b₀
      · exact fitsT_infinity p _
    · split
      · exact fitsT_infinity p _
      · exact fitsT_addFinite p a b

@[simp] theorem fitsT_addT (p : Prec) (a b : Word) : fitsT p (addT p a b) = true := fitsT_sumWith ..

@[simp] theorem fitsT_subT (p : Prec) (a b : Word) : fitsT p (subT p a b) = true := fitsT_sumWith ..

@[simp] theorem fitsT_mulT (p : Prec) (a b : Word) : fitsT p (mulT p a b) = true := by
  unfold mulT
  split
  · exact fitsT_nanResult p .mul a b
  · split
    · split
      · exact fitsT_nanResult p .mul a b
      · exact fitsT_infinity p _
    · exact fitsT_rounded p _ _ _

/-- The sign bit is the top bit of a T value. -/
@[simp] theorem fitsT_negT {p : Prec} {a : Word} (h : fitsT p a = true) : fitsT p (negT p a) = true := by
  rw [fitsT, decide_eq_true_eq] at h ⊢
  rw [negT_toNat]
  exact Nat.xor_lt_two_pow h (Nat.pow_lt_pow_right Nat.one_lt_two (Nat.lt_succ_self _))

/-- An operand read with B32 keeps bits [31:0] alone (R102). -/
@[simp] theorem fitsT_opT (p : Prec) (w : Word) : fitsT p (opT p w) = true := by
  rw [fitsT, decide_eq_true_eq]
  cases p with
  | b32 =>
    rw [opT, BitVec.toNat_setWidth, BitVec.toNat_setWidth]
    exact (Nat.mod_le _ _).trans_lt (Nat.mod_lt _ (Nat.two_pow_pos 32))
  | b64 => exact w.isLt

/-! ### Results of the kernels -/

/-- Both components of the sample are T values. -/
def SampleFits (p : Prec) (z : Sample) : Prop := fitsT p z.re = true ∧ fitsT p z.im = true

/-- The kernel answers T values where it is given T values. -/
def KernelFits (p : Prec) (k : Sample → Sample → Sample × Sample) : Prop :=
  ∀ x y, SampleFits p x → SampleFits p y → SampleFits p (k x y).1 ∧ SampleFits p (k x y).2

theorem sampleFits_cadd (p : Prec) (a b : Sample) : SampleFits p (cadd p a b) := ⟨fitsT_addT .., fitsT_addT ..⟩

theorem sampleFits_csub (p : Prec) (a b : Sample) : SampleFits p (csub p a b) := ⟨fitsT_subT .., fitsT_subT ..⟩

theorem sampleFits_rotm (p : Prec) (d : Sample) (c sn : Word) : SampleFits p (rotm p d c sn) :=
  ⟨fitsT_addT .., fitsT_subT ..⟩

theorem sampleFits_timesNegJ {p : Prec} {z : Sample} (h : SampleFits p z) : SampleFits p (timesNegJ p z) :=
  ⟨h.2, fitsT_negT h.1⟩

theorem sampleFits_scl (c : Config) (z : Sample) : SampleFits c.prec (scl c z) := ⟨fitsT_mulT .., fitsT_mulT ..⟩

theorem kernelFits_difOne (p : Prec) : KernelFits p (difOne p) :=
  fun _ _ _ _ => ⟨sampleFits_cadd .., sampleFits_csub ..⟩

theorem kernelFits_difRot (p : Prec) (c sn : Word) : KernelFits p (difRot p c sn) :=
  fun _ _ _ _ => ⟨sampleFits_cadd .., sampleFits_rotm ..⟩

theorem kernelFits_difNegj (p : Prec) : KernelFits p (difNegj p) :=
  fun _ _ _ _ => ⟨sampleFits_cadd .., sampleFits_timesNegJ (sampleFits_csub ..)⟩

theorem kernelFits_difNegjrot (p : Prec) (c sn : Word) : KernelFits p (difNegjrot p c sn) :=
  fun _ _ _ _ => ⟨sampleFits_cadd .., sampleFits_timesNegJ (sampleFits_rotm ..)⟩

theorem kernelFits_ditOne (p : Prec) : KernelFits p (ditOne p) :=
  fun _ _ _ _ => ⟨sampleFits_cadd .., sampleFits_csub ..⟩

theorem kernelFits_ditRot (p : Prec) (c sn : Word) : KernelFits p (ditRot p c sn) :=
  fun _ _ _ _ => ⟨sampleFits_cadd .., sampleFits_csub ..⟩

theorem kernelFits_ditPosj (p : Prec) : KernelFits p (ditPosj p) :=
  fun _ _ _ _ => ⟨sampleFits_cadd .., sampleFits_csub ..⟩

theorem kernelFits_ditPosjrot (p : Prec) (c sn : Word) : KernelFits p (ditPosjrot p c sn) :=
  fun _ _ _ _ => ⟨sampleFits_cadd .., sampleFits_csub ..⟩

theorem kernelFits_ditScale (c : Config) : KernelFits c.prec (ditScale c) :=
  fun _ _ _ _ => ⟨sampleFits_scl .., sampleFits_scl ..⟩

theorem kernelFits_swap (p : Prec) : KernelFits p fun x y => (y, x) := fun _ _ hx hy => ⟨hy, hx⟩

/-! ### The buffer -/

/-- The two writes of a kernel of T values applied in place keep the buffer canonical (R235). -/
theorem wf_kernelWrites {c : Config} {m : List (Nat × Sample)} {t b : Nat} {x y : Sample}
    {k : Sample → Sample → Sample × Sample} (hk : KernelFits c.prec k) (hwf : Memory.wf c m = true)
    (hx : bufGet m t = some x) (hy : bufGet m b = some y) :
    Memory.wf c (bufSet (bufSet m t (k x y).1) b (k x y).2) = true := by
  obtain ⟨ht, hxfits⟩ := fitsT_of_bufGet hwf hx
  obtain ⟨hb, hyfits⟩ := fitsT_of_bufGet hwf hy
  obtain ⟨hfst, hsnd⟩ := hk x y hxfits hyfits
  exact wf_bufSet (wf_bufSet hwf ht hfst.1 hfst.2) hb hsnd.1 hsnd.2

end Sys2Proof.Machine
end

section
/-! PROOFS. Where an engine's cursors stand: the shape of a stage, and where each kind of transition leads from
there (10_state.md R36, 45_forward_engine.md R251 to R258, 46_inverse_engine.md R281 to R288). -/

namespace Sys2Proof.Machine

/-! ### Powers of two and the parameters -/

theorem isPow2_iff {n : Nat} : isPow2 n = true ↔ ∃ k, n = 2 ^ k := by
  rw [isPow2, beq_iff_eq]
  exact ⟨fun h => ⟨_, h⟩, by rintro ⟨k, rfl⟩; rw [Nat.log2_two_pow]⟩

theorem pos_of_isPow2 {n : Nat} (h : isPow2 n = true) : 0 < n := by
  obtain ⟨k, rfl⟩ := isPow2_iff.mp h
  exact Nat.two_pow_pos k

theorem isPow2_double {n : Nat} (h : isPow2 n = true) : isPow2 (2 * n) = true := by
  obtain ⟨k, rfl⟩ := isPow2_iff.mp h
  exact isPow2_iff.mpr ⟨k + 1, (Nat.pow_succ').symm⟩

/-- A power of two above 1 is twice a power of two. -/
theorem exists_half_of_isPow2 {n : Nat} (h : isPow2 n = true) (hn : 1 < n) : ∃ m, n = 2 * m ∧ isPow2 m = true := by
  obtain ⟨k, rfl⟩ := isPow2_iff.mp h
  obtain ⟨j, rfl⟩ : ∃ j, k = j + 1 := Nat.exists_eq_add_one.mpr (Nat.pos_of_ne_zero (by rintro rfl; simp at hn))
  exact ⟨2 ^ j, Nat.pow_succ', isPow2_iff.mpr ⟨j, rfl⟩⟩

theorem q_eq_two_pow {c : Config} (hc : c.legal = true) : c.q = 2 ^ (c.log2n - 2) := by
  simp only [Config.legal, Bool.and_eq_true, decide_eq_true_eq] at hc
  exact Nat.pow_div hc.1 (by decide)

theorem n_eq_four_mul_q {c : Config} (hc : c.legal = true) : c.n = 4 * c.q := by
  rw [q_eq_two_pow hc]
  simp only [Config.legal, Bool.and_eq_true, decide_eq_true_eq] at hc
  rw [Config.n, show c.log2n = 2 + (c.log2n - 2) by omega, Nat.pow_add, Nat.add_sub_cancel_left]

theorem q_pos {c : Config} (hc : c.legal = true) : 0 < c.q := by
  rw [q_eq_two_pow hc]
  exact Nat.two_pow_pos _

/-- An index reversed fits LOG2N bits again (R210). -/
theorem revBits_lt (k x : Nat) : revBits k x < 2 ^ k := by
  induction k generalizing x with
  | zero => exact Nat.one_pos
  | succ k ih =>
    have htail := ih (x / 2)
    have hbit : x % 2 * 2 ^ k ≤ 1 * 2 ^ k := Nat.mul_le_mul_right _ (by omega)
    rw [revBits, Nat.pow_succ]
    omega

theorem rev_lt (c : Config) (x : Nat) : rev c x < c.n := revBits_lt c.log2n x

/-! ### The stage an engine is in -/

/-- What holds of an engine's cursors whatever its tag: the parameters are legal, length · step_size = Q with both
powers of two, and the other three cursors in range (R36). -/
structure StageInv (s : State) : Prop where
  legal : s.cfg.legal = true
  shape : s.length * s.stepSize = s.cfg.q
  length_pow2 : isPow2 s.length = true
  stepSize_pow2 : isPow2 s.stepSize = true
  step_le : s.step ≤ s.cfg.q
  topIdx_lt : s.topIdx < s.cfg.n
  bottomIdx_lt : s.bottomIdx < s.cfg.n

theorem cursorsInRange_iff {s : State} :
    cursorsInRange s = true ↔
      s.length ≤ s.cfg.q ∧ s.stepSize ≤ s.cfg.q ∧ s.step ≤ s.cfg.q ∧ s.topIdx < s.cfg.n ∧ s.bottomIdx < s.cfg.n := by
  simp [cursorsInRange, and_assoc]

theorem stageShape_iff {s : State} :
    stageShape s = true ↔ s.length * s.stepSize = s.cfg.q ∧ isPow2 s.length = true ∧ isPow2 s.stepSize = true := by
  simp [stageShape, and_assoc]

/-- With an engine the control invariant is the stage's and that of the engine's own state: an engine whose cursors
fit has a tag. -/
theorem controlInv_iff_of_engine {s : State} (hkind : s.kind ≠ .none) :
    ControlInv s ↔ StageInv s ∧ cursorsFit s = true := by
  have hengine : engineFits s = true ↔ stageShape s = true ∧ cursorsFit s = true := by simp [engineFits, hkind]
  rw [ControlInv, hengine, cursorsInRange_iff, stageShape_iff]
  constructor
  · rintro ⟨hlegal, -, ⟨-, -, hstep, htop, hbottom⟩, ⟨hshape, hlen, hsize⟩, hfit⟩
    exact ⟨⟨hlegal, hshape, hlen, hsize, hstep, htop, hbottom⟩, hfit⟩
  · rintro ⟨⟨hlegal, hshape, hlen, hsize, hstep, htop, hbottom⟩, hfit⟩
    have htag : s.tag ≠ .none := by
      intro htag
      cases hk : s.kind <;> simp_all [cursorsFit]
    refine ⟨hlegal, by simp [kindTagAgree, hkind, htag], ⟨?_, ?_, hstep, htop, hbottom⟩, ⟨hshape, hlen, hsize⟩, hfit⟩
    · exact hshape ▸ Nat.le_mul_of_pos_right _ (pos_of_isPow2 hsize)
    · exact hshape ▸ Nat.le_mul_of_pos_left _ (pos_of_isPow2 hlen)

namespace StageInv

variable {s : State} (h : StageInv s)
include h

theorem length_pos : 0 < s.length := pos_of_isPow2 h.length_pow2

theorem stepSize_pos : 0 < s.stepSize := pos_of_isPow2 h.stepSize_pow2

/-- The buffer is S blocks of 4L entries. -/
theorem n_eq_blocks : s.cfg.n = 4 * s.length * s.stepSize := by
  rw [n_eq_four_mul_q h.legal, ← h.shape, Nat.mul_assoc]

theorem four_le_n : 4 ≤ s.cfg.n := by
  have hn := n_eq_four_mul_q h.legal
  have hq := q_pos h.legal
  omega

theorem mul_stepSize_le_iff (j : Nat) : j * s.stepSize ≤ s.cfg.q ↔ j ≤ s.length := by
  rw [← h.shape]
  exact Nat.mul_le_mul_right_iff h.stepSize_pos

theorem mul_stepSize_lt_iff (j : Nat) : j * s.stepSize < s.cfg.q ↔ j < s.length := by
  rw [← h.shape]
  exact Nat.mul_lt_mul_right h.stepSize_pos

theorem mul_stepSize_eq_iff (j : Nat) : j * s.stepSize = s.cfg.q ↔ j = s.length := by
  rw [← h.shape]
  exact Nat.mul_left_inj h.stepSize_pos.ne'

/-- The block `top_idx` stands in ends inside the buffer. -/
theorem blockEnd_le : s.topIdx + 4 * s.length ≤ s.cfg.n + blockPos s := by
  have hn := h.n_eq_blocks
  have hblock : s.topIdx / (4 * s.length) < s.stepSize := Nat.div_lt_of_lt_mul (hn ▸ h.topIdx_lt)
  have hend : 4 * s.length * (s.topIdx / (4 * s.length) + 1) ≤ s.cfg.n := hn ▸ Nat.mul_le_mul_left _ hblock
  have hsplit := Nat.div_add_mod s.topIdx (4 * s.length)
  rw [Nat.mul_succ] at hend
  rw [blockPos]
  omega

/-- Before a butterfly the lower entry is inside the buffer. -/
theorem bottom_lt (hpos : blockPos s < 2 * s.length) : s.topIdx + 2 * s.length < s.cfg.n := by
  have hend := h.blockEnd_le
  omega

/-- A transition that keeps the stage keeps its invariant, if the cursors it sets are in range. -/
theorem moved {m : List (Nat × Sample)} {t b k : Nat} (g : Tag) (ht : t < s.cfg.n) (hb : b < s.cfg.n)
    (hk : k ≤ s.cfg.q) :
    StageInv { s with buf := m, topIdx := t, bottomIdx := b, step := k, tag := g } :=
  ⟨h.legal, h.shape, h.length_pow2, h.stepSize_pow2, hk, ht, hb⟩

end StageInv

/-! ### Where each transition leads -/

/-- The state after a butterfly: `top_idx` one entry on, `bottom_idx` at the lower entry (R252 to R255, R284 to
R287), the buffer, `step` and the tag as given. -/
def afterButterfly (s : State) (m : List (Nat × Sample)) (k : Nat) (g : Tag) : State :=
  { s with buf := m, bottomIdx := s.topIdx + 2 * s.length, topIdx := s.topIdx + 1, step := k, tag := g }

section
variable {s : State} {m : List (Nat × Sample)} {k : Nat} {g : Tag}

@[simp] theorem afterButterfly_length : (afterButterfly s m k g).length = s.length := rfl
@[simp] theorem afterButterfly_stepSize : (afterButterfly s m k g).stepSize = s.stepSize := rfl
@[simp] theorem afterButterfly_step : (afterButterfly s m k g).step = k := rfl

theorem blockPos_afterButterfly (hpos : blockPos s < 2 * s.length) :
    blockPos (afterButterfly s m k g) = blockPos s + 1 := by
  have hone : 1 % (4 * s.length) = 1 := Nat.mod_eq_of_lt (by omega)
  have hsum : s.topIdx % (4 * s.length) + 1 % (4 * s.length) < 4 * s.length := by
    rw [hone]
    exact (Nat.succ_le_of_lt hpos).trans_lt (by omega)
  calc (s.topIdx + 1) % (4 * s.length)
      = s.topIdx % (4 * s.length) + 1 % (4 * s.length) := Nat.add_mod_of_add_mod_lt hsum
    _ = blockPos s + 1 := by rw [hone, blockPos]

theorem atBlockStart_iff : atBlockStart s = true ↔ blockPos s = 0 := by simp [atBlockStart]

theorem inFirstHalf_iff :
    inFirstHalf s = true ↔ 0 < blockPos s ∧ blockPos s < s.length ∧ s.step = blockPos s * s.stepSize := by
  simp [inFirstHalf, and_assoc]

theorem atMiddle_iff : atMiddle s = true ↔ blockPos s = s.length := by simp [atMiddle]

theorem inSecondHalf_iff :
    inSecondHalf s = true ↔
      s.length < blockPos s ∧ blockPos s < 2 * s.length ∧ s.step = (blockPos s - s.length) * s.stepSize := by
  simp [inSecondHalf, and_assoc]

theorem atBlockEnd_iff : atBlockEnd s = true ↔ blockPos s = 2 * s.length := by simp [atBlockEnd]

theorem StageInv.afterButterfly (h : StageInv s) (hpos : blockPos s < 2 * s.length) (hk : k ≤ s.cfg.q) :
    StageInv (afterButterfly s m k g) := by
  have hb := h.bottom_lt hpos
  exact h.moved g (by omega) hb hk

theorem StageInv.firstIndex_le (h : StageInv s) : (if 1 < s.length then s.stepSize else s.step) ≤ s.cfg.q := by
  split
  · exact h.shape ▸ Nat.le_mul_of_pos_left _ h.length_pos
  · exact h.step_le

/-- The butterfly k = 0 leads to k = 1: before L with the twiddle index S, or L itself. -/
theorem blockStart_next (h : StageInv s) (hat : atBlockStart s = true) {s' : State}
    (hs' : s' = afterButterfly s m (if 1 < s.length then s.stepSize else s.step) g) :
    StageInv s' ∧ (if 1 < s.length then inFirstHalf s' else atMiddle s') = true := by
  have hlen := h.length_pos
  have hpos := atBlockStart_iff.mp hat
  have hlt : blockPos s < 2 * s.length := by omega
  subst hs'
  refine ⟨h.afterButterfly hlt h.firstIndex_le, ?_⟩
  split
  · next hl => simpa [inFirstHalf_iff, blockPos_afterButterfly hlt, hpos] using hl
  · next hl => simp [atMiddle_iff, blockPos_afterButterfly hlt, hpos]; omega

/-- A butterfly 0 < k < L leads to k + 1, which is L exactly where the twiddle index is Q (R253, R285). -/
theorem firstHalf_next (h : StageInv s) (hat : inFirstHalf s = true) {s' : State}
    (hs' : s' = afterButterfly s m (s.step + s.stepSize) g) :
    StageInv s' ∧ (if s.step + s.stepSize = s.cfg.q then atMiddle s' else inFirstHalf s') = true := by
  obtain ⟨hlo, hhi, hstep⟩ := inFirstHalf_iff.mp hat
  have hlt : blockPos s < 2 * s.length := by omega
  have hk : s.step + s.stepSize = (blockPos s + 1) * s.stepSize := by rw [hstep, Nat.succ_mul]
  rw [hk] at hs' ⊢
  subst hs'
  refine ⟨h.afterButterfly hlt ((h.mul_stepSize_le_iff _).mpr hhi), ?_⟩
  simp only [h.mul_stepSize_eq_iff]
  split
  · next hl => simpa [atMiddle_iff, blockPos_afterButterfly hlt] using hl
  · next hl => simp [inFirstHalf_iff, blockPos_afterButterfly hlt]; omega

/-- The butterfly k = L leads to L + 1: before 2L with the twiddle index S, or 2L itself. -/
theorem middle_next (h : StageInv s) (hat : atMiddle s = true) {s' : State}
    (hs' : s' = afterButterfly s m (if 1 < s.length then s.stepSize else s.step) g) :
    StageInv s' ∧ (if 1 < s.length then inSecondHalf s' else atBlockEnd s') = true := by
  have hlen := h.length_pos
  have hpos := atMiddle_iff.mp hat
  have hlt : blockPos s < 2 * s.length := by omega
  subst hs'
  refine ⟨h.afterButterfly hlt h.firstIndex_le, ?_⟩
  split
  · next hl => simp [inSecondHalf_iff, blockPos_afterButterfly hlt, hpos]; omega
  · next hl => simp [atBlockEnd_iff, blockPos_afterButterfly hlt, hpos]; omega

/-- A butterfly L < k < 2L leads to k + 1, which is 2L exactly where the twiddle index is Q (R255, R287). -/
theorem secondHalf_next (h : StageInv s) (hat : inSecondHalf s = true) {s' : State}
    (hs' : s' = afterButterfly s m (s.step + s.stepSize) g) :
    StageInv s' ∧ (if s.step + s.stepSize = s.cfg.q then atBlockEnd s' else inSecondHalf s') = true := by
  obtain ⟨hlo, hhi, hstep⟩ := inSecondHalf_iff.mp hat
  have hk : s.step + s.stepSize = (blockPos s + 1 - s.length) * s.stepSize := by
    rw [hstep, Nat.succ_sub hlo.le, Nat.succ_mul]
  rw [hk] at hs' ⊢
  subst hs'
  refine ⟨h.afterButterfly hhi ((h.mul_stepSize_le_iff _).mpr (by omega)), ?_⟩
  simp only [h.mul_stepSize_eq_iff]
  split
  · next hl => simp [atBlockEnd_iff, blockPos_afterButterfly hhi]; omega
  · next hl => simp [inSecondHalf_iff, blockPos_afterButterfly hhi]; omega

/-- The end of a block that is not the last leads to the start of the next (R256, R288). -/
theorem blockEnd_nextBlock (h : StageInv s) (hat : atBlockEnd s = true)
    (hnext : s.topIdx + 2 * s.length < s.cfg.n) {s' : State}
    (hs' : s' = { s with topIdx := s.topIdx + 2 * s.length, tag := g }) :
    StageInv s' ∧ atBlockStart s' = true := by
  subst hs'
  refine ⟨h.moved g hnext h.bottomIdx_lt h.step_le, atBlockStart_iff.mpr ?_⟩
  calc (s.topIdx + 2 * s.length) % (4 * s.length)
      = (blockPos s + 2 * s.length) % (4 * s.length) := (Nat.mod_add_mod ..).symm
    _ = 4 * s.length % (4 * s.length) := by rw [atBlockEnd_iff.mp hat]; congr 1; omega
    _ = 0 := Nat.mod_self _

/-- The start of a stage: any length and step_size of its shape, `top_idx` 0. -/
theorem stageStart (h : StageInv s) {l z : Nat} (hshape : l * z = s.cfg.q) (hl : isPow2 l = true)
    (hz : isPow2 z = true) {s' : State} (hs' : s' = { s with length := l, stepSize := z, topIdx := 0, tag := g }) :
    StageInv s' ∧ atBlockStart s' = true := by
  have hn := h.four_le_n
  subst hs'
  exact ⟨⟨h.legal, hshape, hl, hz, h.step_le, by simp; omega, h.bottomIdx_lt⟩, atBlockStart_iff.mpr (Nat.zero_mod _)⟩

/-- The next stage forward has half the length and twice the step_size (R256). -/
theorem stageStart_halfLength (h : StageInv s) (hlen : 1 < s.length) {s' : State}
    (hs' : s' = { s with length := s.length / 2, stepSize := 2 * s.stepSize, topIdx := 0, tag := g }) :
    StageInv s' ∧ atBlockStart s' = true := by
  obtain ⟨l, hl, hpow⟩ := exists_half_of_isPow2 h.length_pow2 hlen
  have hdiv : s.length / 2 = l := by omega
  refine stageStart h ?_ (hdiv ▸ hpow) (isPow2_double h.stepSize_pow2) hs'
  rw [← h.shape, hdiv, hl]
  ring

/-- The next stage of the inverse has twice the length and half the step_size (R288). -/
theorem stageStart_doubleLength (h : StageInv s) (hsize : 1 < s.stepSize) {s' : State}
    (hs' : s' = { s with length := 2 * s.length, stepSize := s.stepSize / 2, topIdx := 0, tag := g }) :
    StageInv s' ∧ atBlockStart s' = true := by
  obtain ⟨z, hz, hpow⟩ := exists_half_of_isPow2 h.stepSize_pow2 hsize
  have hdiv : s.stepSize / 2 = z := by omega
  refine stageStart h ?_ (isPow2_double h.length_pow2) (hdiv ▸ hpow) hs'
  rw [← h.shape, hdiv, hz]
  ring

theorem atPair_iff : atPair s = true ↔ s.length = 1 ∧ s.topIdx % 2 = 0 := by simp [atPair]

/-- The forward engine's last stage leads to the pairs, from entry 0 (R256). -/
theorem pairs_of_lastStage (h : StageInv s) (hlen : s.length ≤ 1) {s' : State}
    (hs' : s' = { s with topIdx := 0, tag := g }) : StageInv s' ∧ atPair s' = true := by
  have hone : s.length = 1 := le_antisymm hlen h.length_pos
  subst hs'
  exact ⟨h.moved g (Nat.zero_lt_of_lt h.topIdx_lt) h.bottomIdx_lt h.step_le, atPair_iff.mpr ⟨hone, rfl⟩⟩

/-- The inverse engine's last stage ends with `top_idx` N/2 (R288). -/
theorem done_of_lastStage (h : StageInv s) (hat : atBlockEnd s = true) (hsize : s.stepSize ≤ 1) {s' : State}
    (hs' : s' = { s with tag := g }) :
    StageInv s' ∧ (s'.stepSize == 1 && s'.topIdx == s'.cfg.n / 2) = true := by
  have hone : s.stepSize = 1 := le_antisymm hsize h.stepSize_pos
  have hn : s.cfg.n = 4 * s.length := by rw [h.n_eq_blocks, hone, Nat.mul_one]
  have htop : s.topIdx = 2 * s.length := by
    rw [← atBlockEnd_iff.mp hat, blockPos, Nat.mod_eq_of_lt (hn ▸ h.topIdx_lt)]
  have hhalf : s.topIdx = s.cfg.n / 2 := by omega
  subst hs'
  exact ⟨h.moved g h.topIdx_lt h.bottomIdx_lt h.step_le, by simp [hone, hhalf]⟩

theorem atReorder_iff : atReorder s = true ↔ s.length = 1 ∧ s.topIdx < s.cfg.n - 1 := by simp [atReorder]

/-- N and `top_idx` being even, the pair's upper entry is inside the buffer too. -/
theorem StageInv.pair_lt (h : StageInv s) (hat : atPair s = true) : s.topIdx + 1 < s.cfg.n := by
  obtain ⟨-, heven⟩ := atPair_iff.mp hat
  have hn := n_eq_four_mul_q h.legal
  have htop := h.topIdx_lt
  omega

/-- A pair leads to the next pair, or from the last one back to entry 0, where a Reorder pass or a block may start
(R257, R283). -/
theorem pair_next (h : StageInv s) (hat : atPair s = true) {s' : State}
    (hs' : s' = { s with
      buf := m
      bottomIdx := s.topIdx + 1
      topIdx := if s.topIdx + 2 = s.cfg.n then 0 else s.topIdx + 2
      tag := g }) :
    StageInv s' ∧ (if s.topIdx + 2 = s.cfg.n then atReorder s' else atPair s') = true ∧
      (if s.topIdx + 2 = s.cfg.n then atBlockStart s' else atPair s') = true := by
  obtain ⟨hlen, heven⟩ := atPair_iff.mp hat
  have hlt := h.pair_lt hat
  have hn := n_eq_four_mul_q h.legal
  have htop : (if s.topIdx + 2 = s.cfg.n then 0 else s.topIdx + 2) < s.cfg.n := by split <;> omega
  subst hs'
  refine ⟨h.moved g htop hlt h.step_le, ?_⟩
  split
  · next hend => simp [atReorder_iff, atBlockStart_iff, blockPos, hlen]; omega
  · next hend => simpa [atPair_iff, hlen] using heven

/-- A forward Reorder index leads to the next, or from the last one to N − 1 (R258). -/
theorem fwdReorder_next (h : StageInv s) (hat : atReorder s = true) {s' : State}
    (hs' : s' = { s with buf := m, bottomIdx := rev s.cfg s.topIdx, topIdx := s.topIdx + 1, tag := g }) :
    StageInv s' ∧
      (if s.topIdx + 1 = s.cfg.n - 1 then s'.length == 1 && s'.topIdx == s'.cfg.n - 1 else atReorder s') = true := by
  obtain ⟨hlen, hlt⟩ := atReorder_iff.mp hat
  subst hs'
  refine ⟨h.moved g (by omega) (rev_lt ..) h.step_le, ?_⟩
  split
  · next hend => simp [hlen, hend]
  · next hend => simp [atReorder_iff, hlen]; omega

/-- An inverse Reorder index leads to the next, or from the last one to the pair at entry 0 (R282). -/
theorem invReorder_next (h : StageInv s) (hat : atReorder s = true) {s' : State}
    (hs' : s' = { s with
      buf := m
      bottomIdx := rev s.cfg s.topIdx
      topIdx := if s.topIdx + 1 = s.cfg.n - 1 then 0 else s.topIdx + 1
      tag := g }) :
    StageInv s' ∧ (if s.topIdx + 1 = s.cfg.n - 1 then atPair s' else atReorder s') = true := by
  obtain ⟨hlen, hlt⟩ := atReorder_iff.mp hat
  have htop : (if s.topIdx + 1 = s.cfg.n - 1 then 0 else s.topIdx + 1) < s.cfg.n := by split <;> omega
  subst hs'
  refine ⟨h.moved g htop (rev_lt ..) h.step_le, ?_⟩
  split
  · next hend => simp [atPair_iff, hlen]
  · next hend => simp [atReorder_iff, hlen]; omega

end

end Sys2Proof.Machine
end

section
/-! PROOFS. Every engine transition, RUN, every command and every step keep the invariant (10_state.md R34, R36,
R37, 42_twiddle.md R194). -/

namespace Sys2Proof.Machine

/-! ### Engine transitions -/

theorem kind_of_engineStep_ok {s s' : State} (h : engineStep s = .ok s') : s'.kind = s.kind ∧ s.kind ≠ .none := by
  refine ⟨by rw [engineStep_only h], fun hk => ?_⟩
  simp [engineStep, hk] at h

/-- What `cursorsFit` asks of the cursors with this kind and this tag. -/
def cursorsFitAs (k : Kind) (g : Tag) (s : State) : Bool := cursorsFit { s with kind := k, tag := g }

theorem cursorsFit_eq {s : State} {k : Kind} {g : Tag} (hk : s.kind = k) (hg : s.tag = g) :
    cursorsFit s = cursorsFitAs k g s := by
  subst hk hg
  rfl

theorem cursorsFit_of {s : State} {k : Kind} {g : Tag} (hk : s.kind = k) (hg : s.tag = g)
    (hfit : cursorsFitAs k g s = true) : cursorsFit s = true := (cursorsFit_eq hk hg).trans hfit

/-- Where a transition chooses between two next tags, its cursors are to fit the one it chooses. -/
theorem cursorsFit_of_branch {s : State} {k : Kind} {c : Prop} [Decidable c] {g₁ g₂ : Tag} (hk : s.kind = k)
    (hg : s.tag = if c then g₁ else g₂) (hfit : (if c then cursorsFitAs k g₁ s else cursorsFitAs k g₂ s) = true) :
    cursorsFit s = true := by
  refine cursorsFit_of hk hg ?_
  split at hfit
  · next hc => rwa [if_pos hc]
  · next hc => rwa [if_neg hc]

/-- Each transition leads from where its tag says the cursors stand to where the next tag says (R251, R281). -/
theorem engineStep_keeps_fit {s s' : State} (h : StageInv s) (hfit : cursorsFit s = true)
    (hstep : engineStep s = .ok s') : StageInv s' ∧ cursorsFit s' = true := by
  obtain ⟨hkind, -⟩ := kind_of_engineStep_ok hstep
  unfold engineStep at hstep
  split at hstep
  case h_8 | h_16 =>
    cases hstep
    exact ⟨h, hfit⟩
  case h_17 | h_18 | h_19 => cases hstep
  all_goals
    rename_i hk hg
    rw [hk] at hkind
    rw [cursorsFit_eq hk hg] at hfit
  · obtain ⟨_, _, -, -, -, -, hs'⟩ := fwdStep1_ok_iff.mp hstep
    exact (blockStart_next h hfit hs').imp_right (cursorsFit_of_branch hkind (congrArg State.tag hs'))
  · obtain ⟨_, _, _, _, -, -, -, -, -, -, hs'⟩ := fwdStep2_ok_iff.mp hstep
    exact (firstHalf_next h hfit hs').imp_right (cursorsFit_of_branch hkind (congrArg State.tag hs'))
  · obtain ⟨_, _, -, -, -, -, hs'⟩ := fwdStep3_ok_iff.mp hstep
    exact (middle_next h hfit hs').imp_right (cursorsFit_of_branch hkind (congrArg State.tag hs'))
  · obtain ⟨_, _, _, _, -, -, -, -, -, -, hs'⟩ := fwdStep4_ok_iff.mp hstep
    exact (secondHalf_next h hfit hs').imp_right (cursorsFit_of_branch hkind (congrArg State.tag hs'))
  · obtain ⟨hnext, hs'⟩ | ⟨-, hstage, hs'⟩ | ⟨-, hstage, hs'⟩ := fwdStep5_ok_iff.mp hstep
    · exact (blockEnd_nextBlock h hfit hnext hs').imp_right (cursorsFit_of hkind (congrArg State.tag hs'))
    · exact (stageStart_halfLength h hstage hs').imp_right (cursorsFit_of hkind (congrArg State.tag hs'))
    · exact (pairs_of_lastStage h hstage hs').imp_right (cursorsFit_of hkind (congrArg State.tag hs'))
  · obtain ⟨_, _, -, -, -, -, hs'⟩ := fwdStep6_ok_iff.mp hstep
    rw [hg] at hs'
    obtain ⟨h', hnext, -⟩ := pair_next h hfit hs'
    exact ⟨h', cursorsFit_of_branch hkind (congrArg State.tag hs') hnext⟩
  · obtain ⟨_, -, hs'⟩ := fwdReorder_ok_iff.mp hstep
    rw [hg] at hs'
    exact (fwdReorder_next h hfit hs').imp_right (cursorsFit_of_branch hkind (congrArg State.tag hs'))
  · obtain ⟨_, -, hs'⟩ := invReorder_ok_iff.mp hstep
    rw [hg] at hs'
    exact (invReorder_next h hfit hs').imp_right (cursorsFit_of_branch hkind (congrArg State.tag hs'))
  · obtain ⟨_, _, -, -, -, -, hs'⟩ := invStep1_ok_iff.mp hstep
    rw [hg] at hs'
    obtain ⟨h', -, hnext⟩ := pair_next h hfit hs'
    exact ⟨h', cursorsFit_of_branch hkind (congrArg State.tag hs') hnext⟩
  · obtain ⟨_, _, -, -, -, -, hs'⟩ := invStep2_ok_iff.mp hstep
    exact (blockStart_next h hfit hs').imp_right (cursorsFit_of_branch hkind (congrArg State.tag hs'))
  · obtain ⟨_, _, _, _, -, -, -, -, -, -, hs'⟩ := invStep3_ok_iff.mp hstep
    exact (firstHalf_next h hfit hs').imp_right (cursorsFit_of_branch hkind (congrArg State.tag hs'))
  · obtain ⟨_, _, -, -, -, -, hs'⟩ := invStep4_ok_iff.mp hstep
    exact (middle_next h hfit hs').imp_right (cursorsFit_of_branch hkind (congrArg State.tag hs'))
  · obtain ⟨_, _, _, _, -, -, -, -, -, -, hs'⟩ := invStep5_ok_iff.mp hstep
    exact (secondHalf_next h hfit hs').imp_right (cursorsFit_of_branch hkind (congrArg State.tag hs'))
  · obtain ⟨hnext, hs'⟩ | ⟨-, hstage, hs'⟩ | ⟨-, hstage, hs'⟩ := invStep6_ok_iff.mp hstep
    · exact (blockEnd_nextBlock h hfit hnext hs').imp_right (cursorsFit_of hkind (congrArg State.tag hs'))
    · exact (stageStart_doubleLength h hstage hs').imp_right (cursorsFit_of hkind (congrArg State.tag hs'))
    · exact (done_of_lastStage h hfit hstage hs').imp_right (cursorsFit_of hkind (congrArg State.tag hs'))

theorem engineStep_keeps_controlInv {s s' : State} (hinv : ControlInv s) (hstep : engineStep s = .ok s') :
    ControlInv s' := by
  obtain ⟨hkind, hengine⟩ := kind_of_engineStep_ok hstep
  rw [controlInv_iff_of_engine hengine] at hinv
  rw [controlInv_iff_of_engine (hkind ▸ hengine)]
  exact engineStep_keeps_fit hinv.1 hinv.2 hstep

/-- A Reorder transition keeps the buffer canonical, whether it swaps or not. -/
theorem wf_reorder {s : State} {m : List (Nat × Sample)} {t r : Nat} (hwf : Memory.wf s.cfg s.buf = true)
    (h : (if t < r then swapEntries s t r else .ok s) = .ok { s with buf := m }) : Memory.wf s.cfg m = true := by
  split at h
  · obtain ⟨x, y, -, -, hx, hy, hm⟩ := swapEntries_ok_iff.mp h
    have hbuf : m = bufSet (bufSet s.buf t y) r x := congrArg State.buf hm
    exact hbuf ▸ wf_kernelWrites (kernelFits_swap _) hwf hx hy
  · have hbuf : s.buf = m := congrArg State.buf (Except.ok.inj h)
    exact hbuf ▸ hwf

theorem engineStep_keeps_wf {s s' : State} (hwf : Memory.wf s.cfg s.buf = true) (hstep : engineStep s = .ok s') :
    Memory.wf s'.cfg s'.buf = true := by
  unfold engineStep at hstep
  split at hstep
  · obtain ⟨_, _, -, -, hx, hy, rfl⟩ := fwdStep1_ok_iff.mp hstep
    exact wf_kernelWrites (kernelFits_difOne _) hwf hx hy
  · obtain ⟨_, _, _, _, -, -, -, -, hx, hy, rfl⟩ := fwdStep2_ok_iff.mp hstep
    exact wf_kernelWrites (kernelFits_difRot _ _ _) hwf hx hy
  · obtain ⟨_, _, -, -, hx, hy, rfl⟩ := fwdStep3_ok_iff.mp hstep
    exact wf_kernelWrites (kernelFits_difNegj _) hwf hx hy
  · obtain ⟨_, _, _, _, -, -, -, -, hx, hy, rfl⟩ := fwdStep4_ok_iff.mp hstep
    exact wf_kernelWrites (kernelFits_difNegjrot _ _ _) hwf hx hy
  · obtain ⟨-, rfl⟩ | ⟨-, -, rfl⟩ | ⟨-, -, rfl⟩ := fwdStep5_ok_iff.mp hstep <;> exact hwf
  · obtain ⟨_, _, -, -, hx, hy, rfl⟩ := fwdStep6_ok_iff.mp hstep
    exact wf_kernelWrites (kernelFits_difOne _) hwf hx hy
  · obtain ⟨_, hm, rfl⟩ := fwdReorder_ok_iff.mp hstep
    exact wf_reorder (s := s) hwf hm
  · cases hstep
    exact hwf
  · obtain ⟨_, hm, rfl⟩ := invReorder_ok_iff.mp hstep
    exact wf_reorder (s := s) hwf hm
  · obtain ⟨_, _, -, -, hx, hy, rfl⟩ := invStep1_ok_iff.mp hstep
    exact wf_kernelWrites (kernelFits_ditScale _) hwf hx hy
  · obtain ⟨_, _, -, -, hx, hy, rfl⟩ := invStep2_ok_iff.mp hstep
    exact wf_kernelWrites (kernelFits_ditOne _) hwf hx hy
  · obtain ⟨_, _, _, _, -, -, -, -, hx, hy, rfl⟩ := invStep3_ok_iff.mp hstep
    exact wf_kernelWrites (kernelFits_ditRot _ _ _) hwf hx hy
  · obtain ⟨_, _, -, -, hx, hy, rfl⟩ := invStep4_ok_iff.mp hstep
    exact wf_kernelWrites (kernelFits_ditPosj _) hwf hx hy
  · obtain ⟨_, _, _, _, -, -, -, -, hx, hy, rfl⟩ := invStep5_ok_iff.mp hstep
    exact wf_kernelWrites (kernelFits_ditPosjrot _ _ _) hwf hx hy
  · obtain ⟨-, rfl⟩ | ⟨-, -, rfl⟩ | ⟨-, -, rfl⟩ := invStep6_ok_iff.mp hstep <;> exact hwf
  · cases hstep
    exact hwf
  all_goals cases hstep

theorem twBuilt_of_engineStep {s s' : State} (hstep : engineStep s = .ok s') : twBuilt s' = twBuilt s := by
  rw [engineStep_only hstep]
  rfl

theorem inv_iff {s : State} : Inv s ↔ ControlInv s ∧ Memory.wf s.cfg s.buf = true ∧ twBuilt s = true := by
  simp only [and_assoc]

/-- Every transition of an engine keeps the invariant. -/
theorem engineStep_keeps_inv {s s' : State} (hinv : Inv s) (hstep : engineStep s = .ok s') : Inv s' := by
  obtain ⟨hcontrol, hwf, htw⟩ := inv_iff.mp hinv
  exact inv_iff.mpr ⟨engineStep_keeps_controlInv hcontrol hstep, engineStep_keeps_wf hwf hstep,
    (twBuilt_of_engineStep hstep).trans htw⟩

/-- RUN's loop keeps the invariant, a transition at a time (R311). -/
theorem runLoop_keeps_inv {fuel : Nat} {s t : State} {n : Nat} (hinv : Inv s) (h : runLoop fuel s = .ok (t, n)) :
    Inv t := by
  induction fuel generalizing s n with
  | zero =>
    by_cases hd : s.tag = .done
    · rw [runLoop_done hd] at h
      cases h
      exact hinv
    · rw [runLoop_zero hd] at h
      cases h
  | succ fuel ih =>
    by_cases hd : s.tag = .done
    · rw [runLoop_done hd] at h
      cases h
      exact hinv
    · rw [runLoop_succ hd] at h
      cases hstep : engineStep s with
      | error f => simp [hstep] at h
      | ok u =>
        simp only [hstep, except_map_ok_iff] at h
        obtain ⟨⟨_, _⟩, hrest, hpair⟩ := h
        cases hpair
        exact ih (engineStep_keeps_inv hinv hstep) hrest

/-! ### Commands -/

/-- If there is a next state, it meets the invariant. -/
def AnswersInv (o : Host.Outcome State Fault Refusal) : Prop := ∀ t, o = .next t → Inv t

theorem answersInv_next {s : State} (h : Inv s) : AnswersInv (.next s) := fun _ ht => Host.Outcome.next.inj ht ▸ h

theorem answersInv_fault (f : Fault) : AnswersInv (.fault f) := fun _ ht => nomatch ht

/-- The invariant does not speak of the response. -/
theorem answersInv_respond {s : State} (r0 r1 : Word) (h : Inv s) : AnswersInv (respond r0 r1 s) := answersInv_next h

/-- The invariant does not speak of the error bits. -/
theorem answersInv_raise {s : State} (c : RespCode) (h : Inv s) : AnswersInv (raise c s) := answersInv_next h

theorem answersInv_ite {c : Prop} [Decidable c] {a b : Host.Outcome State Fault Refusal} (ha : AnswersInv a)
    (hb : AnswersInv b) : AnswersInv (if c then a else b) := by
  split
  · exact ha
  · exact hb

theorem answersInv_dite {c : Prop} [Decidable c] {a : c → Host.Outcome State Fault Refusal}
    {b : ¬c → Host.Outcome State Fault Refusal} (ha : ∀ h, AnswersInv (a h)) (hb : ∀ h, AnswersInv (b h)) :
    AnswersInv (if h : c then a h else b h) := by
  split
  · exact ha _
  · exact hb _

/-- With no engine the invariant asks nothing more of the cursors than their ranges. -/
theorem inv_of_noEngine {s : State} (hlegal : s.cfg.legal = true) (hkind : s.kind = .none) (htag : s.tag = .none)
    (hrange : cursorsInRange s = true) (hwf : Memory.wf s.cfg s.buf = true) (htw : twBuilt s = true) : Inv s :=
  ⟨hlegal, by simp [kindTagAgree, hkind, htag], hrange, by simp [engineFits, hkind], hwf, htw⟩

theorem isPow2_q {c : Config} (hc : c.legal = true) : isPow2 c.q = true := isPow2_iff.mpr ⟨_, q_eq_two_pow hc⟩

theorem n_pos (c : Config) : 0 < c.n := Nat.two_pow_pos _

/-- A new forward engine stands at the start of the first block of the stage with length Q (R250). -/
theorem execFwdNew_answersInv {s : State} (h : Inv s) : AnswersInv (execFwdNew s) := by
  obtain ⟨⟨hlegal, -⟩, hwf, htw⟩ := inv_iff.mp h
  refine answersInv_respond _ _ (inv_iff.mpr ⟨(controlInv_iff_of_engine (by simp)).mpr ⟨?_, ?_⟩, hwf, htw⟩)
  · exact ⟨hlegal, Nat.mul_one _, isPow2_q hlegal, rfl, Nat.zero_le _, n_pos _, n_pos _⟩
  · simp [cursorsFit, atBlockStart_iff, blockPos]

/-- A new inverse engine stands before index 0 of its Reorder pass (R280). -/
theorem execInvNew_answersInv {s : State} (h : Inv s) : AnswersInv (execInvNew s) := by
  obtain ⟨⟨hlegal, -⟩, hwf, htw⟩ := inv_iff.mp h
  have hstage : StageInv { s with
      kind := .inv, tag := .reorder, length := 1, stepSize := s.cfg.q, step := 0, topIdx := 0, bottomIdx := 0 } :=
    ⟨hlegal, Nat.one_mul _, rfl, isPow2_q hlegal, Nat.zero_le _, n_pos _, n_pos _⟩
  refine answersInv_respond _ _ (inv_iff.mpr ⟨(controlInv_iff_of_engine (by simp)).mpr ⟨hstage, ?_⟩, hwf, htw⟩)
  exact atReorder_iff.mpr ⟨rfl, Nat.sub_pos_of_lt (Nat.lt_of_lt_of_le (by decide) hstage.four_le_n)⟩

theorem execBufWr_answersInv {s : State} (h : Inv s) (i : Nat) (a b : Word) : AnswersInv (execBufWr i a b s) := by
  unfold execBufWr
  split
  · exact answersInv_raise _ h
  · split
    · exact answersInv_raise _ h
    · next hi =>
      obtain ⟨hcontrol, hwf, htw⟩ := inv_iff.mp h
      refine answersInv_respond _ _ (inv_iff.mpr ⟨hcontrol, ?_, htw⟩)
      exact wf_memWrite hwf (Nat.lt_of_not_le hi) (fitsT_opT ..) (fitsT_opT ..)

theorem execBufRd_answersInv {s : State} (h : Inv s) (i : Nat) : AnswersInv (execBufRd i s) := by
  refine answersInv_ite (answersInv_raise _ h) (answersInv_ite (answersInv_raise _ h) ?_)
  split
  · exact answersInv_fault _
  · exact answersInv_respond _ _ h

theorem execStep_answersInv {s : State} (h : Inv s) : AnswersInv (execStep s) := by
  intro t ht
  obtain ⟨-, rfl⟩ | ⟨-, s', hstep, rfl⟩ := execStep_next_iff.mp ht
  · exact h
  · have hinv : Inv s' := engineStep_keeps_inv h hstep
    exact hinv

theorem execRun_answersInv {s : State} (h : Inv s) : AnswersInv (execRun s) := by
  intro t ht
  obtain ⟨-, rfl⟩ | ⟨-, u, n, hrun, rfl⟩ := execRun_next_iff.mp ht
  · exact h
  · have hinv : Inv u := runLoop_keeps_inv h hrun
    exact hinv

theorem execCancel_answersInv {s : State} (h : Inv s) : AnswersInv (execCancel s) := by
  obtain ⟨⟨hlegal, -, hrange, -⟩, hwf, htw⟩ := inv_iff.mp h
  exact answersInv_respond _ _ (inv_of_noEngine hlegal rfl rfl hrange hwf htw)

theorem execCurRd_answersInv {s : State} (h : Inv s) (sel : Nat) : AnswersInv (execCurRd sel s) := by
  unfold execCurRd
  split
  case h_6 => exact answersInv_raise _ h
  all_goals exact answersInv_respond _ _ h

theorem execTwRd_answersInv {s : State} (h : Inv s) (i : Nat) : AnswersInv (execTwRd i s) := by
  refine answersInv_ite (answersInv_raise _ h) ?_
  split
  · exact answersInv_fault _
  · exact answersInv_respond _ _ h

/-- Every command keeps the invariant. -/
theorem exec_answersInv {s : State} (h : Inv s) (i : Instr) : AnswersInv (exec i s) := by
  cases i with
  | nop => exact answersInv_respond _ _ h
  | statRd => exact answersInv_respond _ _ h
  | errClr => exact answersInv_respond _ _ h
  | bufWr i a b => exact execBufWr_answersInv h i a b
  | bufRd i => exact execBufRd_answersInv h i
  | fwdNew => exact execFwdNew_answersInv h
  | invNew => exact execInvNew_answersInv h
  | step => exact execStep_answersInv h
  | run => exact execRun_answersInv h
  | isDone => exact answersInv_ite (answersInv_raise _ h) (answersInv_respond _ _ h)
  | cancel => exact execCancel_answersInv h
  | curRd sel => exact execCurRd_answersInv h sel
  | sin a => exact answersInv_ite (answersInv_respond _ _ h) (answersInv_raise _ h)
  | revbits x => exact answersInv_respond _ _ h
  | twRd i => exact execTwRd_answersInv h i
  | atanRd i => exact answersInv_dite (fun _ => answersInv_respond _ _ h) fun _ => answersInv_raise _ h
  | gainRd i => exact answersInv_dite (fun _ => answersInv_respond _ _ h) fun _ => answersInv_raise _ h

/-! ### Reset and the step -/

theorem transact_answersInv {s : State} (h : Inv s) (t : Txn) : AnswersInv (transact t s) := by
  unfold transact
  split
  · exact exec_answersInv h _
  · exact answersInv_raise _ h

theorem cursorsInRange_of_zero {s : State} (hlen : s.length = 0) (hsize : s.stepSize = 0) (hstep : s.step = 0)
    (htop : s.topIdx = 0) (hbottom : s.bottomIdx = 0) : cursorsInRange s = true := by
  rw [cursorsInRange_iff, hlen, hsize, hstep, htop, hbottom]
  exact ⟨Nat.zero_le _, Nat.zero_le _, Nat.zero_le _, n_pos _, n_pos _⟩

theorem inv_applyReset {s : State} (hlegal : s.cfg.legal = true) (htw : twBuilt s = true) : Inv (applyReset s) :=
  inv_of_noEngine hlegal rfl rfl (cursorsInRange_of_zero rfl rfl rfl rfl rfl) (wf_applyReset s) htw

/-- Settles O41: no engine, cursors 0, an empty buffer, and the table just built. -/
theorem invariantHoldsAtReset : Obligations.InvariantHoldsAtReset :=
  fun _ _ _ hlegal =>
    inv_of_noEngine hlegal rfl rfl (cursorsInRange_of_zero rfl rfl rfl rfl rfl) (wf_nil _) (beq_self_eq_true _)

/-- Settles O42, by the cases of the port: idle, the reset event, and a transaction, whose command keeps the
invariant. -/
theorem invariantKeptByEveryStep : Obligations.InvariantKeptByEveryStep := by
  intro s t hinv hstep
  unfold step at hstep
  split at hstep
  · exact answersInv_next hinv t hstep
  · next rest _ =>
    obtain ⟨⟨hlegal, -⟩, -, htw⟩ := inv_iff.mp hinv
    exact answersInv_next (inv_applyReset (s := { s with port := rest }) hlegal htw) t hstep
  · next txn rest _ => exact transact_answersInv (s := { s with port := rest }) hinv txn t hstep

end Sys2Proof.Machine
end

section
/-! PROOFS. The entries and table indices of an engine's next transition (10_state.md R36, 42_twiddle.md R195,
44_butterfly.md R235). -/

namespace Sys2Proof.Machine

section
variable {s : State} (h : StageInv s)
include h

/-- Before a butterfly k < 2L the two entries are 2L apart, and the lower one is inside the buffer. -/
theorem StageInv.butterfly_indices (hpos : blockPos s < 2 * s.length) :
    s.topIdx < s.topIdx + 2 * s.length ∧ s.topIdx + 2 * s.length < s.cfg.n := by
  have hlen := h.length_pos
  exact ⟨by omega, h.bottom_lt hpos⟩

/-- The four positions an engine does a butterfly at lie before 2L. -/
theorem StageInv.blockPos_lt (hat : atBlockStart s = true ∨ inFirstHalf s = true ∨ atMiddle s = true ∨
    inSecondHalf s = true) : blockPos s < 2 * s.length := by
  have hlen := h.length_pos
  rw [atBlockStart_iff, inFirstHalf_iff, atMiddle_iff, inSecondHalf_iff] at hat
  omega

/-- The twiddle index j·S with 0 < j < L lies strictly between 0 and Q (R251). -/
theorem StageInv.twiddle_range {j : Nat} (hlo : 0 < j) (hhi : j < s.length) (hstep : s.step = j * s.stepSize) :
    1 ≤ s.step ∧ s.step < s.cfg.q :=
  hstep ▸ ⟨Nat.mul_pos hlo h.stepSize_pos, (h.mul_stepSize_lt_iff j).mpr hhi⟩

theorem StageInv.twiddle_range_of_half (hat : inFirstHalf s = true ∨ inSecondHalf s = true) :
    1 ≤ s.step ∧ s.step < s.cfg.q := by
  rw [inFirstHalf_iff, inSecondHalf_iff] at hat
  obtain ⟨hlo, hhi, hstep⟩ | ⟨hlo, hhi, hstep⟩ := hat
  · exact h.twiddle_range hlo hhi hstep
  · exact h.twiddle_range (Nat.sub_pos_of_lt hlo) (by omega) hstep

end

/-- What the next transition may write: a butterfly's two entries, an adjacent pair, a Reorder swap's two entries, or
nothing. -/
theorem touched_cases {s : State} (hfit : cursorsFit s = true) :
    (touched s = [s.topIdx, s.topIdx + 2 * s.length] ∧
        (atBlockStart s = true ∨ inFirstHalf s = true ∨ atMiddle s = true ∨ inSecondHalf s = true)) ∨
      (touched s = [s.topIdx, s.topIdx + 1] ∧ atPair s = true) ∨
      (touched s = [s.topIdx, rev s.cfg s.topIdx] ∧ s.topIdx < rev s.cfg s.topIdx) ∨ touched s = [] := by
  unfold touched
  split
  case h_1 hk ht | h_2 hk ht | h_3 hk ht | h_4 hk ht | h_5 hk ht | h_6 hk ht | h_7 hk ht | h_8 hk ht | h_9 hk ht |
      h_10 hk ht =>
    simp only [cursorsFit, hk, ht] at hfit
    simp [hfit]
  case h_11 | h_12 =>
    split
    · next hlt => exact .inr (.inr (.inl ⟨rfl, hlt⟩))
    · exact .inr (.inr (.inr rfl))
  all_goals exact .inr (.inr (.inr rfl))

/-- The two entries of the next transition are in order and inside the buffer. -/
theorem touched_lt {s : State} (h : StageInv s) (hfit : cursorsFit s = true) {t b : Nat} (htb : touched s = [t, b]) :
    t < b ∧ b < s.cfg.n := by
  obtain ⟨heq, hat⟩ | ⟨heq, hat⟩ | ⟨heq, hlt⟩ | heq := touched_cases hfit <;> rw [heq] at htb <;> cases htb
  · exact h.butterfly_indices (h.blockPos_lt hat)
  · exact ⟨Nat.lt_succ_self _, h.pair_lt hat⟩
  · exact ⟨hlt, rev_lt ..⟩

/-- The engine's twiddled states are those inside the first or the second half of a block. -/
theorem inHalf_of_twiddled {s : State} (hfit : cursorsFit s = true)
    (ht : (s.kind = .fwd ∧ (s.tag = .step2 ∨ s.tag = .step4)) ∨ (s.kind = .inv ∧ (s.tag = .step3 ∨ s.tag = .step5))) :
    inFirstHalf s = true ∨ inSecondHalf s = true := by
  obtain ⟨hk, ht | ht⟩ | ⟨hk, ht | ht⟩ := ht <;> simp only [cursorsFit, hk, ht] at hfit <;> simp [hfit]

/-- Settles O44: the entries by the position in the block, the table indices by step being j·S with 0 < j < L. -/
theorem engineIndicesInRange : Obligations.EngineIndicesInRange := by
  intro s hinv
  by_cases hk : s.kind = .none
  · simp [touched, hk]
  obtain ⟨h, hfit⟩ := (controlInv_iff_of_engine hk).mp hinv
  refine ⟨fun t b htb => touched_lt h hfit htb, fun htw => ?_⟩
  obtain ⟨hlo, hhi⟩ := h.twiddle_range_of_half (inHalf_of_twiddled hfit htw)
  omega

end Sys2Proof.Machine
end

section
/-! PROOFS. The fields of the STATUS word (10_state.md R41). -/

namespace Sys2Proof.Machine

section
variable (s : State)

theorem status_kind : (status s).extractLsb' 0 2 = kindBits s.kind := BitVec.extractLsb'_append_eq_right

theorem status_tag : (status s).extractLsb' 2 4 = tagBits s.tag := by
  unfold status
  simp (disch := decide) only [BitVec.extractLsb'_append_eq_of_le]
  exact BitVec.extractLsb'_append_eq_right

theorem status_active : (status s).getLsbD 6 = true ↔ s.kind ≠ .none ∧ s.tag ≠ .done := by
  have hbit : (status s).getLsbD 6 = active s := by
    unfold status
    simp only [BitVec.getLsbD_append]
    simp
  rw [hbit]
  simp [active]

theorem status_done : (status s).getLsbD 7 = true ↔ s.tag = .done := by
  unfold status
  simp only [BitVec.getLsbD_append]
  simp

theorem status_err : (status s).extractLsb' 8 5 = s.err := by
  unfold status
  simp (disch := decide) only [BitVec.extractLsb'_append_eq_of_le]
  exact BitVec.extractLsb'_append_eq_right

theorem status_reserved_low : (status s).extractLsb' 13 3 = 0 := by
  unfold status
  simp (disch := decide) only [BitVec.extractLsb'_append_eq_of_le]
  exact BitVec.extractLsb'_append_eq_right

theorem status_log2n : (status s).extractLsb' 16 5 = BitVec.ofNat 5 s.cfg.log2n := by
  unfold status
  simp (disch := decide) only [BitVec.extractLsb'_append_eq_of_le]
  exact BitVec.extractLsb'_append_eq_right

theorem status_prec : (status s).getLsbD 21 = true ↔ s.cfg.prec = .b64 := by
  unfold status
  simp only [BitVec.getLsbD_append]
  cases s.cfg.prec <;> simp [precBits]

theorem status_reserved_high : (status s).extractLsb' 22 10 = 0 := by
  unfold status
  simp (disch := decide) only [BitVec.extractLsb'_append_eq_of_le]
  exact BitVec.extractLsb'_eq_self

end

/-- Settles O3: the codes by their definitions, and each field of the word by its place in the concatenation. -/
theorem statusWordFields : Obligations.StatusWordFields := by
  refine ⟨⟨rfl, rfl, rfl⟩, ⟨rfl, rfl, rfl, rfl, rfl, rfl, rfl, rfl, rfl⟩, fun s => ?_⟩
  exact ⟨status_kind s, status_tag s, status_active s, status_done s, status_err s, status_reserved_low s,
    status_log2n s, status_prec s, status_reserved_high s⟩

end Sys2Proof.Machine
end

section
/-! PROOFS. No command reads the port or the last response (10_state.md R31): each operation, given another port and
another last response, answers what it answers without them (assumption 3). -/

namespace Sys2Proof.Machine

/-- The state with other events waiting at the port and another last response. -/
def State.withInterface (s : State) (q : List PortEvent) (r : Option Response) : State :=
  { s with port := q, resp := r }

/-- The outcome with other events waiting at the port of the next state. -/
def outcomeWithPort (q : List PortEvent) : Host.Outcome State Fault Refusal → Host.Outcome State Fault Refusal
  | .next t => .next { t with port := q }
  | .fault f => .fault f
  | .refused x => .refused x

section
variable (s : State) (q : List PortEvent) (r : Option Response)

/-! ### Operations and engine transitions -/

theorem except_map_comm {ε α : Type} {e e' : Except ε α} {w f f' : α → α} (he : e' = e.map w)
    (hf : ∀ x, f' (w x) = w (f x)) : e'.map f' = (e.map f).map w := by
  subst he
  cases e with
  | error _ => rfl
  | ok x => exact congrArg Except.ok (hf x)

theorem applyKernel_withInterface (t b : Nat) (k : Sample → Sample → Sample × Sample) :
    applyKernel (s.withInterface q r) t b k = (applyKernel s t b k).map (·.withInterface q r) := by
  have hread : ∀ i, memRead (s.withInterface q r) i = memRead s i := fun _ => rfl
  unfold applyKernel
  rw [hread t, hread b]
  cases memRead s t with
  | error _ => rfl
  | ok x => cases memRead s b <;> rfl

theorem applyTwiddled_withInterface (t b k : Nat) (kernel : Word → Word → Sample → Sample → Sample × Sample) :
    applyTwiddled (s.withInterface q r) t b k kernel =
      (applyTwiddled s t b k kernel).map (·.withInterface q r) := by
  have hread : twCs (s.withInterface q r) k = twCs s k := rfl
  unfold applyTwiddled
  rw [hread]
  cases twCs s k with
  | error _ => rfl
  | ok cs => exact applyKernel_withInterface s q r t b _

theorem ite_withInterface {c : Prop} [Decidable c] {a b a' b' : State} (ha : a' = a.withInterface q r)
    (hb : b' = b.withInterface q r) : (if c then a' else b') = (if c then a else b).withInterface q r := by
  split
  · exact ha
  · exact hb

theorem reorder_withInterface (t b : Nat) :
    (if t < b then swapEntries (s.withInterface q r) t b else .ok (s.withInterface q r)) =
      (if t < b then swapEntries s t b else .ok s : Except Fault State).map (·.withInterface q r) := by
  split
  · exact applyKernel_withInterface s q r t b _
  · rfl

theorem bookkeeping_withInterface {c d : Prop} [Decidable c] [Decidable d] {a b z a' b' z' : State}
    (ha : a' = a.withInterface q r) (hb : b' = b.withInterface q r) (hz : z' = z.withInterface q r) :
    (if c then .ok a' else if d then .ok b' else .ok z' : Except Fault State) =
      (if c then .ok a else if d then .ok b else .ok z : Except Fault State).map (·.withInterface q r) := by
  subst ha hb hz
  split
  · rfl
  · split <;> rfl

theorem engineStep_withInterface :
    engineStep (s.withInterface q r) = (engineStep s).map (·.withInterface q r) := by
  have hkind : (s.withInterface q r).kind = s.kind := rfl
  have htag : (s.withInterface q r).tag = s.tag := rfl
  unfold engineStep
  rw [hkind, htag]
  split
  · exact except_map_comm (applyKernel_withInterface ..) fun _ => ite_withInterface q r rfl rfl
  · exact except_map_comm (applyTwiddled_withInterface ..) fun _ => rfl
  · exact except_map_comm (applyKernel_withInterface ..) fun _ => ite_withInterface q r rfl rfl
  · exact except_map_comm (applyTwiddled_withInterface ..) fun _ => rfl
  · unfold fwdStep5
    exact bookkeeping_withInterface q r rfl rfl rfl
  · exact except_map_comm (applyKernel_withInterface ..) fun _ => ite_withInterface q r rfl rfl
  · exact except_map_comm (reorder_withInterface ..) fun _ => ite_withInterface q r rfl rfl
  · rfl
  · exact except_map_comm (reorder_withInterface ..) fun _ => ite_withInterface q r rfl rfl
  · exact except_map_comm (applyKernel_withInterface ..) fun _ => ite_withInterface q r rfl rfl
  · exact except_map_comm (applyKernel_withInterface ..) fun _ => ite_withInterface q r rfl rfl
  · exact except_map_comm (applyTwiddled_withInterface ..) fun _ => rfl
  · exact except_map_comm (applyKernel_withInterface ..) fun _ => ite_withInterface q r rfl rfl
  · exact except_map_comm (applyTwiddled_withInterface ..) fun _ => rfl
  · unfold invStep6
    exact bookkeeping_withInterface q r rfl rfl rfl
  · rfl
  all_goals rfl

/-! ### The RUN loop and the commands -/

theorem runLoop_withInterface (fuel : Nat) :
    runLoop fuel (s.withInterface q r) = (runLoop fuel s).map fun p => (p.1.withInterface q r, p.2) := by
  induction fuel generalizing s with
  | zero =>
    by_cases hd : s.tag = .done
    · rw [runLoop_done hd, runLoop_done (s := s.withInterface q r) hd]
      rfl
    · rw [runLoop_zero hd, runLoop_zero (s := s.withInterface q r) hd]
      rfl
  | succ fuel ih =>
    by_cases hd : s.tag = .done
    · rw [runLoop_done hd, runLoop_done (s := s.withInterface q r) hd]
      rfl
    · rw [runLoop_succ hd, runLoop_succ (s := s.withInterface q r) hd, engineStep_withInterface]
      cases engineStep s with
      | error _ => rfl
      | ok u => exact except_map_comm (ih u) fun _ => rfl

theorem ite_withPort {c : Prop} [Decidable c] {a b a' b' : Host.Outcome State Fault Refusal}
    (ha : a' = outcomeWithPort q a) (hb : b' = outcomeWithPort q b) :
    (if c then a' else b') = outcomeWithPort q (if c then a else b) := by
  split
  · exact ha
  · exact hb

theorem dite_withPort {c : Prop} [Decidable c] {a a' : c → Host.Outcome State Fault Refusal}
    {b b' : ¬c → Host.Outcome State Fault Refusal} (ha : ∀ h, a' h = outcomeWithPort q (a h))
    (hb : ∀ h, b' h = outcomeWithPort q (b h)) :
    (if h : c then a' h else b' h) = outcomeWithPort q (if h : c then a h else b h) := by
  split
  · exact ha _
  · exact hb _

theorem execBufRd_withInterface (i : Nat) :
    execBufRd i (s.withInterface q r) = outcomeWithPort q (execBufRd i s) := by
  refine ite_withPort q rfl (ite_withPort q rfl ?_)
  have hread : memRead (s.withInterface q r) i = memRead s i := rfl
  rw [hread]
  cases memRead s i <;> rfl

theorem execTwRd_withInterface (i : Nat) :
    execTwRd i (s.withInterface q r) = outcomeWithPort q (execTwRd i s) := by
  refine ite_withPort q rfl ?_
  have hread : twRead (s.withInterface q r) i = twRead s i := rfl
  rw [hread]
  cases twRead s i <;> rfl

theorem execStep_withInterface : execStep (s.withInterface q r) = outcomeWithPort q (execStep s) := by
  refine ite_withPort q rfl ?_
  rw [engineStep_withInterface]
  cases engineStep s <;> rfl

theorem execRun_withInterface : execRun (s.withInterface q r) = outcomeWithPort q (execRun s) := by
  refine ite_withPort q rfl ?_
  have hfuel : (s.withInterface q r).cfg = s.cfg := rfl
  rw [hfuel, runLoop_withInterface]
  cases runLoop (totalSteps s.cfg) s <;> rfl

theorem execCurRd_withInterface (sel : Nat) :
    execCurRd sel (s.withInterface q r) = outcomeWithPort q (execCurRd sel s) := by
  unfold execCurRd
  split <;> rfl

theorem exec_withInterface (i : Instr) : exec i (s.withInterface q r) = outcomeWithPort q (exec i s) := by
  cases i with
  | nop | statRd | errClr | fwdNew | invNew | cancel | revbits => rfl
  | bufWr => exact ite_withPort q rfl (ite_withPort q rfl rfl)
  | bufRd i => exact execBufRd_withInterface s q r i
  | step => exact execStep_withInterface s q r
  | run => exact execRun_withInterface s q r
  | isDone => exact ite_withPort q rfl rfl
  | curRd sel => exact execCurRd_withInterface s q r sel
  | sin => exact ite_withPort q rfl rfl
  | twRd i => exact execTwRd_withInterface s q r i
  | atanRd => exact dite_withPort q (fun _ => rfl) fun _ => rfl
  | gainRd => exact dite_withPort q (fun _ => rfl) fun _ => rfl

end

/-- Settles O57, by the cases of the command; STEP and RUN by the transitions they make. -/
theorem commandsReadNeitherPortNorResponse : Obligations.CommandsReadNeitherPortNorResponse := by
  intro i s q r
  refine (exec_withInterface s q r i).trans ?_
  cases exec i s <;> rfl

end Sys2Proof.Machine
end

section
/-! PROOFS. No step changes a ROM or an elaboration parameter (20_memory.md R84, 00_scope.md R8). -/

namespace Sys2Proof.Machine

/-! ### Outcomes -/

/-- If there is a next state, `P` holds of it. -/
def NextSatisfies (P : State → Prop) (o : Host.Outcome State Fault Refusal) : Prop := ∀ t, o = .next t → P t

section
variable {P : State → Prop}

theorem nextSatisfies_next {s : State} (h : P s) : NextSatisfies P (.next s) :=
  fun _ ht => Host.Outcome.next.inj ht ▸ h

theorem nextSatisfies_fault (f : Fault) : NextSatisfies P (.fault f) := fun _ ht => nomatch ht

theorem nextSatisfies_ite {c : Prop} [Decidable c] {a b : Host.Outcome State Fault Refusal} (ha : NextSatisfies P a)
    (hb : NextSatisfies P b) : NextSatisfies P (if c then a else b) := by
  split
  · exact ha
  · exact hb

theorem nextSatisfies_dite {c : Prop} [Decidable c] {a : c → Host.Outcome State Fault Refusal}
    {b : ¬c → Host.Outcome State Fault Refusal} (ha : ∀ h, NextSatisfies P (a h))
    (hb : ∀ h, NextSatisfies P (b h)) : NextSatisfies P (if h : c then a h else b h) := by
  split
  · exact ha _
  · exact hb _

end

/-! ### What is fixed at elaboration -/

/-- `t` has the ROMs and the elaboration parameters of `s`. -/
def SameElaboration (s t : State) : Prop := t.tw = s.tw ∧ t.atan = s.atan ∧ t.gain = s.gain ∧ t.cfg = s.cfg

/-- It holds by unfolding of every update of `s` that sets other fields only. -/
theorem SameElaboration.refl (s : State) : SameElaboration s s := ⟨rfl, rfl, rfl, rfl⟩

theorem SameElaboration.withResp {s u : State} (h : SameElaboration s u) (r : Option Response) :
    SameElaboration s { u with resp := r } := h

theorem sameElaboration_of_engineStep {s s' : State} (h : engineStep s = .ok s') : SameElaboration s s' := by
  rw [engineStep_only h]
  exact .refl s

theorem sameElaboration_of_runLoop {fuel : Nat} {s t : State} {n : Nat} (h : runLoop fuel s = .ok (t, n)) :
    SameElaboration s t := by
  obtain ⟨-, -, hframe⟩ := runLoop_ok h
  rw [hframe]
  exact .refl s

/-- The outcome's next state, if there is one, has the ROMs and the parameters of `s`. -/
def KeepsElaboration (s : State) (o : Host.Outcome State Fault Refusal) : Prop := NextSatisfies (SameElaboration s) o

section
variable {s : State}

/-- A response sets `resp` alone. -/
theorem respond_keepsElaboration (r0 r1 : Word) {u : State} (h : SameElaboration s u) :
    KeepsElaboration s (respond r0 r1 u) := nextSatisfies_next (h.withResp _)

/-- An error sets `err` and `resp` alone. -/
theorem raise_keepsElaboration (c : RespCode) : KeepsElaboration s (raise c s) := nextSatisfies_next (.refl s)

/-! ### Commands and steps -/

theorem execBufRd_keepsElaboration (i : Nat) : KeepsElaboration s (execBufRd i s) := by
  refine nextSatisfies_ite (raise_keepsElaboration _) (nextSatisfies_ite (raise_keepsElaboration _) ?_)
  split
  · exact nextSatisfies_fault _
  · exact respond_keepsElaboration _ _ (.refl s)

theorem execTwRd_keepsElaboration (i : Nat) : KeepsElaboration s (execTwRd i s) := by
  refine nextSatisfies_ite (raise_keepsElaboration _) ?_
  split
  · exact nextSatisfies_fault _
  · exact respond_keepsElaboration _ _ (.refl s)

theorem execCurRd_keepsElaboration (sel : Nat) : KeepsElaboration s (execCurRd sel s) := by
  unfold execCurRd
  split
  case h_6 => exact raise_keepsElaboration _
  all_goals exact respond_keepsElaboration _ _ (.refl s)

theorem execStep_keepsElaboration : KeepsElaboration s (execStep s) := by
  intro t ht
  obtain ⟨-, rfl⟩ | ⟨-, s', hstep, rfl⟩ := execStep_next_iff.mp ht
  · exact .refl s
  · exact (sameElaboration_of_engineStep hstep).withResp _

theorem execRun_keepsElaboration : KeepsElaboration s (execRun s) := by
  intro t ht
  obtain ⟨-, rfl⟩ | ⟨-, u, n, hrun, rfl⟩ := execRun_next_iff.mp ht
  · exact .refl s
  · exact (sameElaboration_of_runLoop hrun).withResp _

/-- No command writes a ROM or a parameter. -/
theorem exec_keepsElaboration (i : Instr) : KeepsElaboration s (exec i s) := by
  have hdone : ∀ r0 r1, KeepsElaboration s (respond r0 r1 s) := fun r0 r1 => respond_keepsElaboration r0 r1 (.refl s)
  cases i with
  | nop | statRd | revbits => exact hdone _ _
  | errClr | fwdNew | invNew | cancel => exact respond_keepsElaboration _ _ (.refl s)
  | bufWr =>
    exact nextSatisfies_ite (raise_keepsElaboration _)
      (nextSatisfies_ite (raise_keepsElaboration _) (respond_keepsElaboration _ _ (.refl s)))
  | bufRd i => exact execBufRd_keepsElaboration i
  | step => exact execStep_keepsElaboration
  | run => exact execRun_keepsElaboration
  | isDone => exact nextSatisfies_ite (raise_keepsElaboration _) (hdone _ _)
  | curRd sel => exact execCurRd_keepsElaboration sel
  | sin => exact nextSatisfies_ite (hdone _ _) (raise_keepsElaboration _)
  | twRd i => exact execTwRd_keepsElaboration i
  | atanRd | gainRd => exact nextSatisfies_dite (fun _ => hdone _ _) fun _ => raise_keepsElaboration _

theorem transact_keepsElaboration (t : Txn) : KeepsElaboration s (transact t s) := by
  unfold transact
  split
  · exact exec_keepsElaboration _
  · exact raise_keepsElaboration _

end

/-- Settles O43, by the cases of the port: idle, the reset event, and a transaction, legal or not. -/
theorem romsAndParametersNeverChange : Obligations.RomsAndParametersNeverChange := by
  intro s
  unfold step
  split
  · exact nextSatisfies_next (P := SameElaboration s) (.refl s)
  · exact nextSatisfies_next (P := SameElaboration s) (.refl s)
  · next txn rest _ => exact transact_keepsElaboration (s := { s with port := rest }) txn

end Sys2Proof.Machine
end

section
/-! PROOFS. The decoder and the encoder undo each other (30_encoding.md R101, R104, R106, R108), which opcodes are
legal and what an illegal one does (R105), and the operand and result words (R102, R103). -/

namespace Sys2Proof.Machine

/-! ### The fields of a well-formed instruction -/

theorem opcode_lt (i : Instr) : opcode i < 256 := by
  cases i <;> simp [opcode]

/-- Well-formedness says that IDX can carry the index, and nothing else. -/
theorem wf_iff_idxField_lt (i : Instr) : i.wf = true ↔ idxField i < 2 ^ 24 := by
  cases i <;> simp [Instr.wf, idxFits, idxField]

theorem opcOf_idxOf_encode {i : Instr} (h : i.wf = true) :
    opcOf (encode i).cmd = opcode i ∧ idxOf (encode i).cmd = idxField i :=
  Laws.encodedWord_of (opcode_lt i) (wf_iff_idxField_lt i).mp h

/-! ### Decoding and encoding -/

/-- A transaction with the four fields of an instruction decodes to it: the decoder's rows have distinct opcodes. -/
theorem decode_eq_ok_of_fields {t : Txn} {i : Instr} (hopc : opcOf t.cmd = opcode i)
    (hidx : idxOf t.cmd = idxField i) (hopa : t.opa = opaField i) (hopb : t.opb = opbField i) :
    decode t = .ok i := by
  cases i
  all_goals
    simp only [opcode, idxField, opaField, opbField] at hopc hidx hopa hopb
    simp only [decode, hopc, hidx, hopa, hopb]

/-- A decoded instruction carries the fields its row of the opcode map lists as used, and 0 in the others. -/
theorem fields_of_decode_ok {t : Txn} {i : Instr} (h : decode t = .ok i) :
    idxField i = (if opcOf t.cmd ∈ [0x08, 0x09, 0x16, 0x21, 0x22, 0x23, 0x24] then idxOf t.cmd else 0) ∧
      opaField i = (if opcOf t.cmd ∈ [0x08, 0x20] then t.opa else 0) ∧
      opbField i = if opcOf t.cmd = 0x08 then t.opb else 0 := by
  unfold decode at h
  split at h <;> cases h <;> rename_i hopc <;> simp [hopc, idxField, opaField, opbField]

theorem idxField_lt_of_decode_ok {t : Txn} {i : Instr} (h : decode t = .ok i) : idxField i < 2 ^ 24 := by
  obtain ⟨-, hidx | hidx⟩ := decode_ok_fields h
  · exact hidx ▸ idxOf_lt t.cmd
  · simp [hidx]

/-- Settles O36: the encoding has the instruction's four fields. -/
theorem decodeOfEncode : Obligations.DecodeOfEncode := by
  intro i hwf
  obtain ⟨hopc, hidx⟩ := opcOf_idxOf_encode hwf
  exact decode_eq_ok_of_fields hopc hidx rfl rfl

/-- Settles O37: the opcode and the index fit their fields, and each field is the transaction's own or 0. -/
theorem decodedIsTheTransaction : Obligations.DecodedIsTheTransaction := by
  intro t i hdec
  have hlt := idxField_lt_of_decode_ok hdec
  obtain ⟨hopc, -⟩ := decode_ok_fields hdec
  obtain ⟨hidx, hopa, hopb⟩ := fields_of_decode_ok hdec
  refine ⟨(wf_iff_idxField_lt i).mpr hlt, ?_, hopa, hopb⟩
  calc (encode i).cmd.toNat = opcode i * 2 ^ 24 + idxField i := cmd_toNat (opcode_lt i) hlt
    _ = _ := by rw [hopc, hidx]

/-- Settles O38, by evaluating the decoder. -/
theorem decodeOfWrittenOutWords : Obligations.DecodeOfWrittenOutWords :=
  ⟨rfl, rfl, rfl, rfl, rfl, rfl, rfl, rfl⟩

/-! ### Illegal opcodes -/

/-- The 17 opcodes of the map (R104). -/
def legalOpcodes : List Nat :=
  [0x00, 0x01, 0x02, 0x08, 0x09, 0x10, 0x11, 0x12, 0x13, 0x14, 0x15, 0x16, 0x20, 0x21, 0x22, 0x23, 0x24]

theorem opcode_mem_legalOpcodes (i : Instr) : opcode i ∈ legalOpcodes := by
  cases i <;> simp [opcode, legalOpcodes]

/-- The decoder has a row for each opcode of the map: its last row is reached from none of the 17. -/
theorem exists_decode_ok {t : Txn} (h : opcOf t.cmd ∈ legalOpcodes) : ∃ i, decode t = .ok i := by
  unfold decode
  split
  case h_18 => simp_all [legalOpcodes]
  all_goals exact ⟨_, rfl⟩

/-- Any other opcode is refused by its own number: a decoded one would be a command's. -/
theorem decode_of_illegal {t : Txn} (h : opcOf t.cmd ∉ legalOpcodes) :
    decode t = .error (.illegalOpc (opcOf t.cmd)) := by
  cases hdec : decode t with
  | ok i => exact absurd ((decode_ok_fields hdec).1 ▸ opcode_mem_legalOpcodes i) h
  | error e => rw [decode_error_opc hdec]

theorem transact_of_decode_error {t : Txn} {e : DecodeError} (h : decode t = .error e) (s : State) :
    transact t s = raise .illegalCmd s := by
  simp [transact, h, takeIllegal]

/-- Settles O39: the count over the 256 opcodes, and the two sides of the map. -/
theorem illegalOpcodesAnswered : Obligations.IllegalOpcodesAnswered := by
  refine ⟨by decide +kernel, fun t => ⟨exists_decode_ok, fun hillegal => ?_⟩⟩
  have hdec := decode_of_illegal hillegal
  exact ⟨hdec, fun s => transact_of_decode_error hdec s⟩

/-! ### Operand and result words -/

theorem opT_b32_toNat (w : Word) : (opT .b32 w).toNat = w.toNat % 2 ^ 32 := by
  rw [opT, BitVec.toNat_setWidth, BitVec.toNat_setWidth]
  omega

/-- A T result is made as a T operand is read. -/
theorem resT_eq_opT (p : Prec) (w : Word) : resT p w = opT p w := by
  cases p <;> rfl

theorem resNat_toNat {n : Nat} (h : n < 2 ^ 64) : (resNat n).toNat = n :=
  (BitVec.toNat_ofNat ..).trans (Nat.mod_eq_of_lt h)

/-- Settles O5: only the T words of B32 are not the word itself. -/
theorem operandAndResultWords : Obligations.OperandAndResultWords := by
  intro w n
  refine ⟨rfl, opT_b32_toNat w, rfl, rfl, ?_, rfl, resNat_toNat⟩
  rw [resT_eq_opT, opT_b32_toNat]

end Sys2Proof.Machine
end

section
/-! PROOFS. The host and buffer commands (40_host_commands.md R130 to R134): what each guard of BUF_WR and BUF_RD
answers, in the order of R345, and the whole effect of NOP, STAT_RD and ERR_CLR. -/

namespace Sys2Proof.Machine

/-! ### The buffer commands, one lemma per branch -/

section
variable {s : State} {i : Nat}

theorem exec_bufWr_of_active (hact : active s = true) (a b : Word) :
    exec (.bufWr i a b) s = raise .ownership s := if_pos hact

theorem exec_bufWr_of_ge (hidle : active s = false) (hi : s.cfg.n ≤ i) (a b : Word) :
    exec (.bufWr i a b) s = raise .indexRange s := by
  simp [exec, execBufWr, hidle, hi]

theorem exec_bufWr_of_lt (hidle : active s = false) (hi : i < s.cfg.n) (a b : Word) :
    exec (.bufWr i a b) s = respond 0 0 (memWrite s i ⟨opT s.cfg.prec a, opT s.cfg.prec b⟩) := by
  simp [exec, execBufWr, hidle, hi]

theorem exec_bufRd_of_active (hact : active s = true) : exec (.bufRd i) s = raise .ownership s := if_pos hact

theorem exec_bufRd_of_ge (hidle : active s = false) (hi : s.cfg.n ≤ i) :
    exec (.bufRd i) s = raise .indexRange s := by
  simp [exec, execBufRd, hidle, hi]

/-- An entry nothing has written reads as nothing, so the read is R353's fault. -/
theorem exec_bufRd_of_unwritten (hidle : active s = false) (hi : i < s.cfg.n) (hnew : written s i = false) :
    exec (.bufRd i) s = .fault (.unwrittenRead i) := by
  have hread : memRead s i = .error (.unwrittenRead i) :=
    memRead_error_iff.mpr (.inl ⟨hi, hnew, rfl⟩)
  simp [exec, execBufRd, hidle, hi, hread]

theorem exec_bufRd_of_bufGet {z : Sample} (hidle : active s = false) (hi : i < s.cfg.n)
    (hz : bufGet s.buf i = some z) :
    exec (.bufRd i) s = respond (resT s.cfg.prec z.re) (resT s.cfg.prec z.im) s := by
  have hread : memRead s i = .ok z := memRead_ok_iff.mpr ⟨hi, hz⟩
  simp [exec, execBufRd, hidle, hi, hread]

end

/-! ### The commands' rules -/

/-- Settles O4: the decoder's first three rows, and each command's one response. -/
theorem nopStatusAndErrorClear : Obligations.NopStatusAndErrorClear := by
  refine ⟨fun t hopc => ?nopRow, fun t hopc => ?statRdRow, fun t hopc => ?errClrRow, fun s => ⟨?nop, ?statRd, ?errClr⟩⟩
  case nopRow | statRdRow | errClrRow => simp only [decode, hopc]
  case nop => exact respond_eq 0 0 s
  case statRd => exact respond_eq ((status s).setWidth 64) 0 s
  case errClr => exact respond_eq 0 0 { s with err := 0 }

/-- Settles O6: a branch each, and the buffer written is the one of `bufSet`. -/
theorem bufferWriteRule : Obligations.BufferWriteRule := by
  refine ⟨fun t hopc => decode_eq_ok_of_fields hopc rfl rfl rfl, fun s i a b => ⟨?owned, ?range, ?stored⟩⟩
  case owned => exact fun hact => exec_bufWr_of_active hact a b
  case range => exact fun hidle hi => exec_bufWr_of_ge hidle hi a b
  case stored =>
    intro hidle hi
    exact ⟨_, exec_bufWr_of_lt hidle hi a b, bufGet_bufSet_same .., fun j hj => bufGet_bufSet_ne _ _ hj⟩

/-- Settles O7: a branch each; below N the answer turns on whether the entry is written. -/
theorem bufferReadRule : Obligations.BufferReadRule := by
  refine ⟨fun t hopc => ?row, fun s i => ⟨?owned, ?range, ?unwritten, ?stored⟩⟩
  case row => simp only [decode, hopc]
  case owned => exact exec_bufRd_of_active
  case range => exact exec_bufRd_of_ge
  case unwritten => exact exec_bufRd_of_unwritten
  case stored => exact fun z => exec_bufRd_of_bufGet

end Sys2Proof.Machine
end

section
/-! PROOFS. The CORDIC evaluator and its commands (41_cordic.md R162 to R167): `cordicSin` as the recurrence of R163,
the domain test in bits, and what SIN, ATAN_RD and GAIN_RD answer. -/

namespace Sys2Proof.Machine

/-! ### The recurrence -/

section
variable {a : Word} {r : Rotation} (v : Word)

theorem rotate_of_lt (h : lt64 r.theta a = true) :
    rotate a r v = ⟨add64 r.theta v, sub64 r.x (mul64 r.y r.p2i), add64 r.y (mul64 r.x r.p2i),
      mul64 r.p2i 0x3FE0000000000000⟩ := if_pos h

theorem rotate_of_not_lt (h : lt64 r.theta a = false) :
    rotate a r v = ⟨sub64 r.theta v, add64 r.x (mul64 r.y r.p2i), sub64 r.y (mul64 r.x r.p2i),
      mul64 r.p2i 0x3FE0000000000000⟩ := if_neg (by simp [h])

end

/-- A sequence that starts at `Rotation.start` and takes one iteration per arctangent step is the evaluator's. -/
theorem foldl_rotate_take (atan : Vector Word 64) (a : Word) {r : Nat → Rotation} (hstart : r 0 = Rotation.start)
    (hnext : ∀ (i : Nat) (h : i < 63), r (i + 1) = rotate a (r i) atan[i]) {k : Nat} (hk : k ≤ 63) :
    (atan.toList.take k).foldl (rotate a) Rotation.start = r k := by
  induction k with
  | zero => exact hstart.symm
  | succ k ih =>
    have htake : atan.toList.take (k + 1) = atan.toList.take k ++ [atan[k]] :=
      (List.take_concat_get' _ k (by simp; omega)).symm
    rw [htake, List.foldl_concat, ih (by omega), hnext k hk]

/-- Settles O10: the four sequences together are a sequence of rotations, each clause being one side of `rotate`. -/
theorem cordicRecurrence : Obligations.CordicRecurrence := by
  intro atan gain a theta x y p2i htheta hx hy hp2i hrec
  have hnext : ∀ (i : Nat) (h : i < 63), (⟨theta (i + 1), x (i + 1), y (i + 1), p2i (i + 1)⟩ : Rotation) =
      rotate a ⟨theta i, x i, y i, p2i i⟩ atan[i] := by
    intro i hi
    obtain ⟨hhalf, hup, hdown⟩ := hrec i hi
    cases hlt : lt64 (theta i) a with
    | true =>
      obtain ⟨htheta', hx', hy'⟩ := hup hlt
      rw [rotate_of_lt _ hlt, htheta', hx', hy', hhalf]
    | false =>
      obtain ⟨htheta', hx', hy'⟩ := hdown hlt
      rw [rotate_of_not_lt _ hlt, htheta', hx', hy', hhalf]
  have hfold := foldl_rotate_take atan a (r := fun i => ⟨theta i, x i, y i, p2i i⟩)
    (by simp only [htheta, hx, hy, hp2i]; rfl) hnext (le_refl 63)
  rw [cordicSin, cordicSteps, hfold]

/-! ### The domain test -/

theorem natAbs_orderKey (p : Prec) (w : Word) : (orderKey p w).natAbs = magOf p w := by
  unfold orderKey
  split <;> omega

theorem orderKey_negT (p : Prec) (w : Word) : orderKey p (negT p w) = -orderKey p w := by
  cases h : signOf p w <;> simp [orderKey, h]

theorem lt64_iff {a b : Word} :
    lt64 a b = true ↔ isNaN .b64 a = false ∧ isNaN .b64 b = false ∧ orderKey .b64 a < orderKey .b64 b := by
  simp [lt64, and_assoc]

/-- Strictly between −c and c lie the words of smaller magnitude: a smaller magnitude is no NaN's. -/
theorem gt64_negT_and_lt64_iff {a c : Word} (hnan : isNaN .b64 c = false) (hpos : signOf .b64 c = false) :
    gt64 a (negT .b64 c) = true ∧ lt64 a c = true ↔ magOf .b64 a < magOf .b64 c := by
  have hc : orderKey .b64 c = magOf .b64 c := by simp [orderKey, hpos]
  have habs : magOf .b64 a < magOf .b64 c ↔
      -orderKey .b64 c < orderKey .b64 a ∧ orderKey .b64 a < orderKey .b64 c := by
    have ha := natAbs_orderKey .b64 a
    omega
  have hnum : magOf .b64 a < magOf .b64 c → isNaN .b64 a = false := by
    intro hlt
    simp only [isNaN, decide_eq_false_iff_not] at hnan ⊢
    omega
  rw [gt64, lt64_iff, lt64_iff, isNaN_negT, orderKey_negT]
  exact ⟨fun ⟨⟨_, _, hlo⟩, _, _, hhi⟩ => habs.mpr ⟨hlo, hhi⟩,
    fun hlt => ⟨⟨hnan, hnum hlt, (habs.mp hlt).1⟩, hnum hlt, hnan, (habs.mp hlt).2⟩⟩

theorem gt64_and_lt64_fracPi2_iff (a : Word) :
    gt64 a negFracPi2 = true ∧ lt64 a fracPi2 = true ↔ a.toNat % 2 ^ 63 < 0x3FF921FB54442D18 := by
  have hneg : negFracPi2 = negT .b64 fracPi2 := by decide
  have hmag : magOf .b64 fracPi2 = 0x3FF921FB54442D18 := by decide
  rw [hneg, gt64_negT_and_lt64_iff (by decide) (by decide), hmag]
  rfl

theorem inDomain_iff {a : Word} : inDomain a = true ↔ a.toNat % 2 ^ 63 < 0x3FF921FB54442D18 := by
  rw [inDomain, Bool.and_eq_true, gt64_and_lt64_fracPi2_iff]

/-! ### The commands, one lemma per branch -/

section
variable {s : State} {a : Word} {i : Nat}

theorem exec_sin_of_inDomain (h : inDomain a = true) :
    exec (.sin a) s = respond (cordicSin s.atan s.gain a) 0 s := if_pos h

theorem exec_sin_of_not_inDomain (h : ¬inDomain a = true) : exec (.sin a) s = raise .domainError s := if_neg h

theorem exec_atanRd_of_lt (h : i < 64) : exec (.atanRd i) s = respond s.atan[i] 0 s := dif_pos h

theorem exec_atanRd_of_ge (h : 64 ≤ i) : exec (.atanRd i) s = raise .indexRange s := dif_neg h.not_gt

theorem exec_gainRd_of_lt (h : i < 64) : exec (.gainRd i) s = respond s.gain[i] 0 s := dif_pos h

theorem exec_gainRd_of_ge (h : 64 ≤ i) : exec (.gainRd i) s = raise .indexRange s := dif_neg h.not_gt

end

/-! ### The commands' rules -/

/-- Settles O9: the domain in bits, and the answer on either side of it. -/
theorem sinCommandRule : Obligations.SinCommandRule := by
  refine ⟨fun t hopc => ?row, fun s a => ⟨?domain, ?answered, ?refused⟩⟩
  case row => simp only [decode, hopc]
  case domain => exact gt64_and_lt64_fracPi2_iff a
  case answered => exact fun hlt => exec_sin_of_inDomain (inDomain_iff.mpr hlt)
  case refused => exact fun hle => exec_sin_of_not_inDomain fun hdom => (inDomain_iff.mp hdom).not_ge hle

/-- Settles O11: the decoder's two rows, and each ROM on either side of index 64. -/
theorem cordicRomReads : Obligations.CordicRomReads := by
  refine ⟨fun t hopc => ?atanRow, fun t hopc => ?gainRow, fun s i => ⟨?atan, ?gain, ?atanRange, ?gainRange⟩⟩
  case atanRow | gainRow => simp only [decode, hopc]
  case atan => exact exec_atanRd_of_lt
  case gain => exact exec_gainRd_of_lt
  case atanRange => exact exec_atanRd_of_ge
  case gainRange => exact exec_gainRd_of_ge

end Sys2Proof.Machine
end

section
/-! PROOFS. The twiddle table (42_twiddle.md R190 to R193, R196): the builder's angles stay inside the evaluator's
domain, and TW_RD reads what the builder put in TW. -/

namespace Sys2Proof.Machine

/-! ### Bounds on rounded products -/

theorem natAbs_valueOf (p : Prec) (w : Word) : (valueOf p w).natAbs = scaledMag p (magOf p w) := by
  unfold valueOf
  split <;> omega

/-- The product of two finite values is the exact product rounded once. -/
theorem magOf_mulT_of_isFin {p : Prec} {a b : Word} (ha : isFin p a = true) (hb : isFin p b = true) :
    magOf p (mulT p a b) = roundMag p (unitExp p) (scaledMag p (magOf p a) * scaledMag p (magOf p b)) := by
  simp only [isFin, decide_eq_true_eq] at ha hb
  have hround (n : Nat) : roundMag p (unitExp p) n < 2 ^ signPos p := (Nat.min_le_right _ _).trans_lt (infMag_lt p)
  simp [mulT, isNaN, isInf, ha.not_gt, hb.not_gt, ha.ne, hb.ne, magOf_packMag p _ (hround _)]

/-- The magnitude the fields of ∞ would have is small enough for the top-bit search at the finest scale. -/
theorem scaledMag_infMag_lt (p : Prec) : scaledMag p (infMag p) * 2 ^ unitExp p < 2 ^ 2 ^ 13 := by
  cases p <;> decide +kernel

/-- What lies at or below the magnitude of some fields is rounded to at most those fields. -/
theorem roundMag_le_of_le {p : Prec} {n m : Nat} (hm : m ≤ infMag p) (hle : n ≤ scaledMag p m * 2 ^ unitExp p) :
    roundMag p (unitExp p) n ≤ m := by
  have hrange : n < 2 ^ 2 ^ 13 :=
    calc n ≤ scaledMag p m * 2 ^ unitExp p := hle
      _ ≤ scaledMag p (infMag p) * 2 ^ unitExp p := Nat.mul_le_mul_right _ ((scaledMag_strictMono p).monotone hm)
      _ < 2 ^ 2 ^ 13 := scaledMag_infMag_lt p
  obtain ⟨-, hnear⟩ := roundMag_nearestEven p (unitExp p) hrange
  have hoff := hnear m hm
  by_contra hgt
  have hbeyond := Nat.mul_lt_mul_of_pos_right (scaledMag_strictMono p (Nat.lt_of_not_le hgt))
    (Nat.two_pow_pos (unitExp p))
  unfold offBy at hoff
  omega

theorem magOf_mulT_le {p : Prec} {a b : Word} {m : Nat} (ha : isFin p a = true) (hb : isFin p b = true)
    (hm : m ≤ infMag p) (hle : scaledMag p (magOf p a) * scaledMag p (magOf p b) ≤ scaledMag p m * 2 ^ unitExp p) :
    magOf p (mulT p a b) ≤ m :=
  magOf_mulT_of_isFin ha hb ▸ roundMag_le_of_le hm hle

/-! ### The builder's angles -/

/-- The 53-bit significand TAU64 and FRAC_PI_2 share: they differ by the factor 4 alone (R162, R191). -/
def piSignificand : Nat := 0x1921FB54442D18

/-- The fields of the binary64 value of significand one below π's, at the scale of `u`. -/
def belowPi (u : Nat) : Nat := u * 2 ^ fracBits .b64 + (piSignificand - 1)

theorem scaledMag_belowPi (u : Nat) : scaledMag .b64 (belowPi u) = (piSignificand - 1) * 2 ^ u :=
  scaledMag_raw .b64 (.inr (by decide)) (by decide)

theorem scaledMag_belowPi_add (u v : Nat) : scaledMag .b64 (belowPi (u + v)) = scaledMag .b64 (belowPi u) * 2 ^ v := by
  rw [scaledMag_belowPi, scaledMag_belowPi, Nat.pow_add, Nat.mul_assoc]

theorem belowPi_lt_infMag {u : Nat} (hu : u ≤ 2045) : belowPi u < infMag .b64 :=
  calc belowPi u ≤ belowPi 2045 := Nat.add_le_add_right (Nat.mul_le_mul_right _ hu) _
    _ < infMag .b64 := by decide

theorem scaledMag_tau64 : scaledMag .b64 (magOf .b64 tau64) = piSignificand * 2 ^ 1024 := by
  have hfields : magOf .b64 tau64 = 1024 * 2 ^ fracBits .b64 + piSignificand := by decide
  rw [hfields]
  exact scaledMag_raw .b64 (.inr (by decide)) (by decide)

section
variable {i j : Nat} (hi : i < 2 ^ j) (hj : j ≤ 22)
include hi hj

/-- A factor below 2^j lowers the product by a whole significand; a last place of the significand is worth only 2^j. -/
theorem piSignificand_mul_le : piSignificand * i ≤ (piSignificand - 1) * 2 ^ j := by
  have hroom : 2 ^ j ≤ piSignificand := (Nat.pow_le_pow_right (by decide) hj).trans (by decide : 2 ^ 22 ≤ piSignificand)
  calc piSignificand * i ≤ piSignificand * (2 ^ j - 1) := Nat.mul_le_mul_left _ (Nat.le_sub_one_of_lt hi)
    _ = piSignificand * 2 ^ j - piSignificand := Nat.mul_sub_one ..
    _ ≤ piSignificand * 2 ^ j - 2 ^ j := Nat.sub_le_sub_left hroom _
    _ = (piSignificand - 1) * 2 ^ j := (Nat.sub_one_mul ..).symm

/-- The first rounded product, TAU64 · i, stays below TAU64 · 2^j by a last place. -/
theorem magOf_tau64_mul_le : magOf .b64 (mul64 tau64 (natTo64 i)) ≤ belowPi (1024 + j) := by
  obtain ⟨hfin, hval⟩ := natTo64_exact (hi.trans (Nat.pow_lt_pow_right (by decide) (by omega : j < 53)))
  have hindex : scaledMag .b64 (magOf .b64 (natTo64 i)) = i * 2 ^ unitExp .b64 := by
    rw [← natAbs_valueOf, hval, Int.natAbs_natCast]
  refine magOf_mulT_le (by decide) hfin (belowPi_lt_infMag (by omega)).le ?_
  rw [scaledMag_tau64, hindex, scaledMag_belowPi_add, scaledMag_belowPi]
  calc piSignificand * 2 ^ 1024 * (i * 2 ^ unitExp .b64)
      = piSignificand * i * (2 ^ 1024 * 2 ^ unitExp .b64) := Nat.mul_mul_mul_comm ..
    _ ≤ (piSignificand - 1) * 2 ^ j * (2 ^ 1024 * 2 ^ unitExp .b64) :=
      Nat.mul_le_mul_right _ (piSignificand_mul_le hi hj)
    _ = (piSignificand - 1) * 2 ^ 1024 * (2 ^ j * 2 ^ unitExp .b64) := Nat.mul_mul_mul_comm ..
    _ = (piSignificand - 1) * 2 ^ 1024 * 2 ^ j * 2 ^ unitExp .b64 := (Nat.mul_assoc ..).symm

/-- The second, by 2^−(j+2), stays below FRAC_PI_2 by a last place. -/
theorem magOf_twAngle_le : magOf .b64 (twAngle (j + 2) i) ≤ belowPi 1022 := by
  have hfirst := magOf_tau64_mul_le hi hj
  obtain ⟨hfin, hval⟩ := powNeg_exact .b64 (by simp only [expBias]; omega : j + 2 < expBias .b64)
  have hscale : 2 ^ (j + 2) * scaledMag .b64 (magOf .b64 (powNeg .b64 (j + 2))) = 2 ^ unitExp .b64 := by
    rw [Nat.mul_comm, ← natAbs_valueOf, ← Int.natAbs_natCast (2 ^ (j + 2)), ← Int.natAbs_mul, hval, Int.natAbs_natCast]
  have hfinFirst : isFin .b64 (mul64 tau64 (natTo64 i)) = true :=
    decide_eq_true (hfirst.trans_lt (belowPi_lt_infMag (by omega)))
  rw [twAngle]
  refine magOf_mulT_le hfinFirst hfin (belowPi_lt_infMag (by decide)).le ?_
  calc scaledMag .b64 (magOf .b64 (mul64 tau64 (natTo64 i))) * scaledMag .b64 (magOf .b64 (powNeg .b64 (j + 2)))
      ≤ scaledMag .b64 (belowPi (1024 + j)) * scaledMag .b64 (magOf .b64 (powNeg .b64 (j + 2))) :=
        Nat.mul_le_mul_right _ ((scaledMag_strictMono .b64).monotone hfirst)
    _ = scaledMag .b64 (belowPi 1022) * (2 ^ (j + 2) * scaledMag .b64 (magOf .b64 (powNeg .b64 (j + 2)))) := by
        rw [show 1024 + j = 1022 + (j + 2) by omega, scaledMag_belowPi_add, Nat.mul_assoc]
    _ = scaledMag .b64 (belowPi 1022) * 2 ^ unitExp .b64 := by rw [hscale]

end

/-- Settles O13: with j = LOG2N − 2 an index is below Q = 2^j, and FRAC_PI_2 lies one place above the bound. -/
theorem twiddleAnglesInDomain : Obligations.TwiddleAnglesInDomain := by
  intro c hc i _ hi
  rw [q_eq_two_pow hc] at hi
  simp only [Config.legal, Bool.and_eq_true, decide_eq_true_eq] at hc
  have hbound := magOf_twAngle_le hi (by omega)
  rw [Nat.sub_add_cancel hc.1] at hbound
  exact inDomain_iff.mpr (hbound.trans_lt (by decide))

/-! ### Reading the built table -/

@[simp] theorem twEntry_zero (c : Config) (atan gain : Vector Word 64) : twEntry c atan gain 0 = 0 := rfl

theorem twEntry_of_pos {i : Nat} (hi : 1 ≤ i) (c : Config) (atan gain : Vector Word 64) :
    twEntry c atan gain i = toT c.prec (cordicSin atan gain (twAngle c.log2n i)) := if_neg (by omega)

@[simp] theorem length_buildTw (c : Config) (atan gain : Vector Word 64) : (buildTw c atan gain).length = c.q := by
  simp [buildTw]

theorem buildTw_getElem? {c : Config} {i : Nat} (hi : i < c.q) (atan gain : Vector Word 64) :
    (buildTw c atan gain)[i]? = some (twEntry c atan gain i) := by
  simp [buildTw, hi]

theorem twBuilt_iff {s : State} : twBuilt s = true ↔ s.tw = buildTw s.cfg s.atan s.gain := beq_iff_eq

@[simp] theorem resT_zero (p : Prec) : resT p 0 = 0 := by cases p <;> rfl

section
variable {s : State} {i : Nat}

theorem exec_twRd_of_ge (hi : s.cfg.q ≤ i) : exec (.twRd i) s = raise .indexRange s := if_pos hi

theorem exec_twRd_of_built (htw : twBuilt s = true) (hi : i < s.cfg.q) :
    exec (.twRd i) s = respond (resT s.cfg.prec (twEntry s.cfg s.atan s.gain i)) 0 s := by
  have hread : twRead s i = .ok (twEntry s.cfg s.atan s.gain i) :=
    twRead_ok_iff.mpr (twBuilt_iff.mp htw ▸ buildTw_getElem? hi ..)
  simp [exec, execTwRd, hi, hread]

end

/-- Settles O12: below Q the answer is the builder's entry. -/
theorem twiddleReadRule : Obligations.TwiddleReadRule := by
  refine ⟨fun t hopc => ?row, fun s htw => ⟨?length, ?range, ?zero, ?entry⟩⟩
  case row => simp only [decode, hopc]
  case length => rw [twBuilt_iff.mp htw, length_buildTw]
  case range => exact fun i => exec_twRd_of_ge
  case zero =>
    intro hq
    rw [exec_twRd_of_built htw hq, twEntry_zero, resT_zero, respond_eq]
  case entry =>
    intro i hpos hi
    rw [exec_twRd_of_built htw hi, twEntry_of_pos hpos, respond_eq]
    rfl

end Sys2Proof.Machine
end

section
/-! PROOFS. The bit-reversal indexer and its command (43_bitrev.md R210 to R212): `rev` bit by bit, and what REVBITS
answers. -/

namespace Sys2Proof.Machine

/-- R210 read from the result: bit `j` of the reversal is bit `k − 1 − j` of `x`, and no bit stands at or above `k`. -/
theorem testBit_revBits (k x j : Nat) : (revBits k x).testBit j = (decide (j < k) && x.testBit (k - 1 - j)) := by
  induction k generalizing x with
  | zero => simp [revBits]
  | succ k ih =>
    rw [revBits, Nat.mul_comm, Nat.testBit_two_pow_mul_add _ (revBits_lt k (x / 2)), ih]
    obtain hlt | rfl | hgt := lt_trichotomy j k
    · have hbit : k - 1 - j + 1 = k - j := by omega
      simp [hlt, hlt.trans k.lt_succ_self, Nat.testBit_div_two, hbit]
    · simp
    · obtain ⟨i, rfl⟩ := Nat.exists_eq_add_of_lt hgt
      have hidx : k + i + 1 - k = i + 1 := by omega
      have habove : ¬ k + i + 1 < k := by omega
      simp [hidx, habove, Nat.testBit_succ]

theorem testBit_rev (c : Config) (x j : Nat) :
    (rev c x).testBit j = (decide (j < c.log2n) && x.testBit (c.log2n - 1 - j)) := testBit_revBits ..

theorem testBit_rev_mirror {c : Config} {k : Nat} (hk : k < c.log2n) (x : Nat) :
    (rev c x).testBit (c.log2n - 1 - k) = x.testBit k := by
  have hback : c.log2n - 1 - (c.log2n - 1 - k) = k := by omega
  have hmirror : c.log2n - 1 - k < c.log2n := by omega
  rw [testBit_rev, hback, decide_eq_true hmirror, Bool.true_and]

/-- Two reversals leave the low LOG2N bits in place and drop the others. -/
theorem rev_rev (c : Config) (x : Nat) : rev c (rev c x) = x % c.n := by
  refine Nat.eq_of_testBit_eq fun j => ?_
  rw [testBit_rev, Config.n, Nat.testBit_mod_two_pow]
  by_cases hj : j < c.log2n
  · rw [testBit_rev_mirror hj]
  · simp [hj]

@[simp] theorem rev_zero (c : Config) : rev c 0 = 0 :=
  Nat.eq_of_testBit_eq fun j => by rw [testBit_rev, Nat.zero_testBit, Nat.zero_testBit, Bool.and_false]

/-- The index with all LOG2N bits set is its own mirror image. -/
@[simp] theorem rev_n_sub_one (c : Config) : rev c (c.n - 1) = c.n - 1 := by
  refine Nat.eq_of_testBit_eq fun j => ?_
  rw [testBit_rev, Config.n, Nat.testBit_two_pow_sub_one, Nat.testBit_two_pow_sub_one, ← Bool.decide_and]
  exact decide_eq_decide.mpr (by omega)

/-- Settles O16: the bit law read at position LOG2N − 1 − k. -/
theorem reversalMovesEachBit : Obligations.ReversalMovesEachBit :=
  fun c x => ⟨rev_lt c x, fun _ hk => testBit_rev_mirror hk x⟩

/-- Settles O17: below N the low LOG2N bits are all of x. -/
theorem reversalIsInvolution : Obligations.ReversalIsInvolution :=
  fun c => ⟨fun x hx => (rev_rev c x).trans (Nat.mod_eq_of_lt hx), rev_zero c, rev_n_sub_one c⟩

theorem exec_revbits (s : State) (x : Nat) :
    exec (.revbits x) s = respond (resNat (rev s.cfg (x % s.cfg.n))) 0 s := rfl

/-- Settles O15: the command has one branch, a response. -/
theorem reverseBitsRule : Obligations.ReverseBitsRule := by
  refine ⟨fun t hopc => ?row, fun s x => ?answer⟩
  case row => simp only [decode, hopc]
  case answer => rw [exec_revbits, respond_eq, resNat, Config.n]

end Sys2Proof.Machine
end

section
/-! PROOFS. What the arithmetic answers (44_butterfly.md R221, R222): finite operands give the exact result rounded
once, infinite ones an infinity, invalid operations a NaN; and the comparisons order the values. -/

namespace Sys2Proof.Machine

/-! ### NaN, infinite and finite words -/

theorem infMag_pos (p : Prec) : 0 < infMag p := by cases p <;> decide

section
variable {p : Prec} {w : Word}

theorem isFin_iff : isFin p w = true ↔ magOf p w < infMag p := decide_eq_true_iff

theorem isInf_iff : isInf p w = true ↔ magOf p w = infMag p := beq_iff_eq

theorem isNaN_eq_false_iff : isNaN p w = false ↔ magOf p w ≤ infMag p := decide_eq_false_iff_not.trans not_lt

theorem isNaN_of_isFin (h : isFin p w = true) : isNaN p w = false := isNaN_eq_false_iff.mpr (isFin_iff.mp h).le

theorem isInf_of_isFin (h : isFin p w = true) : isInf p w = false :=
  Bool.eq_false_iff.mpr fun hinf => (isFin_iff.mp h).ne (isInf_iff.mp hinf)

theorem isNaN_of_isInf (h : isInf p w = true) : isNaN p w = false := isNaN_eq_false_iff.mpr (isInf_iff.mp h).le

theorem magOf_ne_zero_of_isInf (h : isInf p w = true) : magOf p w ≠ 0 := isInf_iff.mp h ▸ (infMag_pos p).ne'

end

@[simp] theorem isFin_negT (p : Prec) (w : Word) : isFin p (negT p w) = isFin p w := by simp [isFin]

@[simp] theorem valueOf_negT (p : Prec) (w : Word) : valueOf p (negT p w) = -valueOf p w := by
  cases h : signOf p w <;> simp [valueOf, h]

/-! ### Packed results -/

theorem isNaN_packMag (p : Prec) (neg : Bool) {m : Nat} (hm : m ≤ infMag p) : isNaN p (packMag p neg m) = false := by
  rw [isNaN_eq_false_iff, magOf_packMag p neg (hm.trans_lt (infMag_lt p))]
  exact hm

theorem roundMag_le_infMag (p : Prec) (k n : Nat) : roundMag p k n ≤ infMag p := Nat.min_le_right _ _

/-- A packed infinity is one, of the sign it was packed with. -/
theorem infinity_class (p : Prec) (neg : Bool) :
    isInf p (packMag p neg (infMag p)) = true ∧ signOf p (packMag p neg (infMag p)) = neg :=
  ⟨isInf_iff.mpr (magOf_packMag p neg (infMag_lt p)), signOf_packMag p neg (infMag_lt p)⟩

/-- A magnitude rounded and packed under a sign is the nearest value of that sign. -/
theorem rounded_nearestEven (p : Prec) (neg : Bool) (k : Nat) {n : Nat} (hn : n < 2 ^ 2 ^ 13) :
    NearestEven p k n (magOf p (packMag p neg (roundMag p k n))) ∧
      signOf p (packMag p neg (roundMag p k n)) = neg := by
  have hm := (roundMag_le_infMag p k n).trans_lt (infMag_lt p)
  rw [magOf_packMag p neg hm, signOf_packMag p neg hm]
  exact ⟨roundMag_nearestEven p k hn, rfl⟩

/-- Whatever NAN_POLICY draws, the payload is not zero and stays below the sign bit (R222). -/
@[simp] theorem isNaN_nanResult (p : Prec) (op : FpOp) (a b : Word) : isNaN p (nanResult p op a b) = true := by
  have hroom : infMag p + 2 ^ fracBits p ≤ 2 ^ signPos p := by cases p <;> decide
  have hquiet : 2 ^ (fracBits p - 1) < 2 ^ fracBits p :=
    Nat.pow_lt_pow_right Nat.one_lt_two (Nat.sub_lt (fracBits_pos p) Nat.one_pos)
  have hquietPos : 0 < 2 ^ (fracBits p - 1) := Nat.two_pow_pos _
  have hdraw := Nat.mod_lt (Config.nanPolicy p op a b).toNat (Nat.two_pow_pos (fracBits p))
  rw [nanResult, isNaN, decide_eq_true_eq, magOf_packMag]
  all_goals split <;> omega

/-! ### Finite operands: the exact result, rounded once -/

@[simp] theorem scaledMag_zero (p : Prec) : scaledMag p 0 = 0 := by simp [scaledMag]

@[simp] theorem roundMag_zero (p : Prec) : roundMag p 0 0 = 0 := by
  have hself := roundMag_scaledMag p (Nat.zero_le (infMag p)) ((scaledMag_zero p).trans_lt (Nat.two_pow_pos _))
  rwa [scaledMag_zero] at hself

/-- A zero sum is no exception: its magnitude 0 is the rounding of 0. -/
theorem addFinite_eq (p : Prec) (a b : Word) :
    addFinite p a b = packMag p
      (if valueOf p a + valueOf p b = 0 then signOf p a && signOf p b else decide (valueOf p a + valueOf p b < 0))
      (roundMag p 0 (valueOf p a + valueOf p b).natAbs) := by
  by_cases hzero : valueOf p a + valueOf p b = 0 <;> simp [addFinite, hzero]

section
variable {p : Prec} {a b : Word} (ha : isFin p a = true) (hb : isFin p b = true)
include ha hb

theorem sumWith_of_isFin (op : FpOp) (b₀ : Word) : sumWith p op b₀ a b = addFinite p a b := by
  simp [sumWith, isNaN_of_isFin ha, isNaN_of_isFin hb, isInf_of_isFin ha, isInf_of_isFin hb]

theorem addT_of_isFin : addT p a b = packMag p
    (if valueOf p a + valueOf p b = 0 then signOf p a && signOf p b else decide (valueOf p a + valueOf p b < 0))
    (roundMag p 0 (valueOf p a + valueOf p b).natAbs) :=
  (sumWith_of_isFin ha hb .add b).trans (addFinite_eq p a b)

theorem subT_of_isFin : subT p a b = packMag p
    (if valueOf p a - valueOf p b = 0 then signOf p a && !signOf p b else decide (valueOf p a - valueOf p b < 0))
    (roundMag p 0 (valueOf p a - valueOf p b).natAbs) := by
  rw [subT, sumWith_of_isFin ha (by rwa [isFin_negT]), addFinite_eq, valueOf_negT, signOf_negT, Int.sub_eq_add_neg]

theorem mulT_of_isFin : mulT p a b = packMag p (signOf p a != signOf p b)
    (roundMag p (unitExp p) (valueOf p a * valueOf p b).natAbs) := by
  rw [Int.natAbs_mul, natAbs_valueOf, natAbs_valueOf]
  simp [mulT, isNaN_of_isFin ha, isNaN_of_isFin hb, isInf_of_isFin ha, isInf_of_isFin hb]

end

theorem toT_b32_of_isFin {v : Word} (hv : isFin .b64 v = true) :
    toT .b32 v = packMag .b32 (signOf .b64 v) (roundMag .b32 925 (valueOf .b64 v).natAbs) := by
  have hscale : unitExp .b64 - unitExp .b32 = 925 := by decide
  simp [toT, isNaN_of_isFin hv, isInf_of_isFin hv, natAbs_valueOf, hscale]

/-! ### Exact results stay inside the top-bit search (assumption 21) -/

theorem lt_searchRange {n m : Nat} (hn : n < 2 ^ m) (hm : m ≤ 4200) : n < 2 ^ 2 ^ 13 :=
  hn.trans_le (Nat.pow_le_pow_right Nat.two_pos (hm.trans (by decide)))

theorem natAbs_valueOf_lt {p : Prec} {w : Word} (h : isFin p w = true) : (valueOf p w).natAbs < 2 ^ 2100 := by
  rw [natAbs_valueOf]
  calc scaledMag p (magOf p w) < scaledMag p (infMag p) := scaledMag_strictMono p (isFin_iff.mp h)
    _ ≤ 2 ^ 2100 := by cases p <;> decide +kernel

section
variable {x y : Int} {m : Nat} (hx : x.natAbs < 2 ^ m) (hy : y.natAbs < 2 ^ m)
include hx hy

theorem natAbs_add_lt_two_pow : (x + y).natAbs < 2 ^ (m + 1) :=
  calc (x + y).natAbs ≤ x.natAbs + y.natAbs := Int.natAbs_add_le x y
    _ < 2 ^ m + 2 ^ m := Nat.add_lt_add hx hy
    _ = 2 ^ (m + 1) := (Nat.two_pow_succ m).symm

theorem natAbs_mul_lt_two_pow : (x * y).natAbs < 2 ^ (m + m) :=
  calc (x * y).natAbs = x.natAbs * y.natAbs := Int.natAbs_mul x y
    _ < 2 ^ m * 2 ^ m := Nat.mul_lt_mul'' hx hy
    _ = 2 ^ (m + m) := (Nat.pow_add ..).symm

end

/-- The sign bit is bit `signPos` of the word (R220), and negT turns it alone. -/
theorem getLsbD_negT (p : Prec) (a : Word) (k : Nat) :
    (negT p a).getLsbD k = (a.getLsbD k != decide (k = signPos p)) := by
  rw [← BitVec.testBit_toNat, negT_toNat, Nat.testBit_xor, Nat.testBit_two_pow, BitVec.testBit_toNat,
    decide_eq_decide.mpr eq_comm, Bool.bne_eq_xor]

/-- Settles O18: each operation packs its exact result, rounded, under the sign IEEE 754 gives. -/
theorem arithmeticIsCorrectlyRounded : Obligations.ArithmeticIsCorrectlyRounded := by
  refine ⟨fun p a b ha hb => ⟨?sum, ?difference, ?product⟩, fun v hv => ?conversion, fun v => rfl,
    fun p a k _ => getLsbD_negT p a k⟩
  case sum =>
    rw [addT_of_isFin ha hb]
    exact rounded_nearestEven p _ 0
      (lt_searchRange (natAbs_add_lt_two_pow (natAbs_valueOf_lt ha) (natAbs_valueOf_lt hb)) (by decide))
  case difference =>
    have hbNeg : (-valueOf p b).natAbs < 2 ^ 2100 := (Int.natAbs_neg _).trans_lt (natAbs_valueOf_lt hb)
    rw [subT_of_isFin ha hb]
    exact rounded_nearestEven p _ 0
      (lt_searchRange (natAbs_add_lt_two_pow (natAbs_valueOf_lt ha) hbNeg) (by decide))
  case product =>
    rw [mulT_of_isFin ha hb]
    exact rounded_nearestEven p _ (unitExp p)
      (lt_searchRange (natAbs_mul_lt_two_pow (natAbs_valueOf_lt ha) (natAbs_valueOf_lt hb)) (by decide))
  case conversion =>
    rw [toT_b32_of_isFin hv]
    exact rounded_nearestEven .b32 _ 925 (lt_searchRange (natAbs_valueOf_lt hv) (by decide))

/-! ### Invalid operations -/

theorem isNaN_addFinite (p : Prec) (a b : Word) : isNaN p (addFinite p a b) = false :=
  addFinite_eq p a b ▸ isNaN_packMag p _ (roundMag_le_infMag ..)

/-- A sum of two numbers is a NaN only where opposite infinities meet (R222). -/
theorem isNaN_sumWith (p : Prec) (op : FpOp) (b₀ a b : Word) : isNaN p (sumWith p op b₀ a b) =
    (isNaN p a || isNaN p b || (isInf p a && isInf p b && (signOf p a != signOf p b))) := by
  unfold sumWith
  split
  · next hnan => rw [isNaN_nanResult, hnan, Bool.true_or]
  next hnum =>
  rw [Bool.eq_false_of_not_eq_true hnum, Bool.false_or]
  split
  · next hinfA =>
    rw [hinfA, Bool.true_and]
    split
    · next hopposite => rw [isNaN_nanResult, hopposite]
    · next hsame => rw [isNaN_packMag p _ le_rfl, Bool.eq_false_of_not_eq_true hsame]
  next hfinA =>
  rw [Bool.eq_false_of_not_eq_true hfinA, Bool.false_and, Bool.false_and]
  split
  · exact isNaN_packMag p _ le_rfl
  · exact isNaN_addFinite p a b

/-- A product of two numbers is a NaN only where an infinity meets a zero (R222). -/
theorem isNaN_mulT (p : Prec) (a b : Word) : isNaN p (mulT p a b) =
    (isNaN p a || isNaN p b || (isInf p a && magOf p b == 0) || (isInf p b && magOf p a == 0)) := by
  unfold mulT
  extract_lets neg
  split
  · next hnan => rw [isNaN_nanResult, hnan, Bool.true_or, Bool.true_or]
  next hnum =>
  rw [Bool.eq_false_of_not_eq_true hnum, Bool.false_or]
  split
  · next hinf =>
    split
    · next hzero =>
      obtain hinf | hinf := Bool.or_eq_true_iff.mp hinf
      · simp [hinf, hzero.resolve_left (magOf_ne_zero_of_isInf hinf)]
      · simp [hinf, hzero.resolve_right (magOf_ne_zero_of_isInf hinf)]
    · next hnonzero =>
      obtain ⟨hzeroA, hzeroB⟩ := not_or.mp hnonzero
      simp [isNaN_packMag, hzeroA, hzeroB]
  · next hfin =>
    obtain ⟨hfinA, hfinB⟩ := Bool.or_eq_false_iff.mp (Bool.eq_false_of_not_eq_true hfin)
    simp [isNaN_packMag, roundMag_le_infMag, hfinA, hfinB]

theorem isNaN_toT_b32 (v : Word) : isNaN .b32 (toT .b32 v) = isNaN .b64 v := by
  rw [toT]
  split
  · next hnan => simp [hnan]
  next hnum =>
  rw [Bool.eq_false_of_not_eq_true hnum]
  split
  · exact isNaN_packMag .b32 _ le_rfl
  · exact isNaN_packMag .b32 _ (roundMag_le_infMag ..)

/-- Settles O19: a difference is the sum with b's sign turned, so its infinities cancel where the signs agree. -/
theorem nanResultsExactlyWhenInvalid : Obligations.NanResultsExactlyWhenInvalid := by
  refine ⟨fun p a b => ⟨isNaN_sumWith .., ?difference, isNaN_mulT p a b⟩, isNaN_toT_b32⟩
  case difference =>
    rw [subT, isNaN_sumWith, isNaN_negT, isInf_negT, signOf_negT]
    cases signOf p a <;> simp

/-! ### Infinite operands -/

section
variable {p : Prec} {a b : Word}

theorem sumWith_of_isInf_left (ha : isInf p a = true) (hb : isNaN p b = false)
    (hvalid : isInf p b = true → signOf p a = signOf p b) (op : FpOp) (b₀ : Word) :
    sumWith p op b₀ a b = packMag p (signOf p a) (infMag p) := by
  have hsame : (isInf p b && (signOf p a != signOf p b)) = false := by
    cases hinf : isInf p b with
    | false => rfl
    | true => simp [hvalid hinf]
  simp [sumWith, isNaN_of_isInf ha, hb, ha, hsame]

theorem sumWith_of_isInf_right (ha : isNaN p a = false) (hb : isInf p b = true)
    (hvalid : isInf p a = true → signOf p a = signOf p b) (op : FpOp) (b₀ : Word) :
    sumWith p op b₀ a b = packMag p (signOf p b) (infMag p) := by
  cases hinf : isInf p a with
  | false => simp [sumWith, ha, isNaN_of_isInf hb, hb, hinf]
  | true => rw [sumWith_of_isInf_left hinf (isNaN_of_isInf hb) (fun _ => hvalid hinf), hvalid hinf]

theorem mulT_of_isInf_left (ha : isInf p a = true) (hb : isNaN p b = false) (hzero : magOf p b ≠ 0) :
    mulT p a b = packMag p (signOf p a != signOf p b) (infMag p) := by
  simp [mulT, isNaN_of_isInf ha, hb, ha, magOf_ne_zero_of_isInf ha, hzero]

theorem mulT_of_isInf_right (ha : isNaN p a = false) (hb : isInf p b = true) (hzero : magOf p a ≠ 0) :
    mulT p a b = packMag p (signOf p a != signOf p b) (infMag p) := by
  simp [mulT, isNaN_of_isInf hb, hb, ha, magOf_ne_zero_of_isInf hb, hzero]

end

theorem toT_b32_of_isInf {v : Word} (hv : isInf .b64 v = true) :
    toT .b32 v = packMag .b32 (signOf .b64 v) (infMag .b32) := by
  simp [toT, isNaN_of_isInf hv, hv]

/-- Settles O20: the infinity is on the left of one sum, difference or product and on the right of the other. -/
theorem infiniteOperands : Obligations.InfiniteOperands := by
  refine ⟨fun p a b ha hb => ⟨fun hvalid => ?sum, fun hvalid => ?difference, fun hzero => ?product⟩,
    fun v hv => toT_b32_of_isInf hv ▸ infinity_class .b32 _⟩
  case sum =>
    rw [addT, addT, sumWith_of_isInf_left ha hb hvalid, sumWith_of_isInf_right hb ha fun hinf => (hvalid hinf).symm]
    simp [infinity_class]
  case difference =>
    have hright : isInf p (negT p b) = true → signOf p a = signOf p (negT p b) := by
      simpa [Bool.eq_not_iff] using hvalid
    have hleft : isInf p b = true → signOf p b = signOf p (negT p a) := by
      simpa [Bool.eq_not_iff] using fun hinf => (hvalid hinf).symm
    rw [subT, subT, sumWith_of_isInf_left ha (by rwa [isNaN_negT]) hright,
      sumWith_of_isInf_right hb (by rwa [isInf_negT]) hleft]
    simp [infinity_class]
  case product =>
    rw [mulT_of_isInf_left ha hb hzero, mulT_of_isInf_right hb ha hzero, bne_comm (a := signOf p b)]
    simp [infinity_class]

/-! ### Comparisons -/

/-- Magnitudes rise with their fields, so values are ordered as the order keys are. -/
theorem valueOf_lt_iff (p : Prec) (a b : Word) : valueOf p a < valueOf p b ↔ orderKey p a < orderKey p b := by
  have hmono (m n : Nat) : scaledMag p m < scaledMag p n ↔ m < n := (scaledMag_strictMono p).lt_iff_lt
  have hlt := hmono (magOf p a) (magOf p b)
  have hgt := hmono (magOf p b) (magOf p a)
  have hposA := scaledMag_zero p ▸ hmono 0 (magOf p a)
  have hposB := scaledMag_zero p ▸ hmono 0 (magOf p b)
  unfold valueOf orderKey
  split <;> split <;> omega

theorem lt64_iff_valueOf_lt {a b : Word} (ha : isFin .b64 a = true) (hb : isFin .b64 b = true) :
    lt64 a b = true ↔ valueOf .b64 a < valueOf .b64 b := by
  simp [lt64_iff, isNaN_of_isFin ha, isNaN_of_isFin hb, valueOf_lt_iff]

theorem orderKey_eq_neg_infMag_iff (p : Prec) (w : Word) :
    orderKey p w = -(infMag p : Int) ↔ isInf p w = true ∧ signOf p w = true := by
  have hpos := infMag_pos p
  rw [isInf_iff, orderKey]
  cases signOf p w with
  | true => simp
  | false =>
    simp only [Bool.false_eq_true, if_false, and_false, iff_false]
    omega

/-- −∞ lies below every other number, and +∞ below none. -/
theorem lt64_of_isInf_left {a b : Word} (ha : isInf .b64 a = true) (hb : isNaN .b64 b = false) :
    lt64 a b = true ↔ signOf .b64 a = true ∧ ¬(isInf .b64 b = true ∧ signOf .b64 b = true) := by
  have hpos := infMag_pos .b64
  have hbound := natAbs_orderKey .b64 b ▸ isNaN_eq_false_iff.mp hb
  have hkey : orderKey .b64 a = if signOf .b64 a then -(infMag .b64 : Int) else infMag .b64 := by
    rw [orderKey, isInf_iff.mp ha]
  rw [lt64_iff, ← orderKey_eq_neg_infMag_iff, hkey]
  cases signOf .b64 a with
  | true =>
    simp only [isNaN_of_isInf ha, hb, if_true, true_and]
    omega
  | false =>
    simp only [Bool.false_eq_true, if_false, false_and, iff_false]
    omega

/-- Negation turns the order around. -/
theorem gt64_eq_lt64_negT (a b : Word) : gt64 a b = lt64 (negT .b64 a) (negT .b64 b) := by
  simp [gt64, lt64, orderKey_negT, Bool.and_comm]

/-- Settles O21: values are ordered as the order keys are, and gt64 of an infinity is lt64 of the negated operands. -/
theorem comparisonsOrderValues : Obligations.ComparisonsOrderValues := by
  refine fun a b => ⟨fun ha hb => ⟨lt64_iff_valueOf_lt ha hb, lt64_iff_valueOf_lt hb ha⟩,
    fun ha hb => ⟨lt64_of_isInf_left ha hb, ?above, rfl, rfl⟩, fun hnan => ?unordered⟩
  case above =>
    rw [gt64_eq_lt64_negT, lt64_of_isInf_left (by rwa [isInf_negT]) (by rwa [isNaN_negT])]
    simp
  case unordered =>
    obtain h | h := hnan <;> simp [gt64, lt64, h]

end Sys2Proof.Machine
end

section
/-! PROOFS. What every transition of an engine does with the buffer: which entries it reads and writes, and that an
unwritten one is all that stops it (44_butterfly.md R235, 60_exceptions.md R353). -/

namespace Sys2Proof.Machine

/-! ### Entries written -/

/-- Two writes over entries already written leave the same entries written. -/
theorem isSome_bufGet_kernelWrites {m : List (Nat × Sample)} {t b : Nat} {x y : Sample} (hx : bufGet m t = some x)
    (hy : bufGet m b = some y) (z w : Sample) (i : Nat) :
    (bufGet (bufSet (bufSet m t z) b w) i).isSome = (bufGet m i).isSome := by
  rw [bufGet_bufSet, bufGet_bufSet]
  split
  · next hib => simp [hib, hy]
  · split
    · next hit => simp [hit, hx]
    · rfl

/-- A Reorder transition writes what it swaps, or nothing. -/
theorem buf_of_reorder {s : State} {m : List (Nat × Sample)} {t r : Nat}
    (h : (if t < r then swapEntries s t r else .ok s) = .ok { s with buf := m }) :
    m = s.buf ∨ t < r ∧ ∃ x y, bufGet s.buf t = some x ∧ bufGet s.buf r = some y ∧
      m = bufSet (bufSet s.buf t y) r x := by
  split at h
  · next hlt =>
    obtain ⟨x, y, -, -, hx, hy, hm⟩ := swapEntries_ok_iff.mp h
    exact .inr ⟨hlt, x, y, hx, hy, congrArg State.buf hm⟩
  · exact .inl (congrArg State.buf (Except.ok.inj h)).symm

/-- A transition leaves the buffer as it was, or writes the two entries it works on, both written before. -/
def WritesTouched (s s' : State) : Prop :=
  s'.buf = s.buf ∨ ∃ t b x y z w, touched s = [t, b] ∧ bufGet s.buf t = some x ∧ bufGet s.buf b = some y ∧
    s'.buf = bufSet (bufSet s.buf t z) b w

theorem writesTouched_of_reorder {s s' : State} {m : List (Nat × Sample)}
    (htouched : touched s = if s.topIdx < rev s.cfg s.topIdx then [s.topIdx, rev s.cfg s.topIdx] else [])
    (hm : (if s.topIdx < rev s.cfg s.topIdx then swapEntries s s.topIdx (rev s.cfg s.topIdx) else .ok s) =
      .ok { s with buf := m }) (hbuf : s'.buf = m) : WritesTouched s s' := by
  obtain hm | ⟨hlt, x, y, hx, hy, hm⟩ := buf_of_reorder hm
  · exact .inl (hbuf.trans hm)
  · exact .inr ⟨_, _, x, y, y, x, htouched.trans (if_pos hlt), hx, hy, hbuf.trans hm⟩

/-- The buffer after a transition of either engine (R235, R258, R282). -/
theorem engineStep_writesTouched {s s' : State} (h : engineStep s = .ok s') : WritesTouched s s' := by
  unfold engineStep at h
  split at h
  case h_17 | h_18 | h_19 => cases h
  all_goals
    rename_i hk hg
  case h_8 | h_16 => cases h; exact .inl rfl
  case h_5 => obtain ⟨-, rfl⟩ | ⟨-, -, rfl⟩ | ⟨-, -, rfl⟩ := fwdStep5_ok_iff.mp h <;> exact .inl rfl
  case h_15 => obtain ⟨-, rfl⟩ | ⟨-, -, rfl⟩ | ⟨-, -, rfl⟩ := invStep6_ok_iff.mp h <;> exact .inl rfl
  case h_7 =>
    obtain ⟨m, hm, rfl⟩ := fwdReorder_ok_iff.mp h
    exact writesTouched_of_reorder (by simp only [touched, hk, hg]) hm rfl
  case h_9 =>
    obtain ⟨m, hm, rfl⟩ := invReorder_ok_iff.mp h
    exact writesTouched_of_reorder (by simp only [touched, hk, hg]) hm rfl
  all_goals simp only [WritesTouched, touched, hk, hg]
  case h_1 =>
    obtain ⟨x, y, -, -, hx, hy, rfl⟩ := fwdStep1_ok_iff.mp h
    exact .inr ⟨_, _, x, y, _, _, rfl, hx, hy, rfl⟩
  case h_2 =>
    obtain ⟨_, _, x, y, -, -, -, -, hx, hy, rfl⟩ := fwdStep2_ok_iff.mp h
    exact .inr ⟨_, _, x, y, _, _, rfl, hx, hy, rfl⟩
  case h_3 =>
    obtain ⟨x, y, -, -, hx, hy, rfl⟩ := fwdStep3_ok_iff.mp h
    exact .inr ⟨_, _, x, y, _, _, rfl, hx, hy, rfl⟩
  case h_4 =>
    obtain ⟨_, _, x, y, -, -, -, -, hx, hy, rfl⟩ := fwdStep4_ok_iff.mp h
    exact .inr ⟨_, _, x, y, _, _, rfl, hx, hy, rfl⟩
  case h_6 =>
    obtain ⟨x, y, -, -, hx, hy, rfl⟩ := fwdStep6_ok_iff.mp h
    exact .inr ⟨_, _, x, y, _, _, rfl, hx, hy, rfl⟩
  case h_10 =>
    obtain ⟨x, y, -, -, hx, hy, rfl⟩ := invStep1_ok_iff.mp h
    exact .inr ⟨_, _, x, y, _, _, rfl, hx, hy, rfl⟩
  case h_11 =>
    obtain ⟨x, y, -, -, hx, hy, rfl⟩ := invStep2_ok_iff.mp h
    exact .inr ⟨_, _, x, y, _, _, rfl, hx, hy, rfl⟩
  case h_12 =>
    obtain ⟨_, _, x, y, -, -, -, -, hx, hy, rfl⟩ := invStep3_ok_iff.mp h
    exact .inr ⟨_, _, x, y, _, _, rfl, hx, hy, rfl⟩
  case h_13 =>
    obtain ⟨x, y, -, -, hx, hy, rfl⟩ := invStep4_ok_iff.mp h
    exact .inr ⟨_, _, x, y, _, _, rfl, hx, hy, rfl⟩
  case h_14 =>
    obtain ⟨_, _, x, y, -, -, -, -, hx, hy, rfl⟩ := invStep5_ok_iff.mp h
    exact .inr ⟨_, _, x, y, _, _, rfl, hx, hy, rfl⟩

/-- No transition writes an entry for the first time. -/
theorem written_of_engineStep {s s' : State} (h : engineStep s = .ok s') (i : Nat) : written s' i = written s i := by
  obtain hbuf | ⟨t, b, x, y, z, w, -, hx, hy, hbuf⟩ := engineStep_writesTouched h
  · simp only [written, hbuf]
  · simp only [written, hbuf, isSome_bufGet_kernelWrites hx hy]

theorem allWritten_of_engineStep {s s' : State} (h : engineStep s = .ok s') (hw : AllWritten s) : AllWritten s' := by
  intro i hi
  rw [written_of_engineStep h]
  rw [engineStep_only h] at hi
  exact hw i hi

/-! ### What stops a transition -/

/-- The stop of R353: the read of an entry of the buffer that nothing has written. -/
def UnwrittenStop (s : State) (f : Fault) : Prop := ∃ i, f = .unwrittenRead i ∧ i < s.cfg.n ∧ written s i = false

section
variable {s : State} {f : Fault} {t b : Nat}

theorem unwrittenStop_of_memRead {i : Nat} (hi : i < s.cfg.n) (h : memRead s i = .error f) : UnwrittenStop s f := by
  obtain ⟨-, hnew, rfl⟩ | ⟨hout, -⟩ := memRead_error_iff.mp h
  · exact ⟨i, rfl, hi, hnew⟩
  · exact absurd hi hout.not_gt

/-- A kernel inside the buffer stops at an unwritten entry alone. -/
theorem unwrittenStop_of_applyKernel {k : Sample → Sample → Sample × Sample} (htb : t < b ∧ b < s.cfg.n)
    (h : applyKernel s t b k = .error f) : UnwrittenStop s f :=
  (applyKernel_error h).elim (unwrittenStop_of_memRead (htb.1.trans htb.2)) (unwrittenStop_of_memRead htb.2)

/-- Both indices of a twiddle pair are in the built table (R195). -/
theorem twCs_ok_of_built (htw : twBuilt s = true) {k : Nat} (hk : 1 ≤ k ∧ k < s.cfg.q) :
    ∃ c sn, twCs s k = .ok (c, sn) := by
  refine ⟨twEntry s.cfg s.atan s.gain (s.cfg.q - k), twEntry s.cfg s.atan s.gain k, ?_⟩
  rw [twCs_ok_iff, twBuilt_iff.mp htw]
  exact ⟨buildTw_getElem? (by omega) .., buildTw_getElem? hk.2 ..⟩

theorem unwrittenStop_of_applyTwiddled {kernel : Word → Word → Sample → Sample → Sample × Sample} {k : Nat}
    (htw : twBuilt s = true) (hk : 1 ≤ k ∧ k < s.cfg.q) (htb : t < b ∧ b < s.cfg.n)
    (h : applyTwiddled s t b k kernel = .error f) : UnwrittenStop s f := by
  obtain ⟨c, sn, hcs⟩ := twCs_ok_of_built htw hk
  rw [applyTwiddled, hcs] at h
  exact unwrittenStop_of_applyKernel htb h

theorem unwrittenStop_of_reorder {r : Nat} (hr : r < s.cfg.n)
    (h : (if t < r then swapEntries s t r else .ok s) = .error f) : UnwrittenStop s f := by
  split at h
  · next hlt => exact unwrittenStop_of_applyKernel ⟨hlt, hr⟩ h
  · cases h

/-- The bookkeeping transitions never stop. -/
theorem fwdStep5_ne_error : fwdStep5 s ≠ .error f := by
  simp only [fwdStep5, ne_eq]
  split
  · nofun
  · split <;> nofun

theorem invStep6_ne_error : invStep6 s ≠ .error f := by
  simp only [invStep6, ne_eq]
  split
  · nofun
  · split <;> nofun

/-- In a state that meets the invariant an engine stops at an unwritten entry alone (R353). -/
theorem unwrittenStop_of_engineStep (hinv : Inv s) (hengine : s.kind ≠ .none) (h : engineStep s = .error f) :
    UnwrittenStop s f := by
  obtain ⟨hcontrol, -, htw⟩ := inv_iff.mp hinv
  obtain ⟨hstage, hfit⟩ := (controlInv_iff_of_engine hengine).mp hcontrol
  have hlt {t b : Nat} : touched s = [t, b] → t < b ∧ b < s.cfg.n := touched_lt hstage hfit
  have hindex := fun htag => hstage.twiddle_range_of_half (inHalf_of_twiddled hfit htag)
  unfold engineStep at h
  split at h
  case h_19 hk => exact absurd hk hengine
  all_goals
    rename_i hk hg
    simp only [touched, hk, hg] at hlt
  case h_1 | h_3 | h_6 | h_10 | h_11 | h_13 =>
    exact unwrittenStop_of_applyKernel (hlt rfl) (except_map_error_iff.mp h)
  case h_2 | h_4 | h_12 | h_14 =>
    exact unwrittenStop_of_applyTwiddled htw (hindex (by simp [hk, hg])) (hlt rfl) (except_map_error_iff.mp h)
  case h_7 | h_9 => exact unwrittenStop_of_reorder (rev_lt ..) (except_map_error_iff.mp h)
  case h_5 => exact absurd h fwdStep5_ne_error
  case h_15 => exact absurd h invStep6_ne_error
  case h_8 | h_16 => cases h
  case h_17 | h_18 => simp [cursorsFit, hk, hg] at hfit

end

/-- With an engine and every entry written, the next transition answers (R310). -/
theorem exists_engineStep_of_allWritten {s : State} (hinv : Inv s) (hw : AllWritten s) (hengine : s.kind ≠ .none) :
    ∃ s', engineStep s = .ok s' := by
  cases h : engineStep s with
  | ok s' => exact ⟨s', rfl⟩
  | error f =>
    obtain ⟨i, -, hi, hnew⟩ := unwrittenStop_of_engineStep hinv hengine h
    simp [hw i hi] at hnew

end Sys2Proof.Machine
end

section
/-! PROOFS. The transitions an engine has left (45_forward_engine.md R260, 46_inverse_engine.md R290,
47_engine_commands.md R317): each transition is one less, and RUN makes them all. -/

namespace Sys2Proof.Machine

/-! ### The stage and what comes after it -/

/-- The tags of an engine inside a decimation stage. -/
def stageTags : Kind → List Tag
  | .fwd => [.step1, .step2, .step3, .step4, .step5]
  | .inv => [.step2, .step3, .step4, .step5, .step6]
  | .none => []

/-- The transitions left after the stage the engine is in: the later stages, and the forward engine's two passes. -/
def afterStage (s : State) : Nat :=
  match s.kind with
  | .fwd => laterFwd s + s.cfg.n / 2 + (s.cfg.n - 1)
  | .inv => laterInv s
  | .none => 0

section
variable {s : State} {m : List (Nat × Sample)} {k : Nat} {g : Tag}

theorem remaining_of_stage (hg : s.tag ∈ stageTags s.kind) : remaining s = stageRest s + afterStage s := by
  unfold remaining
  split
  case h_1 hk _ | h_2 hk _ | h_3 hk _ | h_4 hk _ | h_5 hk _ => simp only [afterStage, hk, Nat.add_assoc]
  case h_10 hk _ | h_11 hk _ | h_12 hk _ | h_13 hk _ | h_14 hk _ => simp only [afterStage, hk]
  case h_19 hk => simp [hk, stageTags] at hg
  all_goals
    rename_i hk ht
    simp [hk, ht, stageTags] at hg

/-- `top_idx` is an entry of a block: the block's number and the position in it. -/
theorem topIdx_eq (s : State) : s.topIdx = 4 * s.length * (s.topIdx / (4 * s.length)) + blockPos s :=
  (Nat.div_add_mod ..).symm

/-- What is left of the stage at position `p` of block `i`. -/
theorem stageRest_eq {i p : Nat} (ht : s.topIdx = 4 * s.length * i + p) (hp : p < 4 * s.length) :
    stageRest s = 2 * s.length - p + 1 + (s.stepSize - 1 - i) * (2 * s.length + 1) := by
  have hpos : blockPos s = p := by rw [blockPos, ht, Nat.mul_add_mod, Nat.mod_eq_of_lt hp]
  have hblock : s.topIdx / (4 * s.length) = i := by
    rw [ht, Nat.mul_add_div (by omega), Nat.div_eq_of_lt hp, Nat.add_zero]
  rw [stageRest, blockRest, hpos, hblock]

/-- A butterfly moves one entry on inside its block. -/
theorem stageRest_afterButterfly (hpos : blockPos s < 2 * s.length) :
    stageRest (afterButterfly s m k g) + 1 = stageRest s := by
  have ht := topIdx_eq s
  have hnext : (afterButterfly s m k g).topIdx =
      4 * (afterButterfly s m k g).length * (s.topIdx / (4 * s.length)) + (blockPos s + 1) := congrArg (· + 1) ht
  rw [stageRest_eq ht (by omega), stageRest_eq hnext (by simp; omega)]
  simp only [afterButterfly_length, afterButterfly_stepSize]
  omega

/-- The end of a block, with a block after it, moves to the start of that block. -/
theorem stageRest_nextBlock (h : StageInv s) (hat : atBlockEnd s = true) (hnext : s.topIdx + 2 * s.length < s.cfg.n)
    {s' : State} (hs' : s' = { s with topIdx := s.topIdx + 2 * s.length, tag := g }) :
    stageRest s' + 1 = stageRest s := by
  have hlen := h.length_pos
  have ht := topIdx_eq s
  rw [atBlockEnd_iff.mp hat] at ht
  generalize s.topIdx / (4 * s.length) = i at ht
  have ht' : s.topIdx + 2 * s.length = 4 * s.length * (i + 1) + 0 := by rw [Nat.mul_succ]; omega
  have hi : i + 1 < s.stepSize := by
    rw [ht', h.n_eq_blocks] at hnext
    exact Nat.lt_of_mul_lt_mul_left hnext
  obtain ⟨z, hz⟩ := Nat.exists_eq_add_of_lt hi
  subst hs'
  rw [stageRest_eq ht (by omega), stageRest_eq ht' (by simpa using hlen)]
  simp only [hz]
  rw [show i + 1 + z + 1 - 1 - i = z + 1 by omega, show i + 1 + z + 1 - 1 - (i + 1) = z by omega]
  have hsucc : (z + 1) * (2 * s.length + 1) = z * (2 * s.length + 1) + (2 * s.length + 1) := Nat.succ_mul ..
  omega

/-- After the last block one transition is left, the one to what comes after the stage. -/
theorem stageRest_of_lastBlock (h : StageInv s) (hat : atBlockEnd s = true)
    (hend : s.cfg.n ≤ s.topIdx + 2 * s.length) : stageRest s = 1 := by
  have hlen := h.length_pos
  have ht := topIdx_eq s
  rw [atBlockEnd_iff.mp hat] at ht
  generalize s.topIdx / (4 * s.length) = i at ht
  have hi : s.stepSize ≤ i + 1 := by
    have ht' : s.topIdx + 2 * s.length = 4 * s.length * (i + 1) := by rw [Nat.mul_succ]; omega
    rw [ht', h.n_eq_blocks] at hend
    exact Nat.le_of_mul_le_mul_left hend (by omega)
  rw [stageRest_eq ht (by omega), show s.stepSize - 1 - i = 0 by omega]
  omega

theorem half_n_eq (h : StageInv s) : s.cfg.n / 2 = 2 * s.length * s.stepSize := by
  have hn : s.cfg.n = 2 * (2 * s.length * s.stepSize) := by rw [h.n_eq_blocks]; ring
  omega

/-- At entry 0 all S blocks of 2L + 1 transitions are left. -/
theorem stageRest_of_topIdx_zero (h : StageInv s) (htop : s.topIdx = 0) : stageRest s = s.cfg.n / 2 + s.stepSize := by
  have hlen := h.length_pos
  obtain ⟨z, hz⟩ := Nat.exists_eq_add_one.mpr h.stepSize_pos
  rw [stageRest_eq (i := 0) (p := 0) htop (by omega), half_n_eq h, hz]
  simp only [Nat.sub_zero, Nat.add_sub_cancel]
  ring

/-- Halving a power of two above 1 lowers its exponent by one. -/
theorem log2_eq_log2_half_add_one {n : Nat} (hn : 1 < n) : Nat.log2 n = Nat.log2 (n / 2) + 1 := by
  rw [Nat.log2_def, if_pos (Nat.succ_le_of_lt hn)]

/-! ### The moves of an engine -/

theorem remaining_fwd_step6 (hk : s.kind = .fwd) (hg : s.tag = .step6) :
    remaining s = (s.cfg.n - s.topIdx) / 2 + (s.cfg.n - 1) := by simp only [remaining, hk, hg]

theorem remaining_fwd_reorder (hk : s.kind = .fwd) (hg : s.tag = .reorder) :
    remaining s = s.cfg.n - 1 - s.topIdx := by simp only [remaining, hk, hg]

theorem remaining_inv_reorder (hk : s.kind = .inv) (hg : s.tag = .reorder) :
    remaining s = s.cfg.n - 1 - s.topIdx + s.cfg.n / 2 + allStages s.cfg := by simp only [remaining, hk, hg]

theorem remaining_inv_step1 (hk : s.kind = .inv) (hg : s.tag = .step1) :
    remaining s = (s.cfg.n - s.topIdx) / 2 + allStages s.cfg := by simp only [remaining, hk, hg]

@[simp] theorem remaining_of_done (hg : s.tag = .done) : remaining s = 0 := by
  cases hk : s.kind <;> simp only [remaining, hk, hg]

/-- The four butterflies of either engine, with their choice between two next tags, stay in the stage. -/
theorem remaining_afterButterfly {s' : State} {kd : Kind} {g g₁ g₂ : Tag} {c : Prop} [Decidable c] (h : StageInv s)
    (hk : s.kind = kd) (hg : s.tag = g)
    (hat : atBlockStart s = true ∨ inFirstHalf s = true ∨ atMiddle s = true ∨ inSecondHalf s = true)
    (hs' : s' = afterButterfly s m k (if c then g₁ else g₂))
    (hmem : g ∈ stageTags kd ∧ g₁ ∈ stageTags kd ∧ g₂ ∈ stageTags kd) : remaining s' + 1 = remaining s := by
  obtain ⟨hmem, hmem₁, hmem₂⟩ := hmem
  have hnext : (if c then g₁ else g₂) ∈ stageTags s.kind := by split <;> rwa [hk]
  have hstage := stageRest_afterButterfly (m := m) (k := k) (g := if c then g₁ else g₂) (h.blockPos_lt hat)
  have hafter : afterStage (afterButterfly s m k (if c then g₁ else g₂)) = afterStage s := rfl
  subst hs' hk hg
  rw [remaining_of_stage hmem, remaining_of_stage hnext]
  omega

theorem remaining_nextBlock {s' : State} (h : StageInv s) (hat : atBlockEnd s = true) (hg : s.tag ∈ stageTags s.kind)
    (hnext : s.topIdx + 2 * s.length < s.cfg.n) (hs' : s' = { s with topIdx := s.topIdx + 2 * s.length, tag := g })
    (hg' : g ∈ stageTags s.kind) : remaining s' + 1 = remaining s := by
  have hstage := stageRest_nextBlock h hat hnext hs'
  subst hs'
  have hafter : afterStage { s with topIdx := s.topIdx + 2 * s.length, tag := g } = afterStage s := rfl
  rw [remaining_of_stage hg, remaining_of_stage hg']
  omega

theorem remaining_of_lastBlock (h : StageInv s) (hat : atBlockEnd s = true) (hg : s.tag ∈ stageTags s.kind)
    (hend : s.cfg.n ≤ s.topIdx + 2 * s.length) : remaining s = 1 + afterStage s := by
  rw [remaining_of_stage hg, stageRest_of_lastBlock h hat hend]

theorem remaining_of_topIdx_zero (h : StageInv s) (htop : s.topIdx = 0) (hg : s.tag ∈ stageTags s.kind) :
    remaining s = s.cfg.n / 2 + s.stepSize + afterStage s := by
  rw [remaining_of_stage hg, stageRest_of_topIdx_zero h htop]

/-- The forward engine's next stage takes N/2 + 2S transitions, which the later stages' count held. -/
theorem remaining_halfLength {s' : State} (h : StageInv s) (hat : atBlockEnd s = true) (hk : s.kind = .fwd)
    (hg : s.tag ∈ stageTags s.kind) (hend : s.cfg.n ≤ s.topIdx + 2 * s.length) (hlen : 1 < s.length)
    (hs' : s' = { s with length := s.length / 2, stepSize := 2 * s.stepSize, topIdx := 0, tag := .step1 }) :
    remaining s' + 1 = remaining s := by
  obtain ⟨h', -⟩ := stageStart_halfLength h hlen hs'
  have hlog := log2_eq_log2_half_add_one hlen
  have hhalf : 2 * (2 * s.stepSize) ≤ s.cfg.n / 2 := by
    rw [half_n_eq h, ← Nat.mul_assoc]
    exact Nat.mul_le_mul_right _ (by omega)
  subst hs'
  rw [remaining_of_lastBlock h hat hg hend, remaining_of_topIdx_zero h' rfl (by simp [hk, stageTags])]
  simp only [afterStage, hk, laterFwd, hlog, Nat.succ_mul]
  omega

/-- The inverse engine's next stage takes N/2 + S/2 transitions, which the later stages' count held. -/
theorem remaining_doubleLength {s' : State} (h : StageInv s) (hat : atBlockEnd s = true) (hk : s.kind = .inv)
    (hg : s.tag ∈ stageTags s.kind) (hend : s.cfg.n ≤ s.topIdx + 2 * s.length) (hsize : 1 < s.stepSize)
    (hs' : s' = { s with length := 2 * s.length, stepSize := s.stepSize / 2, topIdx := 0, tag := .step2 }) :
    remaining s' + 1 = remaining s := by
  obtain ⟨h', -⟩ := stageStart_doubleLength h hsize hs'
  have hlog := log2_eq_log2_half_add_one hsize
  obtain ⟨z, hz, -⟩ := exists_half_of_isPow2 h.stepSize_pow2 hsize
  subst hs'
  rw [remaining_of_lastBlock h hat hg hend, remaining_of_topIdx_zero h' rfl (by simp [hk, stageTags])]
  simp only [afterStage, hk, laterInv, hlog, Nat.succ_mul]
  omega

/-- After the forward engine's last stage, that of length 1, its two passes are left. -/
theorem remaining_toPairs {s' : State} (h : StageInv s) (hat : atBlockEnd s = true) (hk : s.kind = .fwd)
    (hg : s.tag ∈ stageTags s.kind) (hend : s.cfg.n ≤ s.topIdx + 2 * s.length) (hlen : s.length ≤ 1)
    (hs' : s' = { s with topIdx := 0, tag := .step6 }) : remaining s' + 1 = remaining s := by
  have hone : s.length = 1 := le_antisymm hlen h.length_pos
  have hhalf : s.cfg.n / 2 = 2 * s.stepSize := by rw [half_n_eq h, hone, Nat.mul_one]
  have hnext : remaining s' = s.cfg.n / 2 + (s.cfg.n - 1) := by
    subst hs'
    exact remaining_fwd_step6 hk rfl
  rw [remaining_of_lastBlock h hat hg hend, hnext]
  simp only [afterStage, hk, laterFwd, hone, show Nat.log2 1 = 0 by decide]
  omega

/-- After the inverse engine's last stage, that of step_size 1, nothing is left. -/
theorem remaining_toDone {s' : State} (h : StageInv s) (hat : atBlockEnd s = true) (hk : s.kind = .inv)
    (hg : s.tag ∈ stageTags s.kind) (hend : s.cfg.n ≤ s.topIdx + 2 * s.length) (hsize : s.stepSize ≤ 1)
    (hs' : s' = { s with tag := .done }) : remaining s' + 1 = remaining s := by
  have hone : s.stepSize = 1 := le_antisymm hsize h.stepSize_pos
  rw [remaining_of_lastBlock h hat hg hend, remaining_of_done (congrArg State.tag hs')]
  simp only [afterStage, hk, laterInv, hone, show Nat.log2 1 = 0 by decide]
  omega

/-- A forward pair leads to the next, or from the last one to the Reorder pass (R257). -/
theorem remaining_fwdPair {s' : State} (h : StageInv s) (hat : atPair s = true) (hk : s.kind = .fwd)
    (hg : s.tag = .step6)
    (hs' : s' = { s with
      buf := m
      bottomIdx := s.topIdx + 1
      topIdx := if s.topIdx + 2 = s.cfg.n then 0 else s.topIdx + 2
      tag := if s.topIdx + 2 = s.cfg.n then .reorder else .step6 }) : remaining s' + 1 = remaining s := by
  have hlt := h.pair_lt hat
  rw [remaining_fwd_step6 hk hg]
  by_cases hend : s.topIdx + 2 = s.cfg.n
  · simp only [hend, if_true] at hs'
    rw [remaining_fwd_reorder (by rw [hs', hk]) (by rw [hs'])]
    simp only [hs']
    omega
  · simp only [hend, if_false] at hs'
    rw [remaining_fwd_step6 (by rw [hs', hk]) (by rw [hs'])]
    simp only [hs']
    omega

/-- Q = 2^(LOG2N − 2), so the stages after the first make LOG2N − 2 times N/2 butterflies. -/
theorem allStages_eq {c : Config} (hc : c.legal = true) :
    allStages c = Nat.log2 c.q * (c.n / 2) + c.n / 2 + (c.n / 2 - 1) := by
  rw [q_eq_two_pow hc, Nat.log2_two_pow, ← Nat.succ_mul]
  simp only [Config.legal, Bool.and_eq_true, decide_eq_true_eq] at hc
  rw [allStages, show c.log2n - 1 = (c.log2n - 2).succ by omega]

/-- The inverse engine's first stage, that of length 1, begins with all stages left. -/
theorem remaining_firstStage (h : StageInv s) (hk : s.kind = .inv) (hg : s.tag = .step2) (hlen : s.length = 1)
    (htop : s.topIdx = 0) : remaining s = allStages s.cfg := by
  have hsize : s.stepSize = s.cfg.q := by rw [← h.shape, hlen, Nat.one_mul]
  have hn := n_eq_four_mul_q h.legal
  have hq := q_pos h.legal
  rw [remaining_of_topIdx_zero h htop (by simp [hk, hg, stageTags]), allStages_eq h.legal]
  simp only [afterStage, hk, laterInv, hsize]
  omega

/-- An inverse pair leads to the next, or from the last one to the first stage (R283). -/
theorem remaining_invPair {s' : State} (h : StageInv s) (hat : atPair s = true) (hk : s.kind = .inv)
    (hg : s.tag = .step1)
    (hs' : s' = { s with
      buf := m
      bottomIdx := s.topIdx + 1
      topIdx := if s.topIdx + 2 = s.cfg.n then 0 else s.topIdx + 2
      tag := if s.topIdx + 2 = s.cfg.n then .step2 else .step1 }) : remaining s' + 1 = remaining s := by
  obtain ⟨hlen, -⟩ := atPair_iff.mp hat
  have hlt := h.pair_lt hat
  obtain ⟨h', -⟩ := pair_next h hat hs'
  rw [remaining_inv_step1 hk hg]
  by_cases hend : s.topIdx + 2 = s.cfg.n
  · simp only [hend, if_true] at hs'
    rw [remaining_firstStage h' (by rw [hs', hk]) (by rw [hs']) (by rw [hs', hlen]) (by rw [hs'])]
    simp only [hs']
    omega
  · simp only [hend, if_false] at hs'
    rw [remaining_inv_step1 (by rw [hs', hk]) (by rw [hs'])]
    simp only [hs']
    omega

/-- A forward Reorder index leads to the next, or from the last one to DONE (R258). -/
theorem remaining_fwdReorder {s' : State} (hat : atReorder s = true) (hk : s.kind = .fwd) (hg : s.tag = .reorder)
    (hs' : s' = { s with
      buf := m
      bottomIdx := rev s.cfg s.topIdx
      topIdx := s.topIdx + 1
      tag := if s.topIdx + 1 = s.cfg.n - 1 then .done else .reorder }) : remaining s' + 1 = remaining s := by
  obtain ⟨-, hlt⟩ := atReorder_iff.mp hat
  rw [remaining_fwd_reorder hk hg]
  by_cases hend : s.topIdx + 1 = s.cfg.n - 1
  · rw [if_pos hend] at hs'
    rw [remaining_of_done (congrArg State.tag hs')]
    omega
  · rw [if_neg hend] at hs'
    rw [remaining_fwd_reorder (by rw [hs', hk]) (by rw [hs'])]
    simp only [hs']
    omega

/-- An inverse Reorder index leads to the next, or from the last one to the N/2 pairs (R282). -/
theorem remaining_invReorder {s' : State} (hat : atReorder s = true) (hk : s.kind = .inv) (hg : s.tag = .reorder)
    (hs' : s' = { s with
      buf := m
      bottomIdx := rev s.cfg s.topIdx
      topIdx := if s.topIdx + 1 = s.cfg.n - 1 then 0 else s.topIdx + 1
      tag := if s.topIdx + 1 = s.cfg.n - 1 then .step1 else .reorder }) : remaining s' + 1 = remaining s := by
  obtain ⟨-, hlt⟩ := atReorder_iff.mp hat
  rw [remaining_inv_reorder hk hg]
  by_cases hend : s.topIdx + 1 = s.cfg.n - 1
  · simp only [hend, if_true] at hs'
    rw [remaining_inv_step1 (by rw [hs', hk]) (by rw [hs'])]
    simp only [hs']
    omega
  · simp only [hend, if_false] at hs'
    rw [remaining_inv_reorder (by rw [hs', hk]) (by rw [hs'])]
    simp only [hs']
    omega

end

/-! ### The count -/

/-- Each transition of an engine that is not done lowers the count by one (R317). -/
theorem remaining_of_engineStep {s s' : State} (h : StageInv s) (hfit : cursorsFit s = true) (hdone : s.tag ≠ .done)
    (hstep : engineStep s = .ok s') : remaining s' + 1 = remaining s := by
  unfold engineStep at hstep
  split at hstep
  case h_8 hg | h_16 hg => exact absurd hg hdone
  case h_17 | h_18 | h_19 => cases hstep
  all_goals
    rename_i hk hg
    rw [cursorsFit_eq hk hg] at hfit
  case h_1 =>
    obtain ⟨_, _, -, -, -, -, hs'⟩ := fwdStep1_ok_iff.mp hstep
    exact remaining_afterButterfly h hk hg (.inl hfit) hs' (by decide)
  case h_2 =>
    obtain ⟨_, _, _, _, -, -, -, -, -, -, hs'⟩ := fwdStep2_ok_iff.mp hstep
    exact remaining_afterButterfly h hk hg (.inr (.inl hfit)) hs' (by decide)
  case h_3 =>
    obtain ⟨_, _, -, -, -, -, hs'⟩ := fwdStep3_ok_iff.mp hstep
    exact remaining_afterButterfly h hk hg (.inr (.inr (.inl hfit))) hs' (by decide)
  case h_4 =>
    obtain ⟨_, _, _, _, -, -, -, -, -, -, hs'⟩ := fwdStep4_ok_iff.mp hstep
    exact remaining_afterButterfly h hk hg (.inr (.inr (.inr hfit))) hs' (by decide)
  case h_5 =>
    have hmem : s.tag ∈ stageTags s.kind := by rw [hk, hg]; decide
    obtain ⟨hnext, hs'⟩ | ⟨hend, hlen, hs'⟩ | ⟨hend, hlen, hs'⟩ := fwdStep5_ok_iff.mp hstep
    · exact remaining_nextBlock h hfit hmem hnext hs' (by rw [hk]; decide)
    · exact remaining_halfLength h hfit hk hmem hend hlen hs'
    · exact remaining_toPairs h hfit hk hmem hend hlen hs'
  case h_6 =>
    obtain ⟨_, _, -, -, -, -, hs'⟩ := fwdStep6_ok_iff.mp hstep
    exact remaining_fwdPair h hfit hk hg (hg ▸ hs')
  case h_7 =>
    obtain ⟨_, -, hs'⟩ := fwdReorder_ok_iff.mp hstep
    exact remaining_fwdReorder hfit hk hg (hg ▸ hs')
  case h_9 =>
    obtain ⟨_, -, hs'⟩ := invReorder_ok_iff.mp hstep
    exact remaining_invReorder hfit hk hg (hg ▸ hs')
  case h_10 =>
    obtain ⟨_, _, -, -, -, -, hs'⟩ := invStep1_ok_iff.mp hstep
    exact remaining_invPair h hfit hk hg (hg ▸ hs')
  case h_11 =>
    obtain ⟨_, _, -, -, -, -, hs'⟩ := invStep2_ok_iff.mp hstep
    exact remaining_afterButterfly h hk hg (.inl hfit) hs' (by decide)
  case h_12 =>
    obtain ⟨_, _, _, _, -, -, -, -, -, -, hs'⟩ := invStep3_ok_iff.mp hstep
    exact remaining_afterButterfly h hk hg (.inr (.inl hfit)) hs' (by decide)
  case h_13 =>
    obtain ⟨_, _, -, -, -, -, hs'⟩ := invStep4_ok_iff.mp hstep
    exact remaining_afterButterfly h hk hg (.inr (.inr (.inl hfit))) hs' (by decide)
  case h_14 =>
    obtain ⟨_, _, _, _, -, -, -, -, -, -, hs'⟩ := invStep5_ok_iff.mp hstep
    exact remaining_afterButterfly h hk hg (.inr (.inr (.inr hfit))) hs' (by decide)
  case h_15 =>
    have hmem : s.tag ∈ stageTags s.kind := by rw [hk, hg]; decide
    obtain ⟨hnext, hs'⟩ | ⟨hend, hsize, hs'⟩ | ⟨hend, hsize, hs'⟩ := invStep6_ok_iff.mp hstep
    · exact remaining_nextBlock h hfit hmem hnext hs' (by rw [hk]; decide)
    · exact remaining_doubleLength h hfit hk hmem hend hsize hs'
    · exact remaining_toDone h hfit hk hmem hend hsize hs'

theorem remaining_of_engineStep_of_inv {s s' : State} (hinv : Inv s) (hdone : s.tag ≠ .done)
    (hstep : engineStep s = .ok s') : remaining s' + 1 = remaining s := by
  obtain ⟨-, hengine⟩ := kind_of_engineStep_ok hstep
  obtain ⟨h, hfit⟩ := (controlInv_iff_of_engine hengine).mp (inv_iff.mp hinv).1
  exact remaining_of_engineStep h hfit hdone hstep

/-- With an engine and every entry written RUN's loop makes all the transitions left, if given fuel for them (R311). -/
theorem runLoop_of_allWritten {s : State} {fuel : Nat} (hinv : Inv s) (hw : AllWritten s) (hengine : s.kind ≠ .none)
    (hfuel : remaining s ≤ fuel) : ∃ t, runLoop fuel s = .ok (t, remaining s) ∧ AllWritten t := by
  by_cases hdone : s.tag = .done
  · exact ⟨s, by rw [runLoop_done hdone, remaining_of_done hdone], hw⟩
  · obtain ⟨s', hstep⟩ := exists_engineStep_of_allWritten hinv hw hengine
    have hcount := remaining_of_engineStep_of_inv hinv hdone hstep
    have hengine' : s'.kind ≠ .none := (kind_of_engineStep_ok hstep).1 ▸ hengine
    obtain ⟨fuel, rfl⟩ := Nat.exists_eq_add_one.mpr (show 0 < fuel by omega)
    obtain ⟨t, hrun, hw'⟩ := runLoop_of_allWritten (fuel := fuel) (engineStep_keeps_inv hinv hstep)
      (allWritten_of_engineStep hstep hw) hengine' (by omega)
    refine ⟨t, ?_, hw'⟩
    rw [runLoop_succ hdone, hstep, ← hcount]
    simp only [hrun]
    rfl
termination_by fuel

/-- RUN with an engine and every entry written ends in DONE and answers the number of transitions left before (R311). -/
theorem exec_run_of_allWritten {s : State} (hinv : Inv s) (hw : AllWritten s) (hengine : s.kind ≠ .none)
    (hbound : remaining s ≤ totalSteps s.cfg) :
    ∃ t, exec .run s = .next t ∧ t.kind = s.kind ∧ t.tag = .done ∧ AllWritten t ∧
      t.resp = some ⟨.ok, BitVec.ofNat 64 (remaining s), 0⟩ := by
  obtain ⟨u, hrun, hwritten⟩ := runLoop_of_allWritten hinv hw hengine hbound
  obtain ⟨htag, -, honly⟩ := runLoop_ok hrun
  exact ⟨{ u with resp := some ⟨.ok, resNat (remaining s), 0⟩ },
    execRun_next_iff.mpr (.inr ⟨hengine, u, _, hrun, rfl⟩), by rw [honly], htag, hwritten, rfl⟩

/-! ### RUN after a NEW -/

/-- F(LOG2N) is the passes' N/2 and N − 1 transitions and those of all stages (R260, R290). -/
theorem totalSteps_eq {c : Config} (hc : c.legal = true) : totalSteps c = c.n - 1 + c.n / 2 + allStages c := by
  have hn := n_eq_four_mul_q hc
  have hq := q_pos hc
  simp only [Config.legal, Bool.and_eq_true, decide_eq_true_eq] at hc
  obtain ⟨m, hm⟩ := Nat.exists_eq_add_one.mpr (show 0 < c.log2n by omega)
  simp only [totalSteps, allStages, hm, Nat.succ_mul, Nat.add_sub_cancel]
  omega

/-- The forward engine of R250 has Q as its length and 1 as its step_size. -/
theorem remaining_of_fwdNew {s : State} (h : StageInv s) (hk : s.kind = .fwd) (hg : s.tag = .step1)
    (hsize : s.stepSize = 1) (htop : s.topIdx = 0) : remaining s = totalSteps s.cfg := by
  have hlen : s.length = s.cfg.q := by rw [← h.shape, hsize, Nat.mul_one]
  have hn := h.four_le_n
  rw [remaining_of_topIdx_zero h htop (by simp [hk, hg, stageTags]), totalSteps_eq h.legal, allStages_eq h.legal]
  simp only [afterStage, hk, laterFwd, hlen, hsize]
  omega

theorem remaining_of_invNew {s : State} (hlegal : s.cfg.legal = true) (hk : s.kind = .inv) (hg : s.tag = .reorder)
    (htop : s.topIdx = 0) : remaining s = totalSteps s.cfg := by
  rw [remaining_inv_reorder hk hg, totalSteps_eq hlegal, htop, Nat.sub_zero]

/-- A NEW makes an engine with F(LOG2N) transitions left and leaves the buffer alone. -/
theorem exec_new {s : State} (hinv : Inv s) {i : Instr} (hi : i = .fwdNew ∨ i = .invNew) :
    ∃ u, exec i s = .next u ∧ Inv u ∧ u.kind ≠ .none ∧ u.cfg = s.cfg ∧ u.buf = s.buf ∧
      remaining u = totalSteps u.cfg := by
  obtain rfl | rfl := hi
  · have hinv' := exec_answersInv hinv .fwdNew _ rfl
    obtain ⟨h, -⟩ := (controlInv_iff_of_engine (by nofun)).mp (inv_iff.mp hinv').1
    exact ⟨_, rfl, hinv', by nofun, rfl, rfl, remaining_of_fwdNew h rfl rfl rfl rfl⟩
  · have hinv' := exec_answersInv hinv .invNew _ rfl
    exact ⟨_, rfl, hinv', by nofun, rfl, rfl, remaining_of_invNew hinv'.1 rfl rfl rfl⟩

/-- Settles O49: the new engine has F(LOG2N) transitions left, and RUN makes them all. -/
theorem runAfterNewTakesF : Obligations.RunAfterNewTakesF := by
  intro s hinv hw i hi
  obtain ⟨u, hnew, hinv', hengine, hcfg, hbuf, hleft⟩ := exec_new hinv hi
  have hw' : AllWritten u := by
    intro j hj
    rw [hcfg] at hj
    rw [written, hbuf]
    exact hw j hj
  obtain ⟨t, hrun, -, hdone, -, hresp⟩ := exec_run_of_allWritten hinv' hw' hengine hleft.le
  refine ⟨u, t, hnew, hrun, hdone, ?_⟩
  rw [hresp, hleft, hcfg]
  rfl

end Sys2Proof.Machine
end

section
/-! PROOFS. The transitions of the forward engine and the Reorder steps of both (45_forward_engine.md R250 to R259,
46_inverse_engine.md R280, R282, R289): the whole next state of each. -/

namespace Sys2Proof.Machine

section
variable {s s' : State}

/-- STEP with an engine answers the state of its transition (R310). -/
theorem exec_step_of_engineStep (hengine : s.kind ≠ .none) (h : engineStep s = .ok s') :
    exec .step s = .next { s' with resp := some ⟨.ok, 0, 0⟩ } :=
  execStep_next_iff.mpr (.inr ⟨hengine, s', h, rfl⟩)

/-- STEP of the forward engine, given which transition its tag selects. -/
theorem exec_step_of_fwd {transition : State → Except Fault State} (hk : s.kind = .fwd)
    (hsel : engineStep s = transition s) (h : transition s = .ok s') :
    exec .step s = .next { s' with resp := some ⟨.ok, 0, 0⟩ } :=
  exec_step_of_engineStep (by rw [hk]; nofun) (hsel.trans h)

end

/-- Settles O22: the decoder's two rows, and each command's one response. -/
theorem newEngineRules : Obligations.NewEngineRules := by
  refine ⟨fun t hopc => ?fwdRow, fun t hopc => ?invRow, fun s => ⟨?fwd, ?inv⟩⟩
  case fwdRow | invRow => simp only [decode, hopc]
  case fwd => rfl
  case inv => rfl

/-- Settles O26: the kernels of R226 and R228 at the two written entries. -/
theorem forwardPlainButterflies : Obligations.ForwardPlainButterflies := by
  intro s x y hk hb hx hy
  have ht : s.topIdx < s.cfg.n := by omega
  refine ⟨fun hg => ?blockStart, fun hg => ?middle⟩
  case blockStart =>
    exact exec_step_of_fwd hk (by simp only [engineStep, hk, hg]) (fwdStep1_ok_iff.mpr ⟨x, y, ht, hb, hx, hy, rfl⟩)
  case middle =>
    exact exec_step_of_fwd hk (by simp only [engineStep, hk, hg]) (fwdStep3_ok_iff.mpr ⟨x, y, ht, hb, hx, hy, rfl⟩)

/-- Settles O27: the kernels of R227 and R229 at the two written entries, with the pair of R195. -/
theorem forwardTwiddledButterflies : Obligations.ForwardTwiddledButterflies := by
  intro s x y c n hk hb hx hy hc hn
  have ht : s.topIdx < s.cfg.n := by omega
  refine ⟨fun hg => ?firstHalf, fun hg => ?secondHalf⟩
  case firstHalf =>
    exact exec_step_of_fwd hk (by simp only [engineStep, hk, hg])
      (fwdStep2_ok_iff.mpr ⟨c, n, x, y, hc, hn, ht, hb, hx, hy, rfl⟩)
  case secondHalf =>
    exact exec_step_of_fwd hk (by simp only [engineStep, hk, hg])
      (fwdStep4_ok_iff.mpr ⟨c, n, x, y, hc, hn, ht, hb, hx, hy, rfl⟩)

/-- Settles O28: one move of R256 each. -/
theorem forwardBookkeeping : Obligations.ForwardBookkeeping := by
  intro s hk hg
  have hsel : engineStep s = fwdStep5 s := by simp only [engineStep, hk, hg]
  refine ⟨fun hnext => ?block, fun hend hlen => ?stage, fun hend hlen => ?pairs⟩
  case block => exact exec_step_of_fwd hk hsel (fwdStep5_ok_iff.mpr (.inl ⟨hnext, rfl⟩))
  case stage => exact exec_step_of_fwd hk hsel (fwdStep5_ok_iff.mpr (.inr (.inl ⟨hend, hlen, rfl⟩)))
  case pairs => exact exec_step_of_fwd hk hsel (fwdStep5_ok_iff.mpr (.inr (.inr ⟨hend, hlen, rfl⟩)))

/-- Settles O29: the kernel of R226 at the adjacent pair. -/
theorem forwardFinalPass : Obligations.ForwardFinalPass := by
  intro s x y hk hg hb hx hy
  have hsel : engineStep s = fwdStep6 s := by simp only [engineStep, hk, hg]
  rw [← hg]
  exact exec_step_of_fwd hk hsel (fwdStep6_ok_iff.mpr ⟨x, y, by omega, hb, hx, hy, rfl⟩)

/-! ### The Reorder steps -/

/-- The state after a Reorder step that leaves the buffer `m`: the next index, or the end of the pass (R258, R282). -/
def afterReorder (s : State) (m : List (Nat × Sample)) : State :=
  if s.kind = .fwd then
    { s with
      buf := m
      bottomIdx := rev s.cfg s.topIdx
      topIdx := s.topIdx + 1
      tag := if s.topIdx + 1 = s.cfg.n - 1 then .done else .reorder }
  else
    { s with
      buf := m
      bottomIdx := rev s.cfg s.topIdx
      topIdx := if s.topIdx + 1 = s.cfg.n - 1 then 0 else s.topIdx + 1
      tag := if s.topIdx + 1 = s.cfg.n - 1 then .step1 else .reorder }

section
variable {s : State} {m : List (Nat × Sample)}

/-- Both engines' Reorder transitions: what the swap leaves, with the cursors and the tag moved. -/
theorem engineStep_reorder (hengine : s.kind ≠ .none) (hg : s.tag = .reorder)
    (hm : (if s.topIdx < rev s.cfg s.topIdx then swapEntries s s.topIdx (rev s.cfg s.topIdx) else .ok s) =
      .ok { s with buf := m }) : engineStep s = .ok (afterReorder s m) := by
  cases hk : s.kind with
  | none => exact absurd hk hengine
  | fwd =>
    rw [show engineStep s = fwdReorder s by simp only [engineStep, hk, hg], afterReorder, if_pos hk, ← hg]
    exact fwdReorder_ok_iff.mpr ⟨m, hm, rfl⟩
  | inv =>
    rw [show engineStep s = invReorder s by simp only [engineStep, hk, hg], afterReorder, if_neg (by rw [hk]; nofun),
      ← hg]
    exact invReorder_ok_iff.mpr ⟨m, hm, rfl⟩

end

/-- Settles O30: below rev(t) the two entries are swapped, otherwise the buffer is not read. -/
theorem reorderSteps : Obligations.ReorderSteps := by
  intro s hg t r moved hengine
  have hmoved (m : List (Nat × Sample)) : moved m = { afterReorder s m with resp := some ⟨.ok, 0, 0⟩ } := by
    simp only [moved, afterReorder]
    split <;> rfl
  refine ⟨fun hle => ?stays, fun x y hlt hr hx hy => ?swaps⟩
  case stays =>
    rw [hmoved]
    exact exec_step_of_engineStep hengine (engineStep_reorder hengine hg (if_neg hle.not_gt))
  case swaps =>
    rw [hmoved]
    refine exec_step_of_engineStep hengine (engineStep_reorder hengine hg ?_)
    rw [if_pos hlt]
    exact swapEntries_ok_iff.mpr ⟨x, y, hlt.trans hr, hr, hx, hy, rfl⟩

/-- Settles O35: the transition of DONE is the identity, and RUN's loop makes none. -/
theorem doneIsNoOp : Obligations.DoneIsNoOp := by
  intro s hengine hg
  refine ⟨exec_step_of_engineStep hengine ?step,
    execRun_next_iff.mpr (.inr ⟨hengine, s, 0, runLoop_done hg _, rfl⟩)⟩
  cases hk : s.kind with
  | none => exact absurd hk hengine
  | fwd => simp only [engineStep, hk, hg, fwdDone]
  | inv => simp only [engineStep, hk, hg, invDone]

end Sys2Proof.Machine
end

section
/-! PROOFS. The transitions of the inverse engine (46_inverse_engine.md R283 to R288): the whole next state of each. -/

namespace Sys2Proof.Machine

/-- STEP of the inverse engine, given which transition its tag selects. -/
theorem exec_step_of_inv {s s' : State} {transition : State → Except Fault State} (hk : s.kind = .inv)
    (hsel : engineStep s = transition s) (h : transition s = .ok s') :
    exec .step s = .next { s' with resp := some ⟨.ok, 0, 0⟩ } :=
  exec_step_of_engineStep (by rw [hk]; nofun) (hsel.trans h)

/-- Settles O31: the scaling kernel of R234 at the adjacent pair. -/
theorem inverseScaledPass : Obligations.InverseScaledPass := by
  intro s x y hk hg hb hx hy
  have hsel : engineStep s = invStep1 s := by simp only [engineStep, hk, hg]
  rw [← hg]
  exact exec_step_of_inv hk hsel (invStep1_ok_iff.mpr ⟨x, y, by omega, hb, hx, hy, rfl⟩)

/-- Settles O32: the kernels of R230 and R232 at the two written entries. -/
theorem inversePlainButterflies : Obligations.InversePlainButterflies := by
  intro s x y hk hb hx hy
  have ht : s.topIdx < s.cfg.n := by omega
  refine ⟨fun hg => ?blockStart, fun hg => ?middle⟩
  case blockStart =>
    exact exec_step_of_inv hk (by simp only [engineStep, hk, hg]) (invStep2_ok_iff.mpr ⟨x, y, ht, hb, hx, hy, rfl⟩)
  case middle =>
    exact exec_step_of_inv hk (by simp only [engineStep, hk, hg]) (invStep4_ok_iff.mpr ⟨x, y, ht, hb, hx, hy, rfl⟩)

/-- Settles O33: the kernels of R231 and R233 at the two written entries, with the pair of R195. -/
theorem inverseTwiddledButterflies : Obligations.InverseTwiddledButterflies := by
  intro s x y c n hk hb hx hy hc hn
  have ht : s.topIdx < s.cfg.n := by omega
  refine ⟨fun hg => ?firstHalf, fun hg => ?secondHalf⟩
  case firstHalf =>
    exact exec_step_of_inv hk (by simp only [engineStep, hk, hg])
      (invStep3_ok_iff.mpr ⟨c, n, x, y, hc, hn, ht, hb, hx, hy, rfl⟩)
  case secondHalf =>
    exact exec_step_of_inv hk (by simp only [engineStep, hk, hg])
      (invStep5_ok_iff.mpr ⟨c, n, x, y, hc, hn, ht, hb, hx, hy, rfl⟩)

/-- Settles O34: one move of R288 each. -/
theorem inverseBookkeeping : Obligations.InverseBookkeeping := by
  intro s hk hg
  have hsel : engineStep s = invStep6 s := by simp only [engineStep, hk, hg]
  refine ⟨fun hnext => ?block, fun hend hstep => ?stage, fun hend hstep => ?done⟩
  case block => exact exec_step_of_inv hk hsel (invStep6_ok_iff.mpr (.inl ⟨hnext, rfl⟩))
  case stage => exact exec_step_of_inv hk hsel (invStep6_ok_iff.mpr (.inr (.inl ⟨hend, hstep, rfl⟩)))
  case done => exact exec_step_of_inv hk hsel (invStep6_ok_iff.mpr (.inr (.inr ⟨hend, hstep, rfl⟩)))

end Sys2Proof.Machine
end

section
/-! PROOFS. STEP and RUN with an engine (47_engine_commands.md R310, R311, R316, R317): when they complete, the count of
transitions left between 0 and F(LOG2N), and RUN as the loop of STEPs. -/

namespace Sys2Proof.Machine

/-- Settles O45: over a written buffer the transition answers, and it unwrites nothing. -/
theorem stepCompletesWhenWritten : Obligations.StepCompletesWhenWritten := by
  intro s hinv hw hengine
  obtain ⟨s', hstep⟩ := exists_engineStep_of_allWritten hinv hw hengine
  have hw' : AllWritten s' := allWritten_of_engineStep hstep hw
  exact ⟨_, exec_step_of_engineStep hengine hstep, rfl, (kind_of_engineStep_ok hstep).1, hw'⟩

/-! ### The count between 0 and F(LOG2N) -/

section
variable {s : State}

theorem stageRest_pos (s : State) : 0 < stageRest s := by
  rw [stageRest, blockRest]
  omega

/-- A stage has S blocks of 2L + 1 transitions, and the block `top_idx` stands in is one of them. -/
theorem stageRest_le (h : StageInv s) : stageRest s ≤ s.cfg.n / 2 + s.stepSize := by
  have hblock : blockRest s ≤ 2 * s.length + 1 := by rw [blockRest]; omega
  have hothers : s.stepSize - 1 - s.topIdx / (4 * s.length) ≤ s.stepSize - 1 := Nat.sub_le ..
  obtain ⟨z, hz⟩ := Nat.exists_eq_add_one.mpr h.stepSize_pos
  calc stageRest s ≤ (2 * s.length + 1) + (s.stepSize - 1) * (2 * s.length + 1) :=
        Nat.add_le_add hblock (Nat.mul_le_mul_right _ hothers)
    _ = s.cfg.n / 2 + s.stepSize := by rw [half_n_eq h, hz, Nat.add_sub_cancel]; ring

theorem log2_le_log2_of_le {m n : Nat} (hm : 0 < m) (h : m ≤ n) : Nat.log2 m ≤ Nat.log2 n :=
  (Nat.le_log2 (hm.trans_le h).ne').mpr ((Nat.log2_self_le hm.ne').trans h)

/-- Neither L nor S is above Q, so a stage and what comes after it take no more than the engine's F(LOG2N). -/
theorem stageRest_add_afterStage_le (h : StageInv s) : stageRest s + afterStage s ≤ totalSteps s.cfg := by
  have hstage := stageRest_le h
  have hn := n_eq_four_mul_q h.legal
  have hlen : s.length ≤ s.cfg.q := h.shape ▸ Nat.le_mul_of_pos_right _ h.stepSize_pos
  have hsize : s.stepSize ≤ s.cfg.q := h.shape ▸ Nat.le_mul_of_pos_left _ h.length_pos
  have hsizePos := h.stepSize_pos
  have hlog {m : Nat} (hm : 0 < m) (hle : m ≤ s.cfg.q) :
      Nat.log2 m * (s.cfg.n / 2) ≤ Nat.log2 s.cfg.q * (s.cfg.n / 2) :=
    Nat.mul_le_mul_right _ (log2_le_log2_of_le hm hle)
  have hlogLen := hlog h.length_pos hlen
  have hlogSize := hlog h.stepSize_pos hsize
  rw [totalSteps_eq h.legal, allStages_eq h.legal]
  cases hk : s.kind <;> simp only [afterStage, hk, laterFwd, laterInv] <;> omega

/-- Before DONE some transition is left, and never more than F(LOG2N) (R317). -/
theorem remaining_bounds (h : StageInv s) (hfit : cursorsFit s = true) (hengine : s.kind ≠ .none)
    (hdone : s.tag ≠ .done) : 0 < remaining s ∧ remaining s ≤ totalSteps s.cfg := by
  have hn := h.four_le_n
  have htop := h.topIdx_lt
  have hF := totalSteps_eq h.legal
  have hstages : 0 < allStages s.cfg := by rw [allStages]; omega
  by_cases hg : s.tag ∈ stageTags s.kind
  · rw [remaining_of_stage hg]
    exact ⟨Nat.add_pos_left (stageRest_pos s) _, stageRest_add_afterStage_le h⟩
  cases hk : s.kind with
  | none => exact absurd hk hengine
  | fwd =>
    cases ht : s.tag
    case step6 =>
      rw [remaining_fwd_step6 hk ht]
      omega
    case reorder =>
      rw [cursorsFit_eq hk ht] at hfit
      have hlt : s.topIdx < s.cfg.n - 1 := (atReorder_iff.mp hfit).2
      rw [remaining_fwd_reorder hk ht]
      omega
    case none => simp [cursorsFit, hk, ht] at hfit
    case done => exact absurd ht hdone
    all_goals simp [stageTags, hk, ht] at hg
  | inv =>
    cases ht : s.tag
    case reorder =>
      rw [remaining_inv_reorder hk ht]
      omega
    case step1 =>
      rw [remaining_inv_step1 hk ht]
      omega
    case none => simp [cursorsFit, hk, ht] at hfit
    case done => exact absurd ht hdone
    all_goals simp [stageTags, hk, ht] at hg

theorem remaining_eq_zero_iff (hinv : ControlInv s) (hengine : s.kind ≠ .none) : remaining s = 0 ↔ s.tag = .done := by
  obtain ⟨h, hfit⟩ := (controlInv_iff_of_engine hengine).mp hinv
  refine ⟨fun hzero => ?_, remaining_of_done⟩
  by_contra hdone
  exact (remaining_bounds h hfit hengine hdone).1.ne' hzero

theorem remaining_le_totalSteps (hinv : ControlInv s) (hengine : s.kind ≠ .none) :
    remaining s ≤ totalSteps s.cfg := by
  obtain ⟨h, hfit⟩ := (controlInv_iff_of_engine hengine).mp hinv
  by_cases hdone : s.tag = .done
  · rw [remaining_of_done hdone]
    exact Nat.zero_le _
  · exact (remaining_bounds h hfit hengine hdone).2

end

/-- Settles O47: the bounds, and the count of the transition STEP makes, which does not speak of the response. -/
theorem transitionsCountDown : Obligations.TransitionsCountDown := by
  intro s hinv hengine
  refine ⟨remaining_eq_zero_iff hinv hengine, remaining_le_totalSteps hinv hengine, fun t hdone ht => ?_⟩
  obtain ⟨hnone, -⟩ | ⟨-, s', hstep, rfl⟩ := execStep_next_iff.mp ht
  · exact absurd hnone hengine
  · obtain ⟨h, hfit⟩ := (controlInv_iff_of_engine hengine).mp hinv
    have hcount : remaining s' + 1 = remaining s := remaining_of_engineStep h hfit hdone hstep
    exact hcount

/-- Settles O48: F(LOG2N), which RUN's loop is given, covers the transitions left. -/
theorem runCompletesWhenWritten : Obligations.RunCompletesWhenWritten :=
  fun _ hinv hw hengine =>
    exec_run_of_allWritten hinv hw hengine (remaining_le_totalSteps (inv_iff.mp hinv).1 hengine)

/-! ### The loop of STEPs -/

section
variable {s s' t : State} {k n fuel : Nat}

theorem stepTimes_succ_of_ok (hstep : engineStep s = .ok s') :
    stepTimes (k + 1) s = stepTimes k { s' with resp := some ⟨.ok, 0, 0⟩ } := by
  have hexec : execStep s = .next { s' with resp := some ⟨.ok, 0, 0⟩ } :=
    exec_step_of_engineStep (kind_of_engineStep_ok hstep).2 hstep
  rw [stepTimes, hexec]

theorem stepTimes_succ_of_error {f : Fault} (hengine : s.kind ≠ .none) (hstep : engineStep s = .error f) :
    stepTimes (k + 1) s = .fault f := by
  rw [stepTimes, execStep_fault_iff.mpr ⟨hengine, hstep⟩]

/-- The loop of STEPs counts down to the transitions left where it ends. -/
theorem remaining_of_stepTimes (hinv : Inv s) (hengine : s.kind ≠ .none) (hk : k ≤ remaining s)
    (h : stepTimes k s = .next t) : Inv t ∧ t.kind ≠ .none ∧ remaining t + k = remaining s := by
  induction k generalizing s with
  | zero =>
    cases h
    exact ⟨hinv, hengine, rfl⟩
  | succ k ih =>
    have hdone : s.tag ≠ .done := fun hdone => by simp [remaining_of_done hdone] at hk
    cases hstep : engineStep s with
    | error f =>
      rw [stepTimes_succ_of_error hengine hstep] at h
      cases h
    | ok s' =>
      rw [stepTimes_succ_of_ok hstep] at h
      have hinv' : Inv s' := engineStep_keeps_inv hinv hstep
      have hengine' : s'.kind ≠ .none := (kind_of_engineStep_ok hstep).1 ▸ hengine
      have hcount := remaining_of_engineStep_of_inv hinv hdone hstep
      obtain ⟨hinvEnd, hengineEnd, hrest⟩ := ih (s := { s' with resp := some ⟨.ok, 0, 0⟩ }) hinv' hengine'
        (show k ≤ remaining s' by omega) h
      have hrest' : remaining t + k = remaining s' := hrest
      exact ⟨hinvEnd, hengineEnd, by omega⟩

/-- RUN's loop neither reads nor sets the response. -/
theorem runLoop_withResp (r : Option Response) :
    runLoop fuel { s with resp := r } = (runLoop fuel s).map fun p => ({ p.1 with resp := r }, p.2) := by
  refine (runLoop_withInterface s s.port r fuel).trans ?_
  cases hrun : runLoop fuel s with
  | error f => rfl
  | ok p =>
    obtain ⟨-, -, honly⟩ := runLoop_ok hrun
    have hport : p.1.port = s.port := by rw [honly]
    simp only [Except.map, State.withInterface, ← hport]

/-- RUN's loop ends where as many STEPs end as there are transitions left, but for the responses of the STEPs, and
stops where they stop (R316). -/
theorem runLoop_of_stepTimes (hinv : Inv s) (hengine : s.kind ≠ .none) (hn : remaining s = n) (hfuel : n ≤ fuel) :
    (∀ t, stepTimes n s = .next t → runLoop fuel s = .ok ({ t with resp := s.resp }, n)) ∧
      ∀ f, stepTimes n s = .fault f → runLoop fuel s = .error f := by
  induction n generalizing s fuel with
  | zero =>
    have hdone := (remaining_eq_zero_iff (inv_iff.mp hinv).1 hengine).mp hn
    refine ⟨fun t ht => ?_, nofun⟩
    cases ht
    exact runLoop_done hdone fuel
  | succ n ih =>
    have hdone : s.tag ≠ .done := fun hdone => by simp [remaining_of_done hdone] at hn
    obtain ⟨fuel, rfl⟩ := Nat.exists_eq_add_one.mpr (Nat.zero_lt_of_lt hfuel)
    rw [runLoop_succ hdone]
    cases hstep : engineStep s with
    | error f =>
      rw [stepTimes_succ_of_error hengine hstep]
      exact ⟨nofun, fun _ hf => by cases hf; rfl⟩
    | ok s' =>
      rw [stepTimes_succ_of_ok hstep]
      have hcount := remaining_of_engineStep_of_inv hinv hdone hstep
      have hresp : s'.resp = s.resp := by rw [engineStep_only hstep]
      have hinv' : Inv s' := engineStep_keeps_inv hinv hstep
      have hengine' : s'.kind ≠ .none := (kind_of_engineStep_ok hstep).1 ▸ hengine
      obtain ⟨hnext, hfault⟩ := ih (s := { s' with resp := some ⟨.ok, 0, 0⟩ }) hinv' hengine'
        (show remaining s' = n by omega) (Nat.le_of_succ_le_succ hfuel)
      have hrun : runLoop fuel s' = (runLoop fuel { s' with resp := some ⟨.ok, 0, 0⟩ }).map
          fun p => ({ p.1 with resp := s'.resp }, p.2) :=
        runLoop_withResp (s := { s' with resp := some ⟨.ok, 0, 0⟩ }) s'.resp
      simp only [hrun]
      refine ⟨fun t ht => ?_, fun f hf => ?_⟩
      · rw [hnext t ht, hresp]
        rfl
      · rw [hfault f hf]
        rfl

end

/-- Settles O50: the count after each STEP tells where the loop is done, and RUN's loop follows it. -/
theorem runIsStepLoop : Obligations.RunIsStepLoop := by
  intro s hinv hengine
  have hbound := remaining_le_totalSteps (inv_iff.mp hinv).1 hengine
  obtain ⟨hnext, hfault⟩ := runLoop_of_stepTimes hinv hengine rfl hbound
  refine ⟨fun j u hj hu hdone => ?_, fun t ht => ⟨?_, ?_⟩, fun f hf => execRun_fault_iff.mpr ⟨hengine, hfault f hf⟩⟩
  · obtain ⟨-, -, hcount⟩ := remaining_of_stepTimes hinv hengine hj.le hu
    rw [remaining_of_done hdone] at hcount
    omega
  · obtain ⟨hinv', hengine', hcount⟩ := remaining_of_stepTimes hinv hengine le_rfl ht
    exact (remaining_eq_zero_iff (inv_iff.mp hinv').1 hengine').mp (by omega)
  · exact execRun_next_iff.mpr (.inr ⟨hengine, _, _, hnext t ht, rfl⟩)

end Sys2Proof.Machine
end

section
/-! PROOFS. What STEP and RUN leave unchanged (47_engine_commands.md R310, R311, 20_memory.md R74), and that where they
lead does not turn on the buffer and the tables (R317). -/

namespace Sys2Proof.Machine

/-! ### Frames -/

/-- A transition leaves every entry but the two it works on (R310). -/
theorem bufGet_of_engineStep {s s' : State} (h : engineStep s = .ok s') {i : Nat} (hi : i ∉ touched s) :
    bufGet s'.buf i = bufGet s.buf i := by
  obtain hbuf | ⟨t, b, _, _, z, w, htouched, -, -, hbuf⟩ := engineStep_writesTouched h
  · rw [hbuf]
  · simp only [htouched, List.mem_cons, List.not_mem_nil, or_false, not_or] at hi
    rw [hbuf, bufGet_bufSet_ne _ _ hi.2, bufGet_bufSet_ne _ _ hi.1]

/-- RUN's loop answers where it starts, at DONE, or after a transition and the loop from there (R311). -/
theorem runLoop_ok_cases {fuel : Nat} {s t : State} {n : Nat} (h : runLoop fuel s = .ok (t, n)) :
    (s.tag = .done ∧ t = s ∧ n = 0) ∨ (s.tag ≠ .done ∧ ∃ fuel' s' k, fuel = fuel' + 1 ∧ engineStep s = .ok s' ∧
      runLoop fuel' s' = .ok (t, k) ∧ n = k + 1) := by
  by_cases hdone : s.tag = .done
  · rw [runLoop_done hdone] at h
    cases h
    exact .inl ⟨hdone, rfl, rfl⟩
  · cases fuel with
    | zero =>
      rw [runLoop_zero hdone] at h
      cases h
    | succ fuel =>
      rw [runLoop_succ hdone] at h
      cases hstep : engineStep s with
      | error f => simp [hstep] at h
      | ok s' =>
        simp only [hstep, except_map_ok_iff] at h
        obtain ⟨⟨_, k⟩, hrest, hpair⟩ := h
        cases hpair
        exact .inr ⟨hdone, fuel, s', k, rfl, rfl, hrest, rfl⟩

/-- What every transition keeps, RUN's loop keeps. -/
theorem runLoop_keeps {P : State → Prop} (hkeep : ∀ u v, P u → engineStep u = .ok v → P v) {fuel : Nat} {s t : State}
    {n : Nat} (hs : P s) (h : runLoop fuel s = .ok (t, n)) : P t := by
  obtain ⟨-, rfl, -⟩ | ⟨-, fuel, s', k, rfl, hstep, hrest, -⟩ := runLoop_ok_cases h
  · exact hs
  · exact runLoop_keeps hkeep (hkeep s s' hs hstep) hrest
termination_by fuel

theorem written_of_runLoop {fuel : Nat} {s t : State} {n : Nat} (h : runLoop fuel s = .ok (t, n)) (i : Nat) :
    written t i = written s i :=
  runLoop_keeps (P := fun u => written u i = written s i) (fun _ _ hu hstep => (written_of_engineStep hstep i).trans hu)
    rfl h

/-- Settles O55: a transition sets buffer, tag and cursors alone, and of the buffer the two entries. -/
theorem stepFrame : Obligations.StepFrame := by
  intro s t hengine ht
  obtain ⟨hnone, -⟩ | ⟨-, s', hstep, rfl⟩ := execStep_next_iff.mp ht
  · exact absurd hnone hengine
  · have hbuf : ∀ i, i ∉ touched s → bufGet s'.buf i = bufGet s.buf i := fun _ => bufGet_of_engineStep hstep
    have honly := engineStep_only hstep
    refine ⟨?_, ?_, ?_, ?_, ?_, ?_, ?_, rfl, hbuf⟩
    all_goals rw [honly]

/-- Settles O56: RUN's loop sets what its transitions set, and none of them writes an entry for the first time. -/
theorem runFrame : Obligations.RunFrame := by
  intro s t hengine ht
  obtain ⟨hnone, -⟩ | ⟨-, u, n, hrun, rfl⟩ := execRun_next_iff.mp ht
  · exact absurd hnone hengine
  · have hwritten : ∀ i, written u i = written s i := written_of_runLoop hrun
    obtain ⟨-, -, honly⟩ := runLoop_ok hrun
    refine ⟨?_, ?_, ?_, ?_, ?_, ?_, ?_, hwritten⟩
    all_goals rw [honly]

/-! ### Control does not depend on data -/

/-- The two states agree in the parameters, the kind, the tag and the cursors (R317). -/
def SameControl (s u : State) : Prop :=
  s.cfg = u.cfg ∧ s.kind = u.kind ∧ s.tag = u.tag ∧ s.length = u.length ∧ s.step = u.step ∧
    s.stepSize = u.stepSize ∧ s.topIdx = u.topIdx ∧ s.bottomIdx = u.bottomIdx

/-- The control of `s` with the buffer, the tables and the other fields of `d`. -/
def State.withData (s d : State) : State :=
  { s with buf := d.buf, err := d.err, tw := d.tw, atan := d.atan, gain := d.gain, port := d.port, resp := d.resp }

theorem SameControl.eq_withData {s u : State} (h : SameControl s u) : u = s.withData u := by
  obtain ⟨hcfg, hkind, htag, hlength, hstep, hstepSize, htop, hbottom⟩ := h
  simp only [State.withData, hcfg, hkind, htag, hlength, hstep, hstepSize, htop, hbottom]

theorem sameControl_withData (s d : State) : SameControl s (s.withData d) := ⟨rfl, rfl, rfl, rfl, rfl, rfl, rfl, rfl⟩

/-- The bookkeeping transitions read the control alone. -/
theorem fwdStep5_withData (s d : State) : fwdStep5 (s.withData d) = (fwdStep5 s).map (·.withData d) := by
  simp only [fwdStep5, apply_ite (Except.map fun x : State => x.withData d)]
  rfl

theorem invStep6_withData (s d : State) : invStep6 (s.withData d) = (invStep6 s).map (·.withData d) := by
  simp only [invStep6, apply_ite (Except.map fun x : State => x.withData d)]
  rfl

theorem sameControl_of_map_withData {e e' : Except Fault State} {d s' u' : State} (he : e' = e.map (·.withData d))
    (hs : e = .ok s') (hu : e' = .ok u') : SameControl s' u' := by
  rw [he, hs] at hu
  cases hu
  exact sameControl_withData s' d

theorem sameControl_ite {c : Prop} [Decidable c] {a b a' b' : State} (ha : SameControl a a') (hb : SameControl b b') :
    SameControl (if c then a else b) (if c then a' else b') := by
  split
  · exact ha
  · exact hb

/-- The operation, where it answers, changes the buffer of `s` alone. -/
def OnlyBuffer (s : State) (e : Except Fault State) : Prop := ∀ x, e = .ok x → ∃ m, x = { s with buf := m }

theorem onlyBuffer_applyKernel {s : State} {t b : Nat} {k : Sample → Sample → Sample × Sample} :
    OnlyBuffer s (applyKernel s t b k) := by
  intro x hx
  obtain ⟨_, _, -, -, -, -, rfl⟩ := applyKernel_ok_iff.mp hx
  exact ⟨_, rfl⟩

theorem onlyBuffer_applyTwiddled {s : State} {t b k : Nat}
    {kernel : Word → Word → Sample → Sample → Sample × Sample} : OnlyBuffer s (applyTwiddled s t b k kernel) := by
  intro x hx
  obtain ⟨_, _, -, -, hkernel⟩ := applyTwiddled_ok_iff.mp hx
  exact onlyBuffer_applyKernel x hkernel

theorem onlyBuffer_reorder {s : State} {t r : Nat} : OnlyBuffer s (if t < r then swapEntries s t r else .ok s) := by
  intro x hx
  split at hx
  · exact onlyBuffer_applyKernel x hx
  · exact ⟨s.buf, (Except.ok.inj hx).symm⟩

/-- A transition is an operation on the buffer and then a move of the control. -/
theorem sameControl_of_map {s d s' u' : State} {e e' : Except Fault State} {f f' : State → State}
    (hs : e.map f = .ok s') (hu : e'.map f' = .ok u') (he : OnlyBuffer s e) (he' : OnlyBuffer (s.withData d) e')
    (hf : ∀ m m', SameControl (f { s with buf := m }) (f' { s.withData d with buf := m' })) : SameControl s' u' := by
  obtain ⟨x, hx, rfl⟩ := except_map_ok_iff.mp hs
  obtain ⟨y, hy, rfl⟩ := except_map_ok_iff.mp hu
  obtain ⟨m, rfl⟩ := he x hx
  obtain ⟨m', rfl⟩ := he' y hy
  exact hf m m'

/-- A transition moves the control by the control alone (R317). -/
theorem sameControl_of_engineStep {s u s' u' : State} (h : SameControl s u) (hs : engineStep s = .ok s')
    (hu : engineStep u = .ok u') : SameControl s' u' := by
  rw [h.eq_withData] at hu
  have hkind : (s.withData u).kind = s.kind := rfl
  have htag : (s.withData u).tag = s.tag := rfl
  unfold engineStep at hs hu
  rw [hkind, htag] at hu
  split at hs
  case h_17 | h_18 | h_19 => cases hs
  all_goals
    rename_i hk hg
    simp only [hk, hg] at hu
  case h_1 | h_3 | h_6 | h_10 | h_11 | h_13 =>
    refine sameControl_of_map hs hu onlyBuffer_applyKernel onlyBuffer_applyKernel fun _ _ => ?_
    exact sameControl_ite ⟨rfl, rfl, rfl, rfl, rfl, rfl, rfl, rfl⟩ ⟨rfl, rfl, rfl, rfl, rfl, rfl, rfl, rfl⟩
  case h_2 | h_4 | h_12 | h_14 =>
    exact sameControl_of_map hs hu onlyBuffer_applyTwiddled onlyBuffer_applyTwiddled fun _ _ =>
      ⟨rfl, rfl, rfl, rfl, rfl, rfl, rfl, rfl⟩
  case h_7 | h_9 =>
    refine sameControl_of_map hs hu onlyBuffer_reorder onlyBuffer_reorder fun _ _ => ?_
    exact sameControl_ite ⟨rfl, rfl, rfl, rfl, rfl, rfl, rfl, rfl⟩ ⟨rfl, rfl, rfl, rfl, rfl, rfl, rfl, rfl⟩
  case h_5 => exact sameControl_of_map_withData (fwdStep5_withData s u) hs hu
  case h_15 => exact sameControl_of_map_withData (invStep6_withData s u) hs hu
  case h_8 | h_16 =>
    cases hs
    cases hu
    exact sameControl_withData s u

/-- RUN's loop, too, moves the control by the control alone, in as many transitions. -/
theorem sameControl_of_runLoop {fuel : Nat} {s u s' u' : State} {n n' : Nat} (h : SameControl s u)
    (hs : runLoop fuel s = .ok (s', n)) (hu : runLoop fuel u = .ok (u', n')) : SameControl s' u' ∧ n = n' := by
  obtain ⟨-, -, htag, -⟩ := id h
  obtain ⟨hs0, rfl, rfl⟩ | ⟨hs0, fuel, v, k, rfl, hv, hsRest, rfl⟩ := runLoop_ok_cases hs <;>
    obtain ⟨hu0, rfl, rfl⟩ | ⟨hu0, fuel', w, k', hfuel, hw, huRest, rfl⟩ := runLoop_ok_cases hu
  · exact ⟨h, rfl⟩
  · exact absurd (htag ▸ hs0) hu0
  · exact absurd (htag ▸ hu0) hs0
  · cases hfuel
    obtain ⟨hsame, rfl⟩ := sameControl_of_runLoop (sameControl_of_engineStep h hv hw) hsRest huRest
    exact ⟨hsame, rfl⟩
termination_by fuel

theorem sameControl_of_execStep {s u s' u' : State} (h : SameControl s u) (hs : execStep s = .next s')
    (hu : execStep u = .next u') : SameControl s' u' ∧ s'.resp = u'.resp := by
  obtain ⟨-, hkind, -⟩ := id h
  obtain ⟨hk, rfl⟩ | ⟨hk, v, hv, rfl⟩ := execStep_next_iff.mp hs <;>
    obtain ⟨hk', rfl⟩ | ⟨hk', w, hw, rfl⟩ := execStep_next_iff.mp hu
  · exact ⟨h, rfl⟩
  · exact absurd (hkind ▸ hk) hk'
  · exact absurd (hkind ▸ hk') hk
  · have hsame : SameControl v w := sameControl_of_engineStep h hv hw
    exact ⟨hsame, rfl⟩

theorem sameControl_of_execRun {s u s' u' : State} (h : SameControl s u) (hs : execRun s = .next s')
    (hu : execRun u = .next u') : SameControl s' u' ∧ s'.resp = u'.resp := by
  obtain ⟨hcfg, hkind, -⟩ := id h
  obtain ⟨hk, rfl⟩ | ⟨hk, v, n, hv, rfl⟩ := execRun_next_iff.mp hs <;>
    obtain ⟨hk', rfl⟩ | ⟨hk', w, m, hw, rfl⟩ := execRun_next_iff.mp hu
  · exact ⟨h, rfl⟩
  · exact absurd (hkind ▸ hk) hk'
  · exact absurd (hkind ▸ hk') hk
  · obtain ⟨hsame, rfl⟩ : SameControl v w ∧ n = m := sameControl_of_runLoop h hv (hcfg ▸ hw)
    exact ⟨hsame, rfl⟩

/-- Settles O51: STEP's transition and RUN's loop move the control by the control alone. -/
theorem controlIgnoresBufferValues : Obligations.ControlIgnoresBufferValues := by
  intro s u s' u' hcfg hkind htag hlength hstep hstepSize htop hbottom i hi hs hu
  have hsame : SameControl s u := ⟨hcfg, hkind, htag, hlength, hstep, hstepSize, htop, hbottom⟩
  have hnext : SameControl s' u' ∧ s'.resp = u'.resp := by
    obtain rfl | rfl := hi
    · exact sameControl_of_execStep hsame hs hu
    · exact sameControl_of_execRun hsame hs hu
  obtain ⟨⟨-, hkind', htag', hlength', hstep', hstepSize', htop', hbottom'⟩, hresp⟩ := hnext
  exact ⟨hkind', htag', hlength', hstep', hstepSize', htop', hbottom', hresp⟩

end Sys2Proof.Machine
end

section
/-! PROOFS. The engine commands that answer at once (47_engine_commands.md R310 to R314): STEP and RUN with no engine,
IS_DONE, CANCEL and CUR_RD. -/

namespace Sys2Proof.Machine

section
variable {s : State}

theorem exec_step_of_noEngine (hk : s.kind = .none) : exec .step s = raise .noEngine s := if_pos hk

theorem exec_run_of_noEngine (hk : s.kind = .none) : exec .run s = raise .noEngine s := if_pos hk

theorem exec_isDone_of_noEngine (hk : s.kind = .none) : exec .isDone s = raise .noEngine s := if_pos hk

theorem exec_isDone_of_engine (hk : s.kind ≠ .none) :
    exec .isDone s = respond (if s.tag = .done then 1 else 0) 0 s := if_neg hk

end

/-- Settles O23: the decoder's two rows, and the one guard of both commands. -/
theorem stepAndRunWithoutEngine : Obligations.StepAndRunWithoutEngine := by
  refine ⟨fun t hopc => ?stepRow, fun t hopc => ?runRow, fun s hk => ⟨?step, ?run⟩⟩
  case stepRow | runRow => simp only [decode, hopc]
  case step => exact exec_step_of_noEngine hk
  case run => exact exec_run_of_noEngine hk

/-- Settles O24: a branch of IS_DONE each; CANCEL has one. -/
theorem isDoneAndCancelRules : Obligations.IsDoneAndCancelRules := by
  refine ⟨fun t hopc => ?isDoneRow, fun t hopc => ?cancelRow,
    fun s => ⟨?noEngine, fun hk hdone => ?done, fun hk hdone => ?running, ?cancel⟩⟩
  case isDoneRow | cancelRow => simp only [decode, hopc]
  case noEngine => exact exec_isDone_of_noEngine
  case done => rw [exec_isDone_of_engine hk, if_pos hdone, respond_eq]
  case running => rw [exec_isDone_of_engine hk, if_neg hdone, respond_eq]
  case cancel => exact respond_eq 0 0 { s with kind := .none, tag := .none }

/-- The selectors that name no cursor (R314). -/
theorem exec_curRd_of_ge {sel : Nat} (hsel : 5 ≤ sel) (s : State) : exec (.curRd sel) s = raise .indexRange s := by
  obtain ⟨k, rfl⟩ := Nat.exists_eq_add_of_le' hsel
  rfl

/-- Settles O25: the decoder's row, the five cursors by their selectors, and no sixth. -/
theorem cursorReadRule : Obligations.CursorReadRule := by
  refine ⟨fun t hopc => ?row, fun s => ⟨?length, ?step, ?stepSize, ?topIdx, ?bottomIdx, fun sel hsel => ?range⟩⟩
  case row => simp only [decode, hopc]
  case length => exact respond_eq (resNat s.length) 0 s
  case step => exact respond_eq (resNat s.step) 0 s
  case stepSize => exact respond_eq (resNat s.stepSize) 0 s
  case topIdx => exact respond_eq (resNat s.topIdx) 0 s
  case bottomIdx => exact respond_eq (resNat s.bottomIdx) 0 s
  case range => exact exec_curRd_of_ge hsel s

end Sys2Proof.Machine
end

section
/-! PROOFS. How a command can end (60_exceptions.md R340 to R344, R353): with a fault of the model, with an error code,
or with OK; and what each of the three says of the command and of the next state. -/

namespace Sys2Proof.Machine

/-! ### The three ends of a command -/

/-- The command `i` stops with the fault `f`: of a buffer read, a table read, a transition or RUN's loop. -/
def Stops (i : Instr) (s : State) (f : Fault) : Prop :=
  match i with
  | .bufRd k => k < s.cfg.n ∧ memRead s k = .error f
  | .twRd k => k < s.cfg.q ∧ twRead s k = .error f
  | .step => s.kind ≠ .none ∧ engineStep s = .error f
  | .run => s.kind ≠ .none ∧ runLoop (totalSteps s.cfg) s = .error f
  | _ => False

/-- The command `i` can end with the error code `c`: of the commands SIN alone ends with DOMAIN_ERROR (R344). -/
def Errs (i : Instr) (c : RespCode) : Prop := c ≠ .ok ∧ (c = .domainError → ∃ a, i = .sin a)

/-- What the command `i` does before its OK: the observers nothing, ERR_CLR clears the error bits, and the others leave
them alone. -/
def Completes (i : Instr) (s u : State) : Prop :=
  match i with
  | .errClr => u = { s with err := 0 }
  | .bufWr .. | .fwdNew | .invNew | .step | .run | .cancel => u.err = s.err
  | _ => u = s

/-- The outcome is one of the three ends of the command `i` in the state `s`. -/
def Ends (i : Instr) (s : State) (o : Host.Outcome State Fault Refusal) : Prop :=
  (∃ f, Stops i s f ∧ o = .fault f) ∨ (∃ c, Errs i c ∧ o = raise c s) ∨
    ∃ r0 r1 u, Completes i s u ∧ o = respond r0 r1 u

section
variable {i : Instr} {s : State}

theorem ends_stop {f : Fault} (h : Stops i s f) : Ends i s (.fault f) := .inl ⟨f, h, rfl⟩

theorem ends_respond (r0 r1 : Word) {u : State} (h : Completes i s u) : Ends i s (respond r0 r1 u) :=
  .inr (.inr ⟨r0, r1, u, h, rfl⟩)

theorem ends_raise {c : RespCode} (hok : c ≠ .ok) (hdom : c ≠ .domainError) : Ends i s (raise c s) :=
  .inr (.inl ⟨c, ⟨hok, fun h => absurd h hdom⟩, rfl⟩)

theorem ends_ite {c : Prop} [Decidable c] {a b : Host.Outcome State Fault Refusal} (ha : c → Ends i s a)
    (hb : ¬c → Ends i s b) : Ends i s (if c then a else b) := by
  split
  · next hc => exact ha hc
  · next hc => exact hb hc

end

theorem execBufRd_ends (k : Nat) (s : State) : Ends (.bufRd k) s (execBufRd k s) := by
  refine ends_ite (fun _ => ends_raise nofun nofun) fun _ =>
    ends_ite (fun _ => ends_raise nofun nofun) fun hk => ?_
  cases hread : memRead s k with
  | error f => exact ends_stop ⟨Nat.lt_of_not_le hk, hread⟩
  | ok z => exact ends_respond _ _ rfl

theorem execTwRd_ends (k : Nat) (s : State) : Ends (.twRd k) s (execTwRd k s) := by
  refine ends_ite (fun _ => ends_raise nofun nofun) fun hk => ?_
  cases hread : twRead s k with
  | error f => exact ends_stop ⟨Nat.lt_of_not_le hk, hread⟩
  | ok v => exact ends_respond _ _ rfl

theorem execStep_ends (s : State) : Ends .step s (execStep s) := by
  refine ends_ite (fun _ => ends_raise nofun nofun) fun hengine => ?_
  cases hstep : engineStep s with
  | error f => exact ends_stop ⟨hengine, hstep⟩
  | ok s' =>
    have herr : s'.err = s.err := by rw [engineStep_only hstep]
    exact ends_respond _ _ herr

theorem execRun_ends (s : State) : Ends .run s (execRun s) := by
  refine ends_ite (fun _ => ends_raise nofun nofun) fun hengine => ?_
  cases hrun : runLoop (totalSteps s.cfg) s with
  | error f => exact ends_stop ⟨hengine, hrun⟩
  | ok p =>
    obtain ⟨-, -, honly⟩ := runLoop_ok hrun
    have herr : p.1.err = s.err := by rw [honly]
    exact ends_respond _ _ herr

theorem execCurRd_ends (sel : Nat) (s : State) : Ends (.curRd sel) s (execCurRd sel s) := by
  unfold execCurRd
  split
  case h_6 => exact ends_raise nofun nofun
  all_goals exact ends_respond _ _ rfl

/-- Every command ends in one of the three ways. -/
theorem exec_ends (i : Instr) (s : State) : Ends i s (exec i s) := by
  cases i with
  | nop | statRd | revbits | errClr | fwdNew | invNew | cancel => exact ends_respond _ _ rfl
  | bufWr =>
    exact ends_ite (fun _ => ends_raise nofun nofun) fun _ =>
      ends_ite (fun _ => ends_raise nofun nofun) fun _ => ends_respond _ _ rfl
  | bufRd k => exact execBufRd_ends k s
  | step => exact execStep_ends s
  | run => exact execRun_ends s
  | isDone => exact ends_ite (fun _ => ends_raise nofun nofun) fun _ => ends_respond _ _ rfl
  | curRd sel => exact execCurRd_ends sel s
  | sin a =>
    have hdomain : Errs (.sin a) .domainError := ⟨nofun, fun _ => ⟨a, rfl⟩⟩
    exact ends_ite (fun _ => ends_respond _ _ rfl) fun _ => .inr (.inl ⟨.domainError, hdomain, rfl⟩)
  | twRd k => exact execTwRd_ends k s
  | atanRd k =>
    by_cases hk : k < 64
    · exact exec_atanRd_of_lt hk ▸ ends_respond _ _ rfl
    · exact exec_atanRd_of_ge (Nat.le_of_not_lt hk) ▸ ends_raise nofun nofun
  | gainRd k =>
    by_cases hk : k < 64
    · exact exec_gainRd_of_lt hk ▸ ends_respond _ _ rfl
    · exact exec_gainRd_of_ge (Nat.le_of_not_lt hk) ▸ ends_raise nofun nofun

section
variable {i : Instr} {s t : State}

theorem exec_ne_refused (r : Refusal) : exec i s ≠ .refused r := by
  intro h
  obtain ⟨f, -, ho⟩ | ⟨c, -, ho⟩ | ⟨r0, r1, u, -, ho⟩ := h ▸ exec_ends i s <;> cases ho

theorem stops_of_exec {f : Fault} (h : exec i s = .fault f) : Stops i s f := by
  obtain ⟨f, hstop, ho⟩ | ⟨c, -, ho⟩ | ⟨r0, r1, u, -, ho⟩ := h ▸ exec_ends i s <;> cases ho
  exact hstop

/-- A command that answers ends with an error code and no other effect, or with OK (R341). -/
theorem exec_next_cases (h : exec i s = .next t) :
    (∃ c, Errs i c ∧ t = { s with err := s.err ||| errBit c, resp := some ⟨c, 0, 0⟩ }) ∨
      ∃ r0 r1 u, Completes i s u ∧ t = { u with resp := some ⟨.ok, r0, r1⟩ } := by
  obtain ⟨f, -, ho⟩ | ⟨c, herr, ho⟩ | ⟨r0, r1, u, hu, ho⟩ := h ▸ exec_ends i s <;> cases ho
  · exact .inl ⟨c, herr, rfl⟩
  · exact .inr ⟨r0, r1, u, hu, rfl⟩

theorem err_of_completes {u : State} (h : Completes i s u) (hi : i ≠ .errClr) : u.err = s.err := by
  cases i
  case errClr => exact absurd rfl hi
  case bufWr | fwdNew | invNew | step | run | cancel => exact h
  all_goals exact congrArg State.err h

end

/-! ### Errors -/

/-- A transaction that answers ends with an error code and no other effect, or it is a command that ends with OK. -/
theorem transact_next_cases {t : Txn} {s u : State} (h : transact t s = .next u) :
    (∃ c, c ≠ .ok ∧ u = { s with err := s.err ||| errBit c, resp := some ⟨c, 0, 0⟩ }) ∨
      ∃ i r0 r1 v, decode t = .ok i ∧ Completes i s v ∧ u = { v with resp := some ⟨.ok, r0, r1⟩ } := by
  cases hdec : decode t with
  | error e =>
    rw [transact_of_decode_error hdec] at h
    cases h
    exact .inl ⟨.illegalCmd, nofun, rfl⟩
  | ok i =>
    rw [transact_of_decode_ok hdec] at h
    obtain ⟨c, ⟨hok, -⟩, hu⟩ | ⟨r0, r1, v, hv, hu⟩ := exec_next_cases h
    · exact .inl ⟨c, hok, hu⟩
    · exact .inr ⟨i, r0, r1, v, rfl, hv, hu⟩

/-- Settles O52: the end with an error code is the one whose code is not OK. -/
theorem errorsArePrecise : Obligations.ErrorsArePrecise := by
  intro t s u r h hr hcode
  obtain ⟨c, -, rfl⟩ | ⟨i, r0, r1, v, -, -, rfl⟩ := transact_next_cases h <;> cases hr
  · rfl
  · exact absurd rfl hcode

theorem exec_errClr (s : State) : exec .errClr s = .next { s with err := 0, resp := some ⟨.ok, 0, 0⟩ } := rfl

/-- Settles O53: the codes and bits by their definitions; a transaction ORs its code's bit into `err` or, ending with OK
and not being ERR_CLR, leaves `err` alone. -/
theorem errorBitsAreSticky : Obligations.ErrorBitsAreSticky := by
  refine ⟨⟨rfl, rfl, rfl, rfl, rfl, rfl⟩, fun c k hk => ?bits, fun s => applyReset_err s,
    fun t s u h => ⟨fun hopc => ?clear, fun hopc => ?sticky⟩⟩
  case bits =>
    cases c <;> interval_cases k <;> decide
  case clear =>
    have hdec : decode t = .ok .errClr := by simp only [decode, hopc]
    rw [transact_of_decode_ok hdec, exec_errClr] at h
    cases h
    rfl
  case sticky =>
    obtain ⟨c, hok, rfl⟩ | ⟨i, r0, r1, v, hdec, hv, rfl⟩ := transact_next_cases h
    · exact ⟨_, rfl, rfl, fun hc => absurd hc hok⟩
    · have hi : i ≠ .errClr := by
        rintro rfl
        exact hopc (decode_ok_fields hdec).1.symm
      have herr : v.err = s.err := err_of_completes hv hi
      exact ⟨_, rfl, by simp [herr, errBit], fun _ => herr⟩

/-- Settles O54: an observer that ends with OK has done nothing, or cleared the error bits. -/
theorem observersTouchNothing : Obligations.ObserversTouchNothing := by
  intro i s t hi h
  obtain ⟨c, -, rfl⟩ | ⟨r0, r1, u, hu, rfl⟩ := exec_next_cases h
  · rfl
  · have honly : u = { s with err := u.err } := by
      obtain rfl | rfl | rfl | rfl | ⟨_, rfl⟩ | ⟨_, rfl⟩ | ⟨_, rfl⟩ | ⟨_, rfl⟩ | ⟨_, rfl⟩ | ⟨_, rfl⟩ | ⟨_, rfl⟩ := hi
      all_goals
        cases hu
        rfl
    rw [honly]

/-! ### What stops the machine -/

/-- RUN's loop stops where a transition stops, or for want of fuel. -/
theorem runLoop_error_cases {fuel : Nat} {s : State} {f : Fault} (h : runLoop fuel s = .error f) :
    s.tag ≠ .done ∧ (fuel = 0 ∨ ∃ fuel', fuel = fuel' + 1 ∧
      (engineStep s = .error f ∨ ∃ s', engineStep s = .ok s' ∧ runLoop fuel' s' = .error f)) := by
  have hdone : s.tag ≠ .done := fun hdone => by simp [runLoop_done hdone] at h
  refine ⟨hdone, ?_⟩
  cases fuel with
  | zero => exact .inl rfl
  | succ fuel =>
    rw [runLoop_succ hdone] at h
    refine .inr ⟨fuel, rfl, ?_⟩
    cases hstep : engineStep s with
    | error f' =>
      simp only [hstep] at h
      cases h
      exact .inl rfl
    | ok s' =>
      simp only [hstep] at h
      exact .inr ⟨s', rfl, except_map_error_iff.mp h⟩

/-- A transition keeps the parameters and which entries are written, so a stop after it is one before it. -/
theorem unwrittenStop_before {s s' : State} {f : Fault} (hstep : engineStep s = .ok s') (h : UnwrittenStop s' f) :
    UnwrittenStop s f := by
  obtain ⟨i, hf, hi, hnew⟩ := h
  have hcfg : s'.cfg = s.cfg := by rw [engineStep_only hstep]
  exact ⟨i, hf, hcfg ▸ hi, written_of_engineStep hstep i ▸ hnew⟩

/-- With fuel for the transitions left, RUN's loop stops at an unwritten entry alone. -/
theorem unwrittenStop_of_runLoop {fuel : Nat} {s : State} {f : Fault} (hinv : Inv s) (hengine : s.kind ≠ .none)
    (hfuel : remaining s ≤ fuel) (h : runLoop fuel s = .error f) : UnwrittenStop s f := by
  obtain ⟨hdone, rfl | ⟨fuel, rfl, hstop | ⟨s', hstep, hrest⟩⟩⟩ := runLoop_error_cases h
  · exact absurd ((remaining_eq_zero_iff (inv_iff.mp hinv).1 hengine).mp (Nat.le_zero.mp hfuel)) hdone
  · exact unwrittenStop_of_engineStep hinv hengine hstop
  · have hcount := remaining_of_engineStep_of_inv hinv hdone hstep
    exact unwrittenStop_before hstep (unwrittenStop_of_runLoop (engineStep_keeps_inv hinv hstep)
      ((kind_of_engineStep_ok hstep).1 ▸ hengine) (by omega) hrest)
termination_by fuel

/-- In a state that meets the invariant a command stops at an unwritten entry alone (R353). -/
theorem unwrittenStop_of_exec {i : Instr} {s : State} {f : Fault} (hinv : Inv s) (h : exec i s = .fault f) :
    UnwrittenStop s f := by
  obtain ⟨hcontrol, -, htw⟩ := inv_iff.mp hinv
  have hstop := stops_of_exec h
  cases i
  case bufRd k => exact unwrittenStop_of_memRead hstop.1 hstop.2
  case twRd k =>
    obtain ⟨hk, hread⟩ := hstop
    have hout := (twRead_error_iff.mp hread).1
    rw [twBuilt_iff.mp htw, length_buildTw] at hout
    exact absurd hk hout.not_gt
  case step => exact unwrittenStop_of_engineStep hinv hstop.1 hstop.2
  case run =>
    exact unwrittenStop_of_runLoop hinv hstop.1 (remaining_le_totalSteps hcontrol hstop.1) hstop.2
  all_goals exact hstop.elim

/-- A step that does not answer is a command's that does not: reset and the error response always answer. -/
theorem step_ne_next_cases {s : State} {o : Host.Outcome State Fault Refusal} (h : step s = o) (ho : ∀ t, o ≠ .next t) :
    ∃ i rest, exec i { s with port := rest } = o := by
  unfold step at h
  split at h
  · exact absurd h.symm (ho _)
  · exact absurd h.symm (ho _)
  · next t rest _ =>
    cases hdec : decode t with
    | ok i => exact ⟨i, rest, (transact_of_decode_ok hdec _).symm.trans h⟩
    | error e =>
      rw [transact_of_decode_error hdec, raise_eq] at h
      exact absurd h.symm (ho _)

/-- Settles O46: no command refuses, the stops are those of the reads, and DOMAIN_ERROR is SIN's alone. -/
theorem onlyUnwrittenReadsStop : Obligations.OnlyUnwrittenReadsStop := by
  intro s hinv
  refine ⟨fun r hstep => ?refused, fun f hstep => ?stopped, fun i t r h hr hdom => ?domain⟩
  case refused =>
    obtain ⟨i, rest, h⟩ := step_ne_next_cases hstep nofun
    exact exec_ne_refused r h
  case stopped =>
    obtain ⟨i, rest, h⟩ := step_ne_next_cases hstep nofun
    have hstop : UnwrittenStop { s with port := rest } f := unwrittenStop_of_exec (s := { s with port := rest }) hinv h
    exact hstop
  case domain =>
    obtain ⟨c, ⟨-, hsin⟩, rfl⟩ | ⟨r0, r1, u, -, rfl⟩ := exec_next_cases h <;> cases hr
    · exact hsin hdom
    · cases hdom

end Sys2Proof.Machine
end

section
/-! PROOFS. Elaboration and reset (60_exceptions.md R343, 70_reset_and_hazards.md R370, R371), and a buffer read after a
write (R375). -/

namespace Sys2Proof.Machine

theorem legal_iff {c : Config} : c.legal = true ↔ 2 ≤ c.log2n ∧ c.log2n ≤ 24 := by
  simp [Config.legal]

/-- Elaboration makes the reset state of the parameters, of the legal ones alone (R343). -/
theorem elaborate_eq_some_iff {l : Nat} {p : Prec} {atan gain : List Word} {s : State} :
    elaborate l p atan gain = some s ↔
      (2 ≤ l ∧ l ≤ 24) ∧ ∃ (ha : atan.toArray.size = 64) (hg : gain.toArray.size = 64),
        State.resetOf ⟨l, p⟩ ⟨atan.toArray, ha⟩ ⟨gain.toArray, hg⟩ = s := by
  simp only [elaborate, legal_iff, List.size_toArray]
  by_cases hl : 2 ≤ l ∧ l ≤ 24
  · by_cases ha : atan.length = 64
    · by_cases hg : gain.length = 64 <;> simp [hl, ha, hg]
    · simp [hl, ha]
  · simp [hl]

/-- Settles O2: the machine made is the reset state, whose fields are R30's. -/
theorem elaborationChecksParameters : Obligations.ElaborationChecksParameters := by
  intro l p atan gain
  refine ⟨?legal, fun s hs => ?machine⟩
  case legal =>
    simp only [Option.isSome_iff_exists, elaborate_eq_some_iff, List.size_toArray]
    constructor
    · rintro ⟨_, ⟨hlo, hhi⟩, ha, hg, -⟩
      exact ⟨hlo, hhi, ha, hg⟩
    · rintro ⟨hlo, hhi, ha, hg⟩
      exact ⟨_, ⟨hlo, hhi⟩, ha, hg, rfl⟩
  case machine =>
    obtain ⟨-, ha, hg, rfl⟩ := elaborate_eq_some_iff.mp hs
    exact ⟨rfl, rfl, rfl, length_buildTw .., rfl, rfl, rfl, rfl, rfl, rfl, rfl, rfl, fun _ => rfl⟩

theorem step_of_port_reset {s : State} {rest : List PortEvent} (h : s.port = .reset :: rest) :
    step s = .next (applyReset { s with port := rest }) := by
  simp [step, h]

/-- Settles O1: the reset event's state, field by field. -/
theorem resetEventClearsState : Obligations.ResetEventClearsState := by
  intro s rest hport
  exact ⟨_, step_of_port_reset hport, rfl, rfl, rfl, rfl, rfl, rfl, rfl, rfl, fun _ => rfl, rfl, rfl, rfl, rfl, rfl⟩

/-- The T bits of a word are T bits already, so making a result of them changes nothing. -/
theorem resT_opT (p : Prec) (w : Word) : resT p (opT p w) = opT p w := by
  cases p with
  | b32 => simp [resT, opT]
  | b64 => rfl

/-- BUF_RD of an entry that holds two T operands. -/
theorem exec_bufRd_of_operands {s : State} {i : Nat} {a b : Word} (hidle : active s = false) (hi : i < s.cfg.n)
    (hz : bufGet s.buf i = some ⟨opT s.cfg.prec a, opT s.cfg.prec b⟩) :
    exec (.bufRd i) s = .next { s with resp := some ⟨.ok, opT s.cfg.prec a, opT s.cfg.prec b⟩ } := by
  rw [exec_bufRd_of_bufGet hidle hi hz, resT_opT, resT_opT, respond_eq]

/-- Settles O8: the write answers with the entry stored, and leaves the engine and the parameters as they were. -/
theorem readAfterWriteReturnsIt : Obligations.ReadAfterWriteReturnsIt := by
  intro s t i a b hidle hi h
  rw [exec_bufWr_of_lt hidle hi] at h
  cases h
  exact exec_bufRd_of_operands hidle hi (bufGet_bufSet_same ..)

end Sys2Proof.Machine
end
